-- ==== Sys2Proof/Word.lean ====
section
/-! DEFINITION. The words of the block (00_scope.md R9, R10): command words, register values, bytes of `OUT`, cells of `SINK`. -/

namespace Sys2Proof

/-- A command word: `CMD_BITS = 64` bits, bit 0 the least significant (R9, R70). It has no byte order (D38). -/
abbrev CmdWord := BitVec 64

/-- A configuration register, a status register or a value of `RSP` (R21, R30, R54). -/
abbrev Reg32 := BitVec 32

/-- A byte of the output stream `OUT` (R53). -/
abbrev Byte := BitVec 8

/-- A cell of `SINK`: an `i16`, a signed-domain sample in two's complement (R36). -/
abbrev Cell := BitVec 16

end Sys2Proof
end

