-- ==== Sys2Proof/Syntax.lean ====
section
/-! DEFINITION. The eight commands (30_encoding.md R72), one constructor per row of opcode_table.json. -/

namespace Sys2Proof

/-- A command with its operands, assembled as R81 says: every operand unsigned and used as it stands. -/
inductive Instr where
  /-- `RESET` (R73, R105). -/
  | reset
  /-- `CFGW idx, value` (R74, R104): all eight values of `idx` name a register. -/
  | cfgw (idx : Fin 8) (value : Reg32)
  /-- `START` (R75, R147). -/
  | start
  /-- `BYTE data` (R76, R148). -/
  | byte (data : Byte)
  /-- `TONE freq, dur` (R77, R128): whole Hz and whole microseconds (R86). -/
  | tone (freq : BitVec 24) (dur : Reg32)
  /-- `EOI` (R78, R149). -/
  | eoi
  /-- `WRITE` (R79, R170). -/
  | write
  /-- `RDSR idx` (R80, R106): only 0 to 4 name a register (R30); WellFormed.lean checks it. -/
  | rdsr (idx : Fin 8)
  deriving DecidableEq, Repr

end Sys2Proof
end

