-- ==== Sys2Proof/WellFormed.lean ====
section
/-! DEFINITION. Which terms of `Instr` are commands of the block. -/

namespace Sys2Proof

/-- R82: `RDSR` of 5, 6 or 7 is no command. Every other operand is legal at every value its field holds
(R74, R76, R77). -/
def Instr.wellFormed : Instr → Bool
  | .reset => true
  | .cfgw _ _ => true
  | .start => true
  | .byte _ => true
  | .tone _ _ => true
  | .eoi => true
  | .write => true
  | .rdsr idx => decide (idx.val ≤ 4)

end Sys2Proof
end

