-- ==== Sys2Proof/Decode.lean ====
section
/-! DEFINITION. The command word: its fields (30_encoding.md R70), the opcode map (R72 to R80), a total decoder (R82, R89) and the encoder. -/

namespace Sys2Proof

/-- `w[63:56]`, the opcode (R70). -/
def fieldOp (w : CmdWord) : BitVec 8 := w.extractLsb' 56 8

/-- `w[55:32]`, the first operand (R70). -/
def fieldA (w : CmdWord) : BitVec 24 := w.extractLsb' 32 24

/-- `w[31:0]`, the second operand (R70). -/
def fieldB (w : CmdWord) : BitVec 32 := w.extractLsb' 0 32

/-- `w[63:32]`, the `op` and `a` fields together: what `IllegalCommand` records (R33). -/
def upperHalf (w : CmdWord) : Reg32 := w.extractLsb' 32 32

/-- A register number is `a[2:0]` (R81). -/
def registerNumber (a : BitVec 24) : Fin 8 := (a.extractLsb' 0 3).toFin

/-- `a[23:3] = 0`, which a command with a register number requires (R81). -/
def upperANotZero (a : BitVec 24) : Bool := a.extractLsb' 3 21 != 0

/-- Why a word is `Illegal` (R82). -/
inductive DecodeError where
  /-- `op` is not one of `0x01 .. 0x08`. -/
  | reservedOpcode (op : BitVec 8)
  /-- A field the command does not use, or bits it requires to be 0, are not 0. -/
  | mustBeZero
  /-- `RDSR` of a number that names no status register. -/
  | reservedStatusNumber (idx : Fin 8)
  deriving DecidableEq, Repr

/-- A command without operands: `a = 0` and `b = 0`. -/
def decodePlain (a : BitVec 24) (b : BitVec 32) (i : Instr) : Except DecodeError Instr :=
  if a = 0 ∧ b = 0 then .ok i else .error .mustBeZero

/-- `decode(w)` (R89): total, and it does not look at `STATE`. -/
def decode (w : CmdWord) : Except DecodeError Instr :=
  let a := fieldA w
  let b := fieldB w
  match (fieldOp w).toNat with
  | 0x01 => decodePlain a b .reset
  | 0x02 => if upperANotZero a then .error .mustBeZero else .ok (.cfgw (registerNumber a) b)
  | 0x03 => decodePlain a b .start
  | 0x04 =>
    if a = 0 ∧ b.extractLsb' 8 24 = 0 then .ok (.byte (b.extractLsb' 0 8)) else .error .mustBeZero
  | 0x05 => .ok (.tone a b)
  | 0x06 => decodePlain a b .eoi
  | 0x07 => decodePlain a b .write
  | 0x08 =>
    if upperANotZero a || b != 0 then .error .mustBeZero
    else if (registerNumber a).val ≤ 4 then .ok (.rdsr (registerNumber a))
    else .error (.reservedStatusNumber (registerNumber a))
  | _ => .error (.reservedOpcode (fieldOp w))

/-- The three fields put together (R70). -/
def assemble (op : BitVec 8) (a : BitVec 24) (b : BitVec 32) : CmdWord := op ++ a ++ b

/-- `op` of a command (R72). -/
def opcode : Instr → BitVec 8
  | .reset => 0x01
  | .cfgw _ _ => 0x02
  | .start => 0x03
  | .byte _ => 0x04
  | .tone _ _ => 0x05
  | .eoi => 0x06
  | .write => 0x07
  | .rdsr _ => 0x08

/-- `a` of a command; 0 where it is not used (R72, R81). -/
def operandA : Instr → BitVec 24
  | .reset => 0
  | .cfgw idx _ => BitVec.ofNat 24 idx.val
  | .start => 0
  | .byte _ => 0
  | .tone freq _ => freq
  | .eoi => 0
  | .write => 0
  | .rdsr idx => BitVec.ofNat 24 idx.val

/-- `b` of a command; 0 where it is not used (R72, R81). -/
def operandB : Instr → BitVec 32
  | .reset => 0
  | .cfgw _ value => value
  | .start => 0
  | .byte data => data.setWidth 32
  | .tone _ dur => dur
  | .eoi => 0
  | .write => 0
  | .rdsr _ => 0

/-- The command word of a command, from R72 to R81. -/
def encode (i : Instr) : CmdWord := assemble (opcode i) (operandA i) (operandB i)

/-- A row of opcode_table.json: a word fits it when its bits under `mask` are `pattern`. -/
structure OpcodeRow where
  mnemonic : String
  pattern : CmdWord
  mask : CmdWord
  deriving DecidableEq, Repr

/-- Whether `w` fits the row. -/
def OpcodeRow.fits (r : OpcodeRow) (w : CmdWord) : Bool := w &&& r.mask == r.pattern

/-- The row of a command: match and mask of R73 to R80. -/
def Instr.row : Instr → OpcodeRow
  | .reset => ⟨"RESET", 0x0100000000000000, 0xFFFFFFFFFFFFFFFF⟩
  | .cfgw _ _ => ⟨"CFGW", 0x0200000000000000, 0xFFFFFFF800000000⟩
  | .start => ⟨"START", 0x0300000000000000, 0xFFFFFFFFFFFFFFFF⟩
  | .byte _ => ⟨"BYTE", 0x0400000000000000, 0xFFFFFFFFFFFFFF00⟩
  | .tone _ _ => ⟨"TONE", 0x0500000000000000, 0xFF00000000000000⟩
  | .eoi => ⟨"EOI", 0x0600000000000000, 0xFFFFFFFFFFFFFFFF⟩
  | .write => ⟨"WRITE", 0x0700000000000000, 0xFFFFFFFFFFFFFFFF⟩
  | .rdsr _ => ⟨"RDSR", 0x0800000000000000, 0xFFFFFFF8FFFFFFFF⟩

/-- opcode_table.json, in its order. -/
def opcodeTable : List OpcodeRow :=
  [Instr.row .reset, Instr.row (.cfgw 0 0), Instr.row .start, Instr.row (.byte 0),
   Instr.row (.tone 0 0), Instr.row .eoi, Instr.row .write, Instr.row (.rdsr 0)]

/-- The word whose bits the table numbers as `w`, bits from `nbits` up being 0 (log 16). -/
def tableWord (nbits w : Nat) : CmdWord := BitVec.ofNat 64 (w % 2 ^ nbits)

/-- The command the decoder reads from the word whose bits are `w` in the table's numbering, which is R9's. -/
def decodeTableWord (nbits w : Nat) : Option Instr := (decode (tableWord nbits w)).toOption

end Sys2Proof
end

