-- ==== Sys2Proof/Config/Sine.lean ====
section
/-! DEFINITION. A rational approximation of the sine, with its error bound. It says that an integer allowed by R126 (Q2) can be computed, so that the free sample value of Config.lean has a witness to be declared with. No meaning reads it and no theorem about the machine can see its values. -/

namespace Sys2Proof.Config

/-- A rational near `pi`, for the witness only. -/
def piApprox : Rat := 31415926536 / 10000000000

/-- Real and imaginary part of `(i t)^m / m!`, and the sum of the imaginary parts of the terms below `m`. -/
def sineSeries (t : Rat) : Nat → Rat × Rat × Rat
  | 0 => (1, 0, 0)
  | m + 1 =>
    let p := sineSeries t m
    (-(p.2.1 * t) / (m + 1), p.1 * t / (m + 1), p.2.2 + p.2.1)

/-- `sineSeries (p / q)` over whole numbers: the three numerators and their common denominator. -/
def sineNumerators (p q : Int) : Nat → Int × Int × Int × Int
  | 0 => (1, 0, 0, 1)
  | m + 1 =>
    let n := sineNumerators p q m
    let k := q * (m + 1)
    (-(n.2.1 * p), n.1 * p, (n.2.2.1 + n.2.1) * k, n.2.2.2 * k)

/-- An approximation of `sin (2 pi ph / fs)`. -/
def nearSine (ph fs : Nat) : Rat :=
  let n := sineNumerators (2 * 31415926536 * (ph % fs : Nat)) (10000000000 * fs) 32
  (n.2.2.1 : Rat) / n.2.2.2

theorem sineNumerators_spec (p q : Int) (hq : q ≠ 0) (m : Nat) :
    (sineNumerators p q m).2.2.2 ≠ 0 ∧
    ((sineNumerators p q m).1 : Rat) / (sineNumerators p q m).2.2.2 = (sineSeries (p / q) m).1 ∧
    ((sineNumerators p q m).2.1 : Rat) / (sineNumerators p q m).2.2.2 = (sineSeries (p / q) m).2.1 ∧
    ((sineNumerators p q m).2.2.1 : Rat) / (sineNumerators p q m).2.2.2 = (sineSeries (p / q) m).2.2 := by
  induction m with
  | zero => simp [sineNumerators, sineSeries]
  | succ m ih =>
    obtain ⟨h0, h1, h2, h3⟩ := ih
    have hm : ((m : Int) + 1) ≠ 0 := by omega
    have hmQ : ((m : Rat) + 1) ≠ 0 := by exact_mod_cast hm
    have hqQ : (q : Rat) ≠ 0 := by exact_mod_cast hq
    have h0Q : ((sineNumerators p q m).2.2.2 : Rat) ≠ 0 := by exact_mod_cast h0
    refine ⟨?_, ?_, ?_, ?_⟩
    · simp only [sineNumerators]
      exact mul_ne_zero h0 (mul_ne_zero hq hm)
    · simp only [sineNumerators, sineSeries, ← h2]
      push_cast; field_simp
    · simp only [sineNumerators, sineSeries, ← h1]
      push_cast; field_simp
    · simp only [sineNumerators, sineSeries, ← h3, ← h2]
      push_cast; field_simp

theorem nearSine_eq_series (ph fs : Nat) (hfs : fs ≠ 0) :
    nearSine ph fs = (sineSeries (2 * piApprox * ((ph % fs : Nat) : Rat) / fs) 32).2.2 := by
  have hq : (10000000000 * (fs : Int)) ≠ 0 := by omega
  have hfsQ : (fs : Rat) ≠ 0 := by exact_mod_cast hfs
  have h := (sineNumerators_spec (2 * 31415926536 * (ph % fs : Nat)) (10000000000 * fs) hq 32).2.2.2
  have ht : (((2 * 31415926536 * (ph % fs : Nat) : Int) : Rat) / ((10000000000 * (fs : Int) : Int) : Rat))
      = 2 * piApprox * ((ph % fs : Nat) : Rat) / fs := by
    generalize ph % fs = r
    push_cast [piApprox]; field_simp; ring
  rw [ht] at h
  exact h

theorem sineSeries_term (t : Rat) (m : Nat) :
    (Complex.I * (t : ℂ)) ^ m / (m.factorial : ℂ) =
      ((sineSeries t m).1 : ℂ) + ((sineSeries t m).2.1 : ℂ) * Complex.I := by
  induction m with
  | zero => simp [sineSeries]
  | succ m ih =>
    have hm : ((m : ℂ) + 1) ≠ 0 := by exact_mod_cast Nat.succ_ne_zero m
    have hf : (m.factorial : ℂ) ≠ 0 := by exact_mod_cast m.factorial_ne_zero
    have h1 : (Complex.I * (t : ℂ)) ^ (m + 1) / ((m + 1).factorial : ℂ)
        = ((Complex.I * (t : ℂ)) ^ m / (m.factorial : ℂ)) * (Complex.I * t) / (m + 1) := by
      rw [Nat.factorial_succ, pow_succ]; push_cast; field_simp
    rw [h1, ih]
    simp only [sineSeries]
    push_cast
    field_simp
    ring_nf
    simp only [Complex.I_sq]
    ring

theorem sineSeries_sum (t : Rat) (n : Nat) :
    (∑ m ∈ Finset.range n, (Complex.I * (t : ℂ)) ^ m / (m.factorial : ℂ)).im =
      ((sineSeries t n).2.2 : ℝ) := by
  induction n with
  | zero => simp [sineSeries]
  | succ n ih =>
    rw [Finset.sum_range_succ, Complex.add_im, ih, sineSeries_term]
    have e1 : (((sineSeries t n).1 : Rat) : ℂ) = (((sineSeries t n).1 : ℝ) : ℂ) := by norm_cast
    have e2 : (((sineSeries t n).2.1 : Rat) : ℂ) = (((sineSeries t n).2.1 : ℝ) : ℂ) := by norm_cast
    rw [e1, e2]
    simp [sineSeries]

theorem sin_sub_sineSeries (t : Rat) (h0 : 0 ≤ t) (h1 : t ≤ 63 / 10) :
    |Real.sin (t : ℝ) - ((sineSeries t 32).2.2 : ℝ)| ≤ 1 / 1000000 := by
  have t0 : (0 : ℝ) ≤ t := by exact_mod_cast h0
  have t1 : (t : ℝ) ≤ 63 / 10 := by
    have : ((t : Rat) : ℝ) ≤ ((63 / 10 : Rat) : ℝ) := by exact_mod_cast h1
    simpa using this
  have hn : ‖Complex.I * (t : ℂ)‖ = (t : ℝ) := by
    have : ((t : Rat) : ℂ) = ((t : ℝ) : ℂ) := by norm_cast
    rw [norm_mul, Complex.norm_I, one_mul, this, Complex.norm_real, Real.norm_of_nonneg t0]
  have hb := Complex.exp_bound' (x := Complex.I * (t : ℂ)) (n := 32)
    (by rw [hn]; norm_num; linarith)
  have him := (Complex.abs_im_le_norm _).trans hb
  rw [Complex.sub_im, sineSeries_sum, hn] at him
  have hsin : (Complex.exp (Complex.I * (t : ℂ))).im = Real.sin t := by
    have : ((t : Rat) : ℂ) = ((t : ℝ) : ℂ) := by norm_cast
    rw [mul_comm, this, Complex.exp_ofReal_mul_I_im]
  rw [hsin] at him
  refine him.trans ?_
  have hp : (t : ℝ) ^ 32 ≤ (63 / 10) ^ 32 := pow_le_pow_left₀ t0 t1 32
  calc (t : ℝ) ^ 32 / ((32 : ℕ).factorial : ℝ) * 2
      ≤ (63 / 10) ^ 32 / ((32 : ℕ).factorial : ℝ) * 2 := by gcongr
    _ ≤ 1 / 1000000 := by norm_num [Nat.factorial]

theorem nearSine_close (ph fs : Nat) :
    |(nearSine ph fs : ℝ) - Real.sin (2 * Real.pi * ph / fs)| ≤ 1 / 100000 := by
  rcases Nat.eq_zero_or_pos fs with rfl | hfs
  · norm_num [nearSine, sineNumerators]
  have hfsR : (0 : ℝ) < fs := by exact_mod_cast hfs
  set r := ph % fs with hr
  have hrlt : r < fs := Nat.mod_lt _ hfs
  have hrR : ((r : ℕ) : ℝ) / fs ≤ 1 := by
    rw [div_le_one hfsR]; exact_mod_cast hrlt.le
  have hr0 : 0 ≤ ((r : ℕ) : ℝ) / fs := by positivity
  have hsin : Real.sin (2 * Real.pi * ph / fs) = Real.sin (2 * Real.pi * (r / fs)) := by
    have hdiv : (ph : ℝ) = (ph / fs : ℕ) * fs + r := by
      have := Nat.div_add_mod ph fs
      rw [mul_comm] at this
      exact_mod_cast this.symm
    have : 2 * Real.pi * ph / fs = 2 * Real.pi * (r / fs) + (ph / fs : ℕ) * (2 * Real.pi) := by
      rw [hdiv]; field_simp; ring
    rw [this, Real.sin_add_nat_mul_two_pi]
  set t : Rat := 2 * piApprox * ((r : ℕ) : Rat) / fs with ht
  have htR : (t : ℝ) = 2 * (31415926536 / 10000000000) * (r / fs) := by
    rw [ht]; simp [piApprox]; ring
  have ht0 : (0 : ℝ) ≤ t := by rw [htR]; positivity
  have ht1 : (t : ℝ) ≤ 63 / 10 := by rw [htR]; nlinarith
  have h1 := sin_sub_sineSeries t (by exact_mod_cast ht0) (by
    have : ((t : Rat) : ℝ) ≤ ((63 / 10 : Rat) : ℝ) := by push_cast; exact ht1
    exact_mod_cast this)
  have h2 : |Real.sin (2 * Real.pi * (r / fs)) - Real.sin t| ≤ 1 / 1000000 := by
    have hd : |2 * Real.pi * (r / fs) - t| ≤ 1 / 1000000 := by
      rw [htR, abs_le]
      have a := Real.pi_gt_d20
      have b := Real.pi_lt_d20
      constructor <;> nlinarith
    refine le_trans ?_ hd
    have := Real.abs_sin_sub_sin_le (2 * Real.pi * (r / fs)) t
    simpa using this
  rw [hsin]
  have e : (nearSine ph fs : ℝ) = ((sineSeries t 32).2.2 : ℝ) := by
    rw [nearSine_eq_series ph fs hfs.ne']
  rw [e]
  rw [abs_le] at h1 h2 ⊢
  constructor <;> linarith [h1.1, h1.2, h2.1, h2.2]

end Sys2Proof.Config
end

