-- ==== Sys2Proof/Config.lean ====
section
/-! DEFINITION. The parameters of 00_scope.md R7: the named constants the spec fixes, the record `Params` of those it leaves to the implementation, and the free sample value (R125, R126). -/

namespace Sys2Proof.Config

/-- Preamble length in bit-durations (R7). -/
def preBits : Nat := 1040

/-- Postamble length in bit-durations (R7). -/
def postBits : Nat := 240

/-- Microseconds per second (R7). -/
def usPerSecond : Nat := 1000000

/-- `VOLUME`, the fraction of full scale (R7). -/
def volume : Rat := 1 / 5

/-- `FULL_SCALE`, the maximum representable signed 16-bit magnitude (R7, D14). -/
def fullScale : Rat := 32767

/-- `SAMPLE_BITS`, bits per sample (R7). -/
def sampleBits : Nat := 16

/-- `CHANNELS`, the channel count (R7). -/
def channels : Nat := 1

/-- The parameters the spec leaves to the implementation (R7, R8; 92_eei_decisions.md "Named open
parameters"). DESIGN CHOICE (log 3): the machine's state carries one value of this record, which no step
changes, so that a statement over every state holds for every implementation. -/
structure Params where
  /-- `MAX_SAMPLES`, OPEN (D19); R8 bounds it by 2147483624. -/
  maxSamples : Fin 2147483625
  /-- `MAX_RATE` (D18); R8 bounds it by 2147483647. -/
  maxRate : Fin 2147483648
  /-- `AMP` (D14), in units of one quantisation step. -/
  amp : Rat
  /-- `ZERO_LEVEL` (D16), a signed-domain sample. -/
  zeroLevel : Cell
  /-- `MIN_SHIFT_HZ` (D32). -/
  minShiftHz : Nat
  deriving DecidableEq, Repr

/-- The constraints of R8 that the types of `Params` do not already say. -/
abbrev Params.ok (p : Params) : Prop :=
  1 ≤ p.maxRate.val ∧ 0 < p.amp ∧ p.amp + 1 ≤ 32767

/-- R7's default of every parameter that has one. `MAX_SAMPLES` has none: the largest value R8 allows stands
here (DESIGN CHOICE, log 3). -/
def Params.default : Params where
  maxSamples := 2147483624
  maxRate := 44100
  amp := volume * fullScale
  zeroLevel := 0
  minShiftHz := 20

/-- What R125 and R126 (Q2) say of a sample value `v` at phase `ph` and sample rate `fs`: it is within 1 of
`AMP * sin (2 pi ph / fs)`. It is owed for every `AMP` that R8 allows. -/
def SampleLaw (amp : Rat) (ph fs : Nat) (v : Int) : Prop :=
  0 < amp → amp + 1 ≤ 32767 →
    |(v : ℝ) - (amp : ℝ) * Real.sin (2 * Real.pi * ph / fs)| < 1

/-- Some integer meets `SampleLaw`: the nearest one to the approximation of Config/Sine.lean. -/
def conformingSample (amp : Rat) (ph fs : Nat) : Int :=
  (amp * nearSine ph fs + 1 / 2).floor

theorem conformingSample_law (amp : Rat) (ph fs : Nat) :
    SampleLaw amp ph fs (conformingSample amp ph fs) := by
  intro h0 h1
  have hs := nearSine_close ph fs
  have a0 : (0 : ℝ) < amp := by exact_mod_cast h0
  have a1 : (amp : ℝ) ≤ 32766 := by
    have : amp ≤ 32766 := by linarith
    exact_mod_cast this
  have f1 := Rat.floor_le (amp * nearSine ph fs + 1 / 2)
  have f2 := Rat.lt_floor_add_one (amp * nearSine ph fs + 1 / 2)
  have g1 : ((conformingSample amp ph fs : Int) : ℝ) ≤ amp * nearSine ph fs + 1 / 2 := by
    have := (Rat.cast_le (K := ℝ)).2 f1
    push_cast at this
    exact this
  have g2 : (amp : ℝ) * nearSine ph fs + 1 / 2 < (conformingSample amp ph fs : Int) + 1 := by
    have := (Rat.cast_lt (K := ℝ)).2 f2
    push_cast at this
    exact this
  have g3 : |(amp : ℝ) * nearSine ph fs - amp * Real.sin (2 * Real.pi * ph / fs)| ≤ 32766 / 100000 := by
    rw [← mul_sub, abs_mul, abs_of_pos a0]
    calc (amp : ℝ) * |(nearSine ph fs : ℝ) - Real.sin (2 * Real.pi * ph / fs)|
        ≤ 32766 * (1 / 100000) := by gcongr
      _ = 32766 / 100000 := by norm_num
  rw [abs_le] at g3
  rw [abs_lt]
  constructor <;> linarith [g3.1, g3.2]

/-- The integers R126 allows as the sample at phase `ph` and rate `fs`. -/
abbrev SampleChoice (amp : Rat) (ph fs : Nat) : Type :=
  Subtype (SampleLaw amp ph fs)

/-- THE FREE VALUE of R126 (`QUANT`, OPEN, D15; log 4), in the composite form the rule offers: one integer
for each phase and rate, of which nothing is known but `SampleLaw`. It has no body. The bracketed argument
only says that the choice is not empty. -/
opaque sampleChoice (amp : Rat) (ph fs : Nat) [Inhabited (SampleChoice amp ph fs)] :
    SampleChoice amp ph fs

/-- `SAMPLE(ph, fs)` for the amplitude scale `amp` (R125). -/
def sample (amp : Rat) (ph fs : Nat) : Int :=
  (@sampleChoice amp ph fs ⟨⟨conformingSample amp ph fs, conformingSample_law amp ph fs⟩⟩).val

/-- All that is known of a sample value: R126 (Q2). -/
theorem sample_law (amp : Rat) (ph fs : Nat) : SampleLaw amp ph fs (sample amp ph fs) :=
  (@sampleChoice amp ph fs ⟨⟨conformingSample amp ph fs, conformingSample_law amp ph fs⟩⟩).property

end Sys2Proof.Config
end

