-- ==== Sys2Proof/Machine/State.lean ====
section
/-! DEFINITION. The state of the block (10_state.md R20), the streams at its ports and the model's own fields; the reset state (R39); why a step may stop. -/

namespace Sys2Proof.Machine

/-- The five values of `STATE` (R31). -/
inductive RunState where
  /-- After reset; configuration may be written. -/
  | idle
  /-- After `START`; bytes and tones are accepted. -/
  | run
  /-- After `EOI`; only `WRITE` is accepted. -/
  | closed
  /-- After `WRITE`. -/
  | done
  /-- An error was raised; terminal until reset. -/
  | fault
  deriving DecidableEq, Repr

/-- The kinds of error (R190). `ERR` holds one of them or none (R32). -/
inductive ErrKind where
  | configurationError
  /-- The host's; no rule of the block raises it (R193). -/
  | resourceOpenError
  | capacityExceededError
  | illegalCommand
  deriving DecidableEq, Repr

/-- `SINK` (R36, R50): the cells that hold a value, by sample index. Canonical form (`Memory.wf`): indices
strictly rising. An index that is not listed holds no value (log 6, log 7). -/
abbrev Memory := List (Nat × Cell)

/-- What the host still has to present to the block, oldest first (R70, R216, R220). -/
inductive HostEvent where
  /-- A command word on the command port. -/
  | word (w : CmdWord)
  /-- The hardware reset, asserted while no command runs. -/
  | hardwareReset
  /-- A command word, and the hardware reset asserted while it runs, after `emitted` of the values the
  command puts on `OUT` or `RSP` have left the block (R220, R222; log 9). -/
  | wordCutByReset (w : CmdWord) (emitted : Nat)
  deriving DecidableEq, Repr

/-- The state. The first ten fields are the block's (R20); `out` and `rsp` are the histories of its output
streams (R40, R53, R54; log 8); `port` and `par` are the model's own (log 1, log 3). -/
structure State where
  /-- `cfg[0..7]` (R21, R22). -/
  cfg : Vector Reg32 8
  /-- `CFGV`, the written flags (R23). -/
  cfgv : BitVec 8
  /-- `PH`, the phase accumulator (R26). -/
  ph : Nat
  /-- `REM`, the carried duration remainder in microseconds, exact (R27). -/
  rem : Rat
  /-- `STATE` (R31). -/
  state : RunState
  /-- `ERR` (R32). -/
  err : Option ErrKind
  /-- `ERRINFO` (R33). -/
  errInfo : Reg32
  /-- `WARN` (R35). -/
  warn : Reg32
  /-- `LEN` (R34). -/
  len : Reg32
  /-- `SINK` (R36). -/
  sink : Memory
  /-- `OUT`, every byte emitted so far (R53). -/
  out : List Byte
  /-- `RSP`, every value responded so far (R54). -/
  rsp : List Reg32
  /-- What the host still has to present (log 1). -/
  port : List HostEvent
  /-- The implementation's parameters (log 3). -/
  par : Config.Params
  deriving DecidableEq, Repr

/-- The reset state (R39, R220), nothing emitted, nothing presented. `cfg` has no value in the spec:
0 here is a DESIGN CHOICE (log 5), as is `par` (log 3). -/
def State.reset : State where
  cfg := Vector.replicate 8 0
  cfgv := 0
  ph := 0
  rem := 0
  state := .idle
  err := none
  errInfo := 0
  warn := 0
  len := 0
  sink := []
  out := []
  rsp := []
  port := []
  par := Config.Params.default

/-- Why a step stops with a fault. The block's own errors are no such fault: they are the state `FAULT`. -/
inductive Fault where
  /-- `WRITE` reads index `index` below `LEN` and `SINK` holds no value there (R163). Raised by `WRITE`
  only, and in no state that a run reaches (log 6). Safe: the model stops. -/
  | sinkCellHoldsNoValue (index : Nat)
  deriving DecidableEq, Repr

/-- Why a step is refused. -/
inductive Refusal where
  /-- The instruction has no meaning in this model. No instruction is in that case. Safe. -/
  | notModelled (mnemonic : String)
  deriving DecidableEq, Repr

end Sys2Proof.Machine
end

