-- ==== Sys2Proof/Machine/Operands.lean ====
section
/-! DEFINITION. What the commands read: the configuration registers by name (10_state.md R22), the quantities computed from them (R120, R141), the tones of a frame (R142 to R146) and the sample value (R125). -/

namespace Sys2Proof.Machine

/-- `rhu(q) = floor(q + 1/2)`, round half up (R11). -/
def rhu (q : Rat) : Int := (q + 1 / 2).floor

/-! The configuration registers (R22), each an unsigned integer. -/

def State.sampleRate (s : State) : Nat := (s.cfg[0]).toNat
def State.baud (s : State) : Nat := (s.cfg[1]).toNat
def State.markFreq (s : State) : Nat := (s.cfg[2]).toNat
def State.spaceFreq (s : State) : Nat := (s.cfg[3]).toNat
def State.bitWidth (s : State) : Nat := (s.cfg[4]).toNat
def State.parity (s : State) : Nat := (s.cfg[5]).toNat
def State.stopBits (s : State) : Nat := (s.cfg[6]).toNat
def State.format (s : State) : Nat := (s.cfg[7]).toNat

/-- `T`, the sample period in microseconds (R120). -/
def State.period (s : State) : Rat := (Config.usPerSecond : Rat) / (s.sampleRate : Rat)

/-- `BD`, the bit-duration in microseconds, not rounded (R141). -/
def State.bitDuration (s : State) : Rat := (Config.usPerSecond : Rat) / (s.baud : Rat)

/-- `freq_of`, the tone of a bit (R142). -/
def State.freqOf (s : State) (bit : Bool) : Nat := if bit then s.markFreq else s.spaceFreq

/-- `k`, the exclusive-or of all eight bits of the byte, whatever `BIT_WIDTH` is (R145). -/
def parityFold (x : Byte) : Bool :=
  x.getLsbD 0 ^^ x.getLsbD 1 ^^ x.getLsbD 2 ^^ x.getLsbD 3 ^^
    x.getLsbD 4 ^^ x.getLsbD 5 ^^ x.getLsbD 6 ^^ x.getLsbD 7

/-- `parity_bit(x)` for a `PARITY` code (R145): odd sends `k`, even its complement, then always zero and
always one. A code above 4 does not pass `START` (R108; log 10). -/
def parityBit (code : Nat) (x : Byte) : Bool :=
  match code with
  | 1 => parityFold x
  | 2 => !parityFold x
  | 3 => false
  | _ => true

/-- A frame up to its stop bits: start bit, data bits least significant first, parity bit if any (R143 to R145). -/
def State.frameHead (s : State) (x : Byte) : List Nat :=
  [s.spaceFreq] ++ (List.range s.bitWidth).map (fun i => s.freqOf (x.getLsbD i)) ++
    (if s.parity = 0 then [] else [s.freqOf (parityBit s.parity x)])

/-- `frame_tones(x)`: the frequencies of one BitFrame in the order they are sent (R143, R146). -/
def State.frameTones (s : State) (x : Byte) : List Nat :=
  s.frameHead x ++ List.replicate s.stopBits s.markFreq

/-- `SAMPLE(PH, SAMPLE_RATE)` at the present phase, in the signed domain (R125), as a cell. Its value is
free within R126 (log 4). -/
def State.sampleNow (s : State) : Cell := BitVec.ofInt 16 (Config.sample s.par.amp s.ph s.sampleRate)

/-- `zext_32(a)`: the frequency operand of `TONE` in Hz (R81, R128). -/
def toneFreq (freq : BitVec 24) : Nat := freq.toNat

/-- The duration operand of `TONE` in microseconds (R86, R128). -/
def toneDuration (dur : Reg32) : Rat := (dur.toNat : Rat)

end Sys2Proof.Machine
end

