-- ==== Sys2Proof/Machine/Flags.lean ====
section
/-! DEFINITION. The status registers: their codes (10_state.md R31, R32), what `RDSR` reads (40_control.md R106), the configuration mask of `START` (R108), the warning flags (R109), and which command is legal in which state (R102). -/

namespace Sys2Proof.Machine

/-- The value of `STATE` (R31). -/
def RunState.code : RunState → Reg32
  | .idle => 0
  | .run => 1
  | .closed => 2
  | .done => 3
  | .fault => 4

/-- The value of `ERR` for a kind (R190). -/
def ErrKind.code : ErrKind → Reg32
  | .configurationError => 1
  | .resourceOpenError => 2
  | .capacityExceededError => 3
  | .illegalCommand => 4

/-- The value of `ERR` (R32): 0 while no error has been raised. -/
def errCode : Option ErrKind → Reg32
  | none => 0
  | some k => k.code

/-- The value of status register `idx` (R30, R106). A number above 4 names none, and no `RDSR` of one gets
here. -/
def State.statusValue (s : State) (idx : Fin 8) : Reg32 :=
  match idx.val with
  | 0 => s.state.code
  | 1 => errCode s.err
  | 2 => s.errInfo
  | 3 => s.warn
  | _ => s.len

/-- Whether a written register holds an illegal value (R22, R108). -/
def State.cfgIllegal (s : State) (i : Nat) : Bool :=
  match i with
  | 0 => decide (s.sampleRate = 0 ∨ s.par.maxRate.val < s.sampleRate)
  | 1 => decide (s.baud = 0)
  | 4 => decide (8 < s.bitWidth)
  | 5 => decide (4 < s.parity)
  | 7 => decide (1 < s.format)
  | _ => false

/-- `bad[i]` of `CommitConfig` (R108): the register is unwritten, or written with an illegal value. -/
def State.cfgBad (s : State) (i : Nat) : Bool := !s.cfgv.getLsbD i || s.cfgIllegal i

/-- `bad`, the mask of offending registers (R108). -/
def State.configMask (s : State) : BitVec 8 :=
  BitVec.ofBoolListLE
    [s.cfgBad 0, s.cfgBad 1, s.cfgBad 2, s.cfgBad 3, s.cfgBad 4, s.cfgBad 5, s.cfgBad 6, s.cfgBad 7]

/-- `gap`, the distance of the mark and space frequencies (R109). -/
def State.toneGap (s : State) : Nat :=
  if s.spaceFreq ≤ s.markFreq then s.markFreq - s.spaceFreq else s.spaceFreq - s.markFreq

/-- `SetWarnings()` (R109): bit 0 `W_SHIFT`, bit 1 `W_ORDER`; the other bits stay (log 14). -/
def State.setWarnings (s : State) : State :=
  { s with
    warn := (s.warn &&& 0xFFFFFFFC) ||| (if s.toneGap < s.par.minShiftHz then 1 else 0) |||
      (if s.markFreq < s.spaceFreq then 2 else 0) }

/-- The table of R102, but for its column `FAULT`: whether the command runs in the state. -/
def legalIn (i : Instr) (st : RunState) : Bool :=
  match i with
  | .reset => true
  | .rdsr _ => true
  | .cfgw _ _ => decide (st = .idle)
  | .start => decide (st = .idle)
  | .byte _ => decide (st = .run)
  | .tone _ _ => decide (st = .run)
  | .eoi => decide (st = .run)
  | .write => decide (st = .closed)

end Sys2Proof.Machine
end

