-- ==== Sys2Proof/Machine/Ops.lean ====
section
/-! DEFINITION. The shared operations: the sample store (43_sample_sink.md), fault entry and reset (60_exceptions.md R200, 40_control.md R105), the oscillator (41_tone_oscillator.md R121 to R124), the dispatch checks (40_control.md R100), and the hardware reset (70_reset_and_hazards.md R220). -/

namespace Sys2Proof.Machine

/-! ## SINK -/

/-- The value of a cell, if it holds one. -/
def Memory.read : Memory → Nat → Option Cell
  | [], _ => none
  | (b, v) :: m, a => if a = b then some v else Memory.read m a

/-- `SINK[a] <- v`, keeping the canonical form. -/
def Memory.write : Memory → Nat → Cell → Memory
  | [], a, v => [(a, v)]
  | (b, u) :: m, a, v =>
    if a < b then (a, v) :: (b, u) :: m
    else if a = b then (a, v) :: m
    else (b, u) :: Memory.write m a v

/-- The canonical form: indices strictly rising. Every value may be listed, since an unlisted cell holds none. -/
abbrev Memory.wf (m : Memory) : Prop := (m.map Prod.fst).Pairwise (· < ·)

/-! ## Fault entry -/

/-- `raise <Kind>(info)`: fault entry, and nothing saved or changed beside (R200). -/
def State.raise (kind : ErrKind) (info : Reg32) (s : State) : State :=
  { s with err := some kind, errInfo := info, state := .fault }

/-- The only way out of `FAULT` (R201): the state of R39 and R105. The streams, what the host still has to
present and the parameters are no state of the block and stay (R40). `cfg` and `SINK` hold no value after it
(log 15). -/
def State.toReset (s : State) : State :=
  { State.reset with out := s.out, rsp := s.rsp, port := s.port, par := s.par }

/-- Where a command's pseudocode stands: it goes on, or a `raise` has ended the command (R12, R200). -/
inductive Flow where
  | go (s : State)
  | raised (s : State)
  deriving DecidableEq, Repr

/-- The rest of the pseudocode runs only where nothing has been raised. -/
def Flow.bind (f : Flow) (k : State → Flow) : Flow :=
  match f with
  | .go s => k s
  | .raised s => .raised s

/-- The state when the command ends. -/
def Flow.final : Flow → State
  | .go s => s
  | .raised s => s

/-- A command's end as the outcome of the step: an error the block raises is a next state (R200). -/
def Flow.outcome (f : Flow) : Host.Outcome State Fault Refusal := .next f.final

/-! ## The oscillator -/

/-- `SinkAppend(v)` (R161): the capacity check first, then the cell and `LEN` together (R56). -/
def sinkAppend (v : Cell) (s : State) : Flow :=
  if s.par.maxSamples.val ≤ s.len.toNat then .raised (s.raise .capacityExceededError 0)
  else .go { s with sink := s.sink.write s.len.toNat v, len := s.len + 1 }

/-- `emit_sample(f)` (R123, R124, R127): advance the phase, then take the sample; a zero frequency gives
`ZERO_LEVEL` and leaves `PH` alone. -/
def emitSample (f : Nat) (s : State) : Flow :=
  if f = 0 then sinkAppend s.par.zeroLevel s
  else
    let s1 := { s with ph := (s.ph + f) % s.sampleRate }
    sinkAppend s1.sampleNow s1

/-- `repeat n times: emit_sample(f)` (R121). -/
def emitSamples : Nat → Nat → State → Flow
  | 0, _, s => .go s
  | n + 1, f, s => (emitSample f s).bind (emitSamples n f)

/-- `N` of a request of `d` microseconds (R121). -/
def State.sampleCount (s : State) (d : Rat) : Int := rhu ((d + s.rem) / s.period)

/-- `tone(f, d)` (R121): `REM` takes the new remainder before the samples are appended. -/
def tone (f : Nat) (d : Rat) (s : State) : Flow :=
  let n := s.sampleCount d
  emitSamples n.toNat f { s with rem := d + s.rem - n * s.period }

/-- `repeat n times: tone(f, d)` (R147, R149). -/
def repeatTone : Nat → Nat → Rat → State → Flow
  | 0, _, _, s => .go s
  | n + 1, f, d, s => (tone f d s).bind (repeatTone n f d)

/-- `for each freq in fs, in order: tone(freq, d)` (R148). -/
def toneEach : List Nat → Rat → State → Flow
  | [], _, s => .go s
  | f :: fs, d, s => (tone f d s).bind (toneEach fs d)

/-- `SinkRead(i)` (R163). -/
def sinkRead (i : Nat) (s : State) : Except Fault Cell :=
  match s.sink.read i with
  | some v => .ok v
  | none => .error (.sinkCellHoldsNoValue i)

/-- The bytes of `count` samples from index `i` up, each read with `SinkRead` and written as `enc` says (R171, R175). -/
def sampleBytes (enc : Cell → List Byte) (s : State) : Nat → Nat → Except Fault (List Byte)
  | 0, _ => .ok []
  | count + 1, i =>
    match sinkRead i s with
    | .error r => .error r
    | .ok v =>
      match sampleBytes enc s count (i + 1) with
      | .error r => .error r
      | .ok bytes => .ok (enc v ++ bytes)

/-! ## The checks of the step -/

/-- A word that is no command, or a command not legal in the present state: `IllegalCommand` with
`w[63:32]`, but dropped in `FAULT` (R100 steps 4 to 6, R101, R110). -/
def illegalWord (w : CmdWord) (s : State) : Host.Outcome State Fault Refusal :=
  if s.state = .fault then .next s
  else .next (s.raise .illegalCommand (upperHalf w))

/-- A command runs where R102 says so; elsewhere it is an illegal word, its own (R100 steps 4, 6 and 7; log 11). -/
def checked (i : Instr) (s : State) (body : State → Host.Outcome State Fault Refusal) :
    Host.Outcome State Fault Refusal :=
  if s.state ≠ .fault ∧ legalIn i s.state then body s else illegalWord (encode i) s

/-! ## The hardware reset -/

/-- The hardware reset between commands has the effect of `RESET` on the state (R220). -/
def hardwareReset (s : State) : State := s.toReset

/-- The first `n` values of what a stream gained from `before` to `after`, appended to `before`. -/
def emittedPrefix {α : Type} (n : Nat) (before after : List α) : List α :=
  before ++ (after.drop before.length).take n

/-- The hardware reset during a command (R220, R222): the command is abandoned, no fault is recorded, the
state is the reset state, and `OUT` keeps a prefix of what the whole command would have emitted (log 9). -/
def cutByReset (n : Nat) (s : State) (whole : Host.Outcome State Fault Refusal) :
    Host.Outcome State Fault Refusal :=
  match whole with
  | .next t =>
    .next { s.toReset with out := emittedPrefix n s.out t.out, rsp := emittedPrefix n s.rsp t.rsp }
  | .fault r => .fault r
  | .refused r => .refused r

end Sys2Proof.Machine
end

