-- ==== Sys2Proof/Machine/Fast.lean ====
section
/-! DEFINITION. Closed forms of the loops of Ops.lean, each proved equal to its loop; the `csimp` theorems make compiled code use them (70_reset_and_hazards.md R231: "compute a run of equal requests in closed form where it can"). The meaning of every command is the loop of Ops.lean (log 17). -/

namespace Sys2Proof.Machine

/-! ## SINK -/

/-- Writing above every listed index appends. -/
theorem Memory.write_append (m : Memory) (a : Nat) (v : Cell) (h : ∀ p ∈ m, p.1 < a) :
    m.write a v = m ++ [(a, v)] := by
  induction m with
  | nil => rfl
  | cons p m ih =>
    have hp : p.1 < a := h p (by simp)
    have h1 : ¬ a < p.1 := by omega
    have h2 : a ≠ p.1 := by omega
    simp only [Memory.write, h1, h2, if_false, List.cons_append]
    rw [ih (fun q hq => h q (by simp [hq]))]

/-- The `j`-th sample (from 0) of a tone of frequency `f` that begins in state `s`. -/
def State.toneCell (s : State) (f j : Nat) : Cell :=
  if f = 0 then s.par.zeroLevel
  else BitVec.ofInt 16 (Config.sample s.par.amp ((s.ph + (j + 1) * f) % s.sampleRate) s.sampleRate)

/-- The first `k` samples of a tone of frequency `f`, at the indices they take. -/
def State.toneCells (s : State) (f k : Nat) : Memory :=
  (List.range k).map fun j => (s.len.toNat + j, s.toneCell f j)

/-- `PH` after `k` samples of frequency `f`. -/
def State.phaseAfter (s : State) (f k : Nat) : Nat :=
  if f = 0 ∨ k = 0 then s.ph else (s.ph + k * f) % s.sampleRate

/-- The state after `k` samples of frequency `f` have been appended. -/
def State.afterSamples (s : State) (f k : Nat) : State :=
  { s with
    ph := s.phaseAfter f k
    len := s.len + BitVec.ofNat 32 k
    sink := s.sink ++ s.toneCells f k }

/-- How many samples still fit. -/
def State.room (s : State) : Nat := s.par.maxSamples.val - s.len.toNat

/-- `emitSamples` in closed form: as many samples as fit; if that is not all, the phase is advanced once more
and the capacity error raised (R132). -/
def emitSamplesClosed (n f : Nat) (s : State) : Flow :=
  let k := min n s.room
  let u := s.afterSamples f k
  if n ≤ k then .go u
  else .raised ({ u with ph := u.phaseAfter f 1 }.raise .capacityExceededError 0)

/-- Every listed index is below `LEN`. -/
abbrev State.sinkBelow (s : State) : Prop := ∀ p ∈ s.sink, p.1 < s.len.toNat

theorem phaseAfter_succ (s : State) (f k : Nat) :
    ((s.ph + f) % s.sampleRate + k * f) % s.sampleRate = (s.ph + (k + 1) * f) % s.sampleRate := by
  rw [Nat.mod_add_mod]; congr 1; ring

/-- What `emitSample` does. -/
theorem emitSample_eq (f : Nat) (s : State) :
    emitSample f s =
      if s.par.maxSamples.val ≤ s.len.toNat then
        .raised ({ s with ph := s.phaseAfter f 1 }.raise .capacityExceededError 0)
      else
        .go { s with ph := s.phaseAfter f 1, len := s.len + 1,
                     sink := s.sink.write s.len.toNat (s.toneCell f 0) } := by
  by_cases hf : f = 0
  · simp [emitSample, sinkAppend, hf, State.phaseAfter, State.toneCell]
  · simp [emitSample, sinkAppend, hf, State.phaseAfter, State.toneCell, State.sampleNow, State.sampleRate]

theorem len_succ (s : State) (h : s.len.toNat < s.par.maxSamples.val) :
    (s.len + 1).toNat = s.len.toNat + 1 := by
  have := s.par.maxSamples.isLt
  rw [BitVec.toNat_add]
  simp only [BitVec.ofNat_eq_ofNat, BitVec.toNat_ofNat]
  omega

theorem emitSamples_closed (n f : Nat) (s : State) (h : s.sinkBelow) :
    emitSamples n f s = emitSamplesClosed n f s := by
  induction n generalizing s with
  | zero =>
    simp [emitSamples, emitSamplesClosed, State.afterSamples, State.phaseAfter, State.toneCells]
  | succ n ih =>
    rw [emitSamples, emitSample_eq]
    by_cases hc : s.par.maxSamples.val ≤ s.len.toNat
    · have hr : s.room = 0 := by unfold State.room; omega
      simp [hc, Flow.bind, emitSamplesClosed, hr, State.afterSamples, State.phaseAfter, State.toneCells]
    · have hlt : s.len.toNat < s.par.maxSamples.val := by omega
      have hl := len_succ s hlt
      rw [if_neg hc, Flow.bind, Memory.write_append _ _ _ h]
      set s1 : State := { s with ph := s.phaseAfter f 1, len := s.len + 1, sink := s.sink ++ [(s.len.toNat, s.toneCell f 0)] } with hs1
      have hb : s1.sinkBelow := by
        intro p hp
        simp only [hs1, List.mem_append, List.mem_singleton] at hp
        show p.1 < (s.len + 1).toNat
        rcases hp with hp | rfl
        · have := h p hp; omega
        · simp only; omega
      rw [ih s1 hb]
      have hroom : s.room = s1.room + 1 := by
        show s.par.maxSamples.val - s.len.toNat = s.par.maxSamples.val - (s.len + 1).toNat + 1
        omega
      have hcell : ∀ j, s1.toneCell f j = s.toneCell f (j + 1) := by
        intro j
        by_cases hf : f = 0
        · simp [State.toneCell, hf, hs1]
        · simp only [State.toneCell, hf, if_false]
          congr 2
          show ((s.phaseAfter f 1) + (j + 1) * f) % s.sampleRate = _
          simp only [State.phaseAfter, hf, one_mul, false_or, Nat.one_ne_zero, if_false]
          exact phaseAfter_succ s f (j + 1)
      have hphase : ∀ k, s1.phaseAfter f k = s.phaseAfter f (k + 1) := by
        intro k
        by_cases hf : f = 0
        · simp [State.phaseAfter, hf, hs1]
        · by_cases hk : k = 0
          · simp [State.phaseAfter, hf, hk, hs1]
          · simp only [State.phaseAfter, hf, hk, false_or, if_false, Nat.succ_ne_zero]
            show ((s.phaseAfter f 1) + k * f) % s.sampleRate = _
            simp only [State.phaseAfter, hf, one_mul, false_or, Nat.one_ne_zero, if_false]
            exact phaseAfter_succ s f k
      have hcells : ∀ k, (s.len.toNat, s.toneCell f 0) :: s1.toneCells f k = s.toneCells f (k + 1) := by
        intro k
        simp only [State.toneCells, List.range_succ_eq_map, List.map_cons, List.map_map, Nat.add_zero]
        congr 1
        apply List.map_congr_left
        intro j _
        simp only [Function.comp, hcell]
        congr 1
        show (s.len + 1).toNat + j = _
        omega
      have hafter : ∀ k, s1.afterSamples f k = s.afterSamples f (k + 1) := by
        intro k
        have e : s.len + 1 + BitVec.ofNat 32 k = s.len + BitVec.ofNat 32 (k + 1) := by
          rw [BitVec.add_assoc]; congr 1
          apply BitVec.eq_of_toNat_eq
          simp [BitVec.toNat_add, BitVec.toNat_ofNat, Nat.add_comm]
        simp only [State.afterSamples, hs1, List.append_assoc, List.singleton_append]
        rw [← hs1, hcells, e, hphase]
      simp only [emitSamplesClosed, hroom]
      rw [show min (n + 1) (s1.room + 1) = min n s1.room + 1 by omega, hafter]
      simp only [Nat.add_le_add_iff_right]

/-- The loop, in closed form where `SINK` allows it. -/
def emitSamplesFast (n f : Nat) (s : State) : Flow :=
  if s.sinkBelow then emitSamplesClosed n f s else emitSamples n f s

@[csimp] theorem emitSamples_eq_fast : @emitSamples = @emitSamplesFast := by
  funext n f s
  unfold emitSamplesFast
  split
  · exact emitSamples_closed n f s ‹_›
  · rfl

/-- `tone` over the fast loop. -/
def toneFast (f : Nat) (d : Rat) (s : State) : Flow :=
  let n := s.sampleCount d
  emitSamples n.toNat f { s with rem := d + s.rem - n * s.period }

@[csimp] theorem tone_eq_fast : @tone = @toneFast := rfl

/-- `toneEach` over the fast loop. -/
def toneEachFast : List Nat → Rat → State → Flow
  | [], _, s => .go s
  | f :: fs, d, s => (tone f d s).bind (toneEachFast fs d)

@[csimp] theorem toneEach_eq_fast : @toneEach = @toneEachFast := by
  funext fs d s
  induction fs generalizing s with
  | nil => rfl
  | cons f fs ih =>
    rw [toneEach, toneEachFast]
    congr 1
    funext t
    exact ih t

/-- `repeatTone` over the fast loop. -/
def repeatToneEach : Nat → Nat → Rat → State → Flow
  | 0, _, _, s => .go s
  | n + 1, f, d, s => (tone f d s).bind (repeatToneEach n f d)

theorem repeatTone_eq_each (n f : Nat) (d : Rat) (s : State) :
    repeatTone n f d s = repeatToneEach n f d s := by
  induction n generalizing s with
  | zero => rfl
  | succ n ih =>
    rw [repeatTone, repeatToneEach]
    congr 1
    funext t
    exact ih t

/-! ## Equal requests (41_tone_oscillator.md R133) -/

theorem Flow.bind_assoc (f : Flow) (g h : State → Flow) :
    (f.bind g).bind h = f.bind fun s => (g s).bind h := by
  cases f <;> rfl

/-- Sample by sample or in two parts: the same. -/
theorem emitSamples_add (m n f : Nat) (s : State) :
    emitSamples (m + n) f s = (emitSamples m f s).bind (emitSamples n f) := by
  induction m generalizing s with
  | zero => simp [emitSamples, Flow.bind]
  | succ m ih =>
    rw [Nat.succ_add, emitSamples, emitSamples, Flow.bind_assoc]
    congr 1
    funext s
    exact ih s

/-- `REM` set in the state a `Flow` ends in. -/
def Flow.setRem (r : Rat) : Flow → Flow
  | .go s => .go { s with rem := r }
  | .raised s => .raised { s with rem := r }

theorem emitSample_setRem (f : Nat) (r : Rat) (s : State) :
    emitSample f { s with rem := r } = (emitSample f s).setRem r := by
  rw [emitSample_eq, emitSample_eq]
  by_cases hc : s.par.maxSamples.val ≤ s.len.toNat
  · simp only [hc, if_true, Flow.setRem]; rfl
  · simp only [hc, if_false, Flow.setRem]; rfl

/-- Appending samples neither reads nor writes `REM`. -/
theorem emitSamples_setRem (n f : Nat) (r : Rat) (s : State) :
    emitSamples n f { s with rem := r } = (emitSamples n f s).setRem r := by
  induction n generalizing s with
  | zero => rfl
  | succ n ih =>
    rw [emitSamples, emitSamples, emitSample_setRem]
    cases emitSample f s with
    | go t => exact ih t
    | raised t => rfl

/-- What no sample changes. -/
theorem emitSamples_keeps (n f : Nat) (s t : State) (h : emitSamples n f s = .go t) :
    t = { s with ph := t.ph, len := t.len, sink := t.sink } := by
  induction n generalizing s with
  | zero => simp only [emitSamples, Flow.go.injEq] at h; subst h; rfl
  | succ n ih =>
    rw [emitSamples, emitSample_eq] at h
    by_cases hc : s.par.maxSamples.val ≤ s.len.toNat
    · rw [if_pos hc] at h; simp [Flow.bind] at h
    · rw [if_neg hc] at h
      simp only [Flow.bind] at h
      have := ih _ h
      exact this

/-- `rhu` of a number moved by a whole number (R11). -/
theorem rhu_sub_int (q : Rat) (n : Int) : rhu (q - n) = rhu q - n := by
  have h : q - n + 1 / 2 = (q + 1 / 2) - n := by ring
  show ⌊q - n + 1 / 2⌋ = ⌊q + 1 / 2⌋ - n
  rw [h, Int.floor_sub_intCast]

/-- The invariant of R28 on `REM`. -/
abbrev State.remBound (s : State) : Prop := -s.period / 2 ≤ s.rem ∧ s.rem < s.period / 2

/-- R122: no request has a negative sample count. -/
theorem sampleCount_nonneg (s : State) (d : Rat) (hT : 0 < s.period) (hr : -s.period / 2 ≤ s.rem)
    (hd : 0 ≤ d) : 0 ≤ s.sampleCount d := by
  show 0 ≤ ⌊(d + s.rem) / s.period + 1 / 2⌋
  rw [Int.floor_nonneg]
  have : -1 / 2 ≤ (d + s.rem) / s.period := by
    rw [le_div_iff₀ hT]; linarith
  linarith

/-- R122: the new remainder is within half a sample period. -/
theorem rem_bound (s : State) (d : Rat) (hT : 0 < s.period) :
    -s.period / 2 ≤ d + s.rem - s.sampleCount d * s.period ∧
      d + s.rem - s.sampleCount d * s.period < s.period / 2 := by
  have h1 : ((s.sampleCount d : Int) : Rat) ≤ (d + s.rem) / s.period + 1 / 2 := Rat.floor_le _
  have h2 : (d + s.rem) / s.period + 1 / 2 < ((s.sampleCount d : Int) : Rat) + 1 := by
    exact_mod_cast Rat.lt_floor_add_one _
  have e : d + s.rem = (d + s.rem) / s.period * s.period := by field_simp
  constructor <;> nlinarith

/-- Samples appended after a request that did not raise, and in one go. -/
theorem emitSamples_resume (m k f : Nat) (r1 r2 : Rat) (s t : State)
    (h : emitSamples m f { s with rem := r1 } = .go t) :
    emitSamples k f { t with rem := r2 } = emitSamples (m + k) f { s with rem := r2 } := by
  rw [emitSamples_setRem] at h
  cases he : emitSamples m f s with
  | raised u => rw [he] at h; simp [Flow.setRem] at h
  | go u =>
    rw [he] at h
    simp only [Flow.setRem, Flow.go.injEq] at h
    subst h
    rw [emitSamples_setRem _ _ _ s, emitSamples_add, he]
    exact emitSamples_setRem k f r2 u

/-- R133, for one request split in two, the first of which does not raise. -/
theorem tone_split (f : Nat) (d1 d2 : Rat) (s t : State) (hT : s.period ≠ 0)
    (h1 : 0 ≤ s.sampleCount d1) (h2 : s.sampleCount d1 ≤ s.sampleCount (d1 + d2))
    (h : tone f d1 s = .go t) : tone f d2 t = tone f (d1 + d2) s := by
  simp only [tone] at h
  set r1 := d1 + s.rem - s.sampleCount d1 * s.period with hr1
  have ht := emitSamples_keeps _ _ _ _ h
  have hrem : t.rem = r1 := by rw [ht]
  have hper : t.period = s.period := by rw [ht]; rfl
  have hcount : t.sampleCount d2 = s.sampleCount (d1 + d2) - s.sampleCount d1 := by
    show rhu ((d2 + t.rem) / t.period) = rhu ((d1 + d2 + s.rem) / s.period) - s.sampleCount d1
    rw [← rhu_sub_int, hrem, hper, hr1]
    congr 1
    field_simp
    ring
  have hr2 : d2 + t.rem - t.sampleCount d2 * t.period =
      d1 + d2 + s.rem - s.sampleCount (d1 + d2) * s.period := by
    rw [hcount, hrem, hper, hr1]; push_cast; ring
  have hn : (s.sampleCount (d1 + d2)).toNat = (s.sampleCount d1).toNat + (t.sampleCount d2).toNat := by
    rw [hcount]; omega
  simp only [tone, hr2, hn]
  exact emitSamples_resume _ _ _ _ _ _ _ h

/-- A longer request has no fewer samples. -/
theorem sampleCount_mono (s : State) (d1 d2 : Rat) (hT : 0 < s.period) (h : d1 ≤ d2) :
    s.sampleCount d1 ≤ s.sampleCount d2 := by
  show ⌊(d1 + s.rem) / s.period + 1 / 2⌋ ≤ ⌊(d2 + s.rem) / s.period + 1 / 2⌋
  apply Int.floor_mono
  gcongr

/-- A request of duration 0 changes nothing (R128). -/
theorem tone_zero (f : Nat) (s : State) (hT : 0 < s.period) (hr : s.remBound) :
    tone f 0 s = .go s := by
  have h0 : s.sampleCount 0 = 0 := by
    show ⌊(0 + s.rem) / s.period + 1 / 2⌋ = 0
    rw [Int.floor_eq_iff]
    have e : 0 + s.rem = (0 + s.rem) / s.period * s.period := by field_simp
    obtain ⟨ha, hb⟩ := hr
    constructor
    · have : -1 / 2 ≤ (0 + s.rem) / s.period := by rw [le_div_iff₀ hT]; linarith
      push_cast; linarith
    · have : (0 + s.rem) / s.period < 1 / 2 := by rw [div_lt_iff₀ hT]; linarith
      push_cast; linarith
  simp [tone, h0, emitSamples]

/-- R133: equal requests are one request of the total duration, if that one does not raise. -/
theorem repeatTone_eq_tone (n f : Nat) (d : Rat) (s : State) (hT : 0 < s.period) (hr : s.remBound)
    (hd : 0 ≤ d) (t : State) (h : tone f (n * d) s = .go t) :
    repeatTone n f d s = .go t := by
  induction n generalizing s with
  | zero =>
    rw [Nat.cast_zero, zero_mul, tone_zero f s hT hr] at h
    exact h
  | succ n ih =>
    have hnd : (((n + 1 : Nat) : Rat)) * d = d + n * d := by push_cast; ring
    rw [hnd] at h
    have hnn : (0 : Rat) ≤ n * d := by positivity
    have h1 := sampleCount_nonneg s d hT hr.1 hd
    have h2 := sampleCount_mono s d (d + n * d) hT (by linarith)
    rw [repeatTone]
    cases ht : tone f d s with
    | go u =>
      rw [← tone_split f d (n * d) s u hT.ne' h1 h2 ht] at h
      simp only [tone] at ht
      have hu := emitSamples_keeps _ _ _ _ ht
      have hper : u.period = s.period := by rw [hu]; rfl
      have hrem : u.rem = d + s.rem - s.sampleCount d * s.period := by rw [hu]
      refine ih u (by rw [hper]; exact hT) ?_ h
      unfold State.remBound
      rw [hper, hrem]
      exact rem_bound s d hT
    | raised u =>
      exfalso
      have hn : (s.sampleCount (d + n * d)).toNat =
          (s.sampleCount d).toNat + ((s.sampleCount (d + n * d)).toNat - (s.sampleCount d).toNat) := by omega
      simp only [tone] at h ht
      rw [hn, emitSamples_add, emitSamples_setRem] at h
      rw [emitSamples_setRem] at ht
      cases he : emitSamples (s.sampleCount d).toNat f s with
      | go v => rw [he] at ht; simp [Flow.setRem] at ht
      | raised v => rw [he] at h; simp [Flow.setRem, Flow.bind] at h

/-- Equal requests as one request where R133 says so, one by one otherwise. -/
def repeatToneFast (n f : Nat) (d : Rat) (s : State) : Flow :=
  if 0 < s.period ∧ s.remBound ∧ 0 ≤ d then
    match tone f (n * d) s with
    | .go t => .go t
    | .raised _ => repeatToneEach n f d s
  else repeatToneEach n f d s

@[csimp] theorem repeatTone_eq_fast : @repeatTone = @repeatToneFast := by
  funext n f d s
  unfold repeatToneFast
  split
  · rename_i h
    split
    · exact repeatTone_eq_tone n f d s h.1 h.2.1 h.2.2 _ ‹_›
    · exact repeatTone_eq_each n f d s
  · exact repeatTone_eq_each n f d s

theorem toneEach_append (fs gs : List Nat) (d : Rat) (s : State) :
    toneEach (fs ++ gs) d s = (toneEach fs d s).bind (toneEach gs d) := by
  induction fs generalizing s with
  | nil => rfl
  | cons f fs ih =>
    rw [List.cons_append, toneEach, toneEach, Flow.bind_assoc]
    congr 1
    funext s
    exact ih s

theorem toneEach_replicate (n f : Nat) (d : Rat) (s : State) :
    toneEach (List.replicate n f) d s = repeatTone n f d s := by
  induction n generalizing s with
  | zero => rfl
  | succ n ih =>
    rw [List.replicate_succ, toneEach, repeatTone]
    congr 1
    funext s
    exact ih s

/-! ## Reading the sink -/

/-- `SINK` holds a value at each of the indices below `n` and at no other. -/
abbrev Memory.dense (m : Memory) (n : Nat) : Prop := m.map Prod.fst = List.range n

theorem Memory.read_of_range' (m : Memory) (a n i : Nat) (h : m.map Prod.fst = List.range' a n) (hi : i < n) :
    m.read (a + i) = (m[i]?).map Prod.snd := by
  induction m generalizing a n i with
  | nil =>
    have : (List.range' a n).length = 0 := by rw [← h]; rfl
    simp at this; omega
  | cons p m ih =>
    cases n with
    | zero => omega
    | succ n =>
      rw [List.map_cons, List.range'_succ, List.cons.injEq] at h
      cases i with
      | zero => simp [Memory.read, h.1]
      | succ i =>
        have hne : a + (i + 1) ≠ p.1 := by omega
        simp only [Memory.read, hne, if_false, List.getElem?_cons_succ]
        rw [show a + (i + 1) = a + 1 + i by omega]
        exact ih (a + 1) n i h.2 (by omega)

/-- A dense sink read at `i`. -/
theorem Memory.read_dense (m : Memory) (n i : Nat) (h : m.dense n) (hi : i < n) :
    m.read i = (m[i]?).map Prod.snd := by
  have := Memory.read_of_range' m 0 n i (by rw [h, List.range_eq_range']) hi
  simpa using this

theorem sampleBytes_dense (enc : Cell → List Byte) (s : State) (n count i : Nat)
    (h : s.sink.dense n) (hi : i + count = n) :
    sampleBytes enc s count i = .ok ((s.sink.drop i).flatMap fun p => enc p.2) := by
  have hlen : s.sink.length = n := by
    have := congrArg List.length h
    simpa using this
  induction count generalizing i with
  | zero =>
    have : s.sink.drop i = [] := by rw [List.drop_eq_nil_iff]; omega
    simp [sampleBytes, this]
  | succ count ih =>
    have hil : i < s.sink.length := by omega
    have hread : sinkRead i s = .ok (s.sink[i]).2 := by
      simp only [sinkRead, Memory.read_dense s.sink n i h (by omega), List.getElem?_eq_getElem hil, Option.map_some]
    rw [sampleBytes, hread]
    simp only [ih (i + 1) (by omega)]
    rw [List.drop_eq_getElem_cons hil, List.flatMap_cons]

/-- The payload of a dense sink in one pass. -/
def sampleBytesFast (enc : Cell → List Byte) (s : State) (count i : Nat) : Except Fault (List Byte) :=
  if i = 0 ∧ s.sink.dense count then .ok (s.sink.flatMap fun p => enc p.2)
  else sampleBytes enc s count i

@[csimp] theorem sampleBytes_eq_fast : @sampleBytes = @sampleBytesFast := by
  funext enc s count i
  unfold sampleBytesFast
  split
  · rename_i h
    obtain ⟨rfl, hd⟩ := h
    simpa using sampleBytes_dense enc s count count 0 hd (by omega)
  · rfl

end Sys2Proof.Machine
end

