-- ==== Sys2Proof/Machine/Container.lean ====
section
/-! DEFINITION. The ContainerWriter (44_container_writer.md): byte lists (00_scope.md R13), the two headers (R171, R175), the sample bytes (R178), the 80-bit sample rate (R179), and the command WRITE (R170). -/

namespace Sys2Proof.Machine

/-! ## Byte lists (R13) -/

def u16le (v : Nat) : List Byte := [BitVec.ofNat 8 (v % 256), BitVec.ofNat 8 (v / 256)]

def u32le (v : Nat) : List Byte :=
  [BitVec.ofNat 8 (v % 256), BitVec.ofNat 8 (v / 256 % 256), BitVec.ofNat 8 (v / 65536 % 256),
   BitVec.ofNat 8 (v / 16777216)]

def u16be (v : Nat) : List Byte := (u16le v).reverse

def u32be (v : Nat) : List Byte := (u32le v).reverse

/-- The eight bytes of a 64-bit number, most significant first (R179). -/
def u64be (v : Nat) : List Byte := u32be (v / 4294967296) ++ u32be (v % 4294967296)

/-! The four-character tags, as the bytes R173 and R177 list. -/

def tagRiff : List Byte := [0x52, 0x49, 0x46, 0x46]
def tagWave : List Byte := [0x57, 0x41, 0x56, 0x45]
def tagFmt : List Byte := [0x66, 0x6D, 0x74, 0x20]
def tagData : List Byte := [0x64, 0x61, 0x74, 0x61]
def tagForm : List Byte := [0x46, 0x4F, 0x52, 0x4D]
def tagAiff : List Byte := [0x41, 0x49, 0x46, 0x46]
def tagComm : List Byte := [0x43, 0x4F, 0x4D, 0x4D]
def tagSsnd : List Byte := [0x53, 0x53, 0x4E, 0x44]

/-! ## WAV -/

/-- The size fields of WAV for `n` samples at rate `fs` (R172). -/
def wavAudioBytes (n : Nat) : Nat := n * (Config.channels * Config.sampleBits / 8)
def wavTotalSize (n : Nat) : Nat := 4 + (8 + 16) + (8 + wavAudioBytes n)
def wavByteRate (fs : Nat) : Nat := fs * Config.channels * Config.sampleBits / 8
def wavBlockAlign : Nat := Config.channels * Config.sampleBits / 8

/-- The 44 bytes before the samples (R171, R173). -/
def wavHeader (fs n : Nat) : List Byte :=
  tagRiff ++ u32le (wavTotalSize n) ++ tagWave ++
  tagFmt ++ u32le 16 ++ u16le 1 ++ u16le Config.channels ++ u32le fs ++ u32le (wavByteRate fs) ++
    u16le wavBlockAlign ++ u16le Config.sampleBits ++
  tagData ++ u32le (wavAudioBytes n)

/-- A sample in WAV: `u16le(s mod 65536)` (R178). -/
def wavSample (v : Cell) : List Byte := u16le (v.toInt % 65536).toNat

/-! ## AIFF -/

/-- The size fields of AIFF for `n` samples (R176). -/
def aiffDataSize (n : Nat) : Nat := 8 + n * (Config.channels * Config.sampleBits / 8)
def aiffTotalSize (n : Nat) : Nat := 4 + (8 + 18) + (8 + aiffDataSize n)

/-- `ext80(r)`, the sample rate as an 80-bit extended float (R179). -/
def ext80 (r : Nat) : List Byte :=
  u16be (16383 + Nat.log2 r) ++ u64be (r * 2 ^ (63 - Nat.log2 r))

/-- The 54 bytes before the samples (R175, R177). -/
def aiffHeader (fs n : Nat) : List Byte :=
  tagForm ++ u32be (aiffTotalSize n) ++ tagAiff ++
  tagComm ++ u32be 18 ++ u16be Config.channels ++ u32be n ++ u16be Config.sampleBits ++ ext80 fs ++
  tagSsnd ++ u32be (aiffDataSize n) ++ u32be 0 ++ u32be 0

/-- A sample in AIFF: `u16be(s + 32768)` (R178). -/
def aiffSample (v : Cell) : List Byte := u16be (v.toInt + 32768).toNat

/-! ## WRITE -/

/-- `OutBytes` of a header and of the samples `0 .. LEN-1`, then `DONE` (R53, R170). A missing cell stops
the step with a fault before anything is emitted (log 6). -/
def emitFile (header : List Byte) (enc : Cell → List Byte) (s : State) : Host.Outcome State Fault Refusal :=
  match sampleBytes enc s s.len.toNat 0 with
  | .error r => .fault r
  | .ok bytes => .next { s with out := s.out ++ header ++ bytes, state := .done }

/-- The pseudocode of `WRITE` (R170): `FORMAT` 0 is WAV, else AIFF. -/
def writeFile (s : State) : Host.Outcome State Fault Refusal :=
  if s.format = 0 then emitFile (wavHeader s.sampleRate s.len.toNat) wavSample s
  else emitFile (aiffHeader s.sampleRate s.len.toNat) aiffSample s

/-- `WRITE` (R170): legal in `CLOSED`. -/
def execWrite (s : State) : Host.Outcome State Fault Refusal := checked .write s writeFile

end Sys2Proof.Machine
end

