-- ==== Sys2Proof/Machine/Control.lean ====
section
/-! DEFINITION. The commands of 40_control.md: RESET (R105), CFGW (R104), RDSR (R106). -/

namespace Sys2Proof.Machine

/-- `RESET` (R105): legal in every state. -/
def execReset (s : State) : Host.Outcome State Fault Refusal := .next s.toReset

/-- `cfg[idx] <- value; CFGV[idx] <- 1` (R104). -/
def State.writeCfg (idx : Fin 8) (value : Reg32) (s : State) : State :=
  { s with cfg := s.cfg.set idx value, cfgv := s.cfgv ||| BitVec.twoPow 8 idx.val }

/-- `CFGW idx, value` (R104): legal in `IDLE`. -/
def execCfgw (idx : Fin 8) (value : Reg32) (s : State) : Host.Outcome State Fault Refusal :=
  checked (.cfgw idx value) s (fun s => .next (s.writeCfg idx value))

/-- `Respond(v)` (R54). -/
def State.respond (v : Reg32) (s : State) : State := { s with rsp := s.rsp ++ [v] }

/-- `RDSR idx` (R106): legal in every state, `FAULT` included. A number above 4 is an illegal command (R82; log 12). -/
def execRdsr (idx : Fin 8) (s : State) : Host.Outcome State Fault Refusal :=
  if (Instr.rdsr idx).wellFormed then .next (s.respond (s.statusValue idx))
  else illegalWord (encode (.rdsr idx)) s

end Sys2Proof.Machine
end

