-- ==== Sys2Proof/Machine/Framing.lean ====
section
/-! DEFINITION. The commands of 42_frame_encoder.md: START (R147), BYTE (R148), EOI (R149). -/

namespace Sys2Proof.Machine

/-- `CommitConfig()` (R108): one error collects every offending register. -/
def commitConfig (s : State) : Flow :=
  if s.configMask = 0 then .go s
  else .raised (s.raise .configurationError (s.configMask.setWidth 32))

/-- `STATE <- st`. -/
def enter (st : RunState) (s : State) : Flow := .go { s with state := st }

/-- The pseudocode of `START` (R147): the check, the warnings, the preamble, `RUN`. -/
def startRun (s : State) : Flow :=
  (commitConfig s).bind fun s =>
    (repeatTone Config.preBits s.markFreq s.bitDuration s.setWarnings).bind (enter .run)

/-- `START` (R147): legal in `IDLE`. -/
def execStart (s : State) : Host.Outcome State Fault Refusal :=
  checked .start s (fun s => (startRun s).outcome)

/-- The frame of a byte, one tone of one bit-duration for each of its bits (R148). -/
def sendFrame (data : Byte) (s : State) : Flow := toneEach (s.frameTones data) s.bitDuration s

/-- The frame with its equal stop bits as one run of requests (log 17). -/
def sendFrameFast (data : Byte) (s : State) : Flow :=
  (toneEach (s.frameHead data) s.bitDuration s).bind (repeatTone s.stopBits s.markFreq s.bitDuration)

@[csimp] theorem sendFrame_eq_fast : @sendFrame = @sendFrameFast := by
  funext data s
  rw [sendFrame, sendFrameFast, State.frameTones, toneEach_append]
  congr 1
  funext t
  exact toneEach_replicate s.stopBits s.markFreq s.bitDuration t

/-- `BYTE data` (R148): legal in `RUN`. -/
def execByte (data : Byte) (s : State) : Host.Outcome State Fault Refusal :=
  checked (.byte data) s (fun s => (sendFrame data s).outcome)

/-- The pseudocode of `EOI` (R149): the postamble, `CLOSED`. -/
def endOfInput (s : State) : Flow :=
  (repeatTone Config.postBits s.markFreq s.bitDuration s).bind (enter .closed)

/-- `EOI` (R149): legal in `RUN`. -/
def execEoi (s : State) : Host.Outcome State Fault Refusal :=
  checked .eoi s (fun s => (endOfInput s).outcome)

end Sys2Proof.Machine
end

