-- ==== Sys2Proof/Machine/Oscillator.lean ====
section
/-! DEFINITION. The command of 41_tone_oscillator.md: TONE (R128). -/

namespace Sys2Proof.Machine

/-- `TONE freq, dur` (R128): legal in `RUN`. -/
def execTone (freq : BitVec 24) (dur : Reg32) (s : State) : Host.Outcome State Fault Refusal :=
  checked (.tone freq dur) s (fun s => (tone (toneFreq freq) (toneDuration dur) s).outcome)

end Sys2Proof.Machine
end

