-- ==== Sys2Proof/Machine/Dispatch.lean ====
section
/-! DEFINITION. The dispatch of a decoded command (40_control.md R100). -/

namespace Sys2Proof.Machine

def exec (i : Instr) (s : State) : Host.Outcome State Fault Refusal :=
  match i with
  | .reset => Sys2Proof.Machine.execReset s
  | .cfgw idx value => Sys2Proof.Machine.execCfgw idx value s
  | .start => Sys2Proof.Machine.execStart s
  | .byte data => Sys2Proof.Machine.execByte data s
  | .tone freq dur => Sys2Proof.Machine.execTone freq dur s
  | .eoi => Sys2Proof.Machine.execEoi s
  | .write => Sys2Proof.Machine.execWrite s
  | .rdsr idx => Sys2Proof.Machine.execRdsr idx s

end Sys2Proof.Machine
end

