-- ==== Sys2Proof/Machine/Step.lean ====
section
/-! DEFINITION. One step: the block takes the next word the host presents and runs it (40_control.md R100), or is reset (70_reset_and_hazards.md R220). -/

namespace Sys2Proof.Machine

/-- The step of the block on one word (R100). -/
def runWord (w : CmdWord) (s : State) : Host.Outcome State Fault Refusal :=
  match decode w with
  | .ok i => exec i s
  | .error _ => illegalWord w s

/-- One step. With nothing presented the block waits and keeps all its state (R213; log 1). -/
def step (s : State) : Host.Outcome State Fault Refusal :=
  match s.port with
  | [] => .next s
  | .word w :: rest => runWord w { s with port := rest }
  | .hardwareReset :: rest => .next (hardwareReset { s with port := rest })
  | .wordCutByReset w n :: rest => cutByReset n { s with port := rest } (runWord w { s with port := rest })

/-- The word of the table's bits presented next on the command port (log 2). -/
def State.withFetchWord (s : State) (nbits w : Nat) : State :=
  { s with port := .word (tableWord nbits w) :: s.port }

end Sys2Proof.Machine
end

