-- ==== Sys2Proof/Machine/Assembler.lean ====
section
/-! DEFINITION. The written form of command programs (30_encoding.md R85), the pseudo-commands CONFIG, RUN and PAUSE (R87), and the canonical run (70_reset_and_hazards.md R228). No step reads any of this. -/

namespace Sys2Proof.Machine

/-! ## Pseudo-commands (R87) -/

/-- `CONFIG`: eight `CFGW` in index order. -/
def expandConfig (fs baud mark space width parity stop format : Reg32) : List Instr :=
  [.cfgw 0 fs, .cfgw 1 baud, .cfgw 2 mark, .cfgw 3 space, .cfgw 4 width, .cfgw 5 parity, .cfgw 6 stop,
   .cfgw 7 format]

/-- `RUN`: `START`, one `BYTE` each, `EOI`, `WRITE`. -/
def expandRun (input : List Byte) : List Instr :=
  [.start] ++ input.map .byte ++ [.eoi, .write]

/-- `PAUSE dur`: `TONE 0, dur`. -/
def expandPause (dur : Reg32) : List Instr := [.tone 0 dur]

/-- The words of commands as the host presents them. -/
def present (is : List Instr) : List HostEvent := is.map fun i => .word (encode i)

/-- The canonical run for eight configuration values and an input (R228). -/
def canonicalRun (fs baud mark space width parity stop format : Reg32) (input : List Byte) : List HostEvent :=
  present ([.reset] ++ expandConfig fs baud mark space width parity stop format ++ expandRun input)

/-! ## The assembler (R85) -/

/-- The value of a digit in a base up to 16; a hexadecimal letter in either case (DESIGN CHOICE, log 23). -/
def digitValue (base : Nat) (c : Char) : Option Nat :=
  let n := c.toNat
  let v := if 48 ≤ n ∧ n ≤ 57 then n - 48 else if 65 ≤ n ∧ n ≤ 70 then n - 55
    else if 97 ≤ n ∧ n ≤ 102 then n - 87 else base
  if v < base then some v else none

def digits (base : Nat) (cs : List Char) : Option Nat :=
  if cs.isEmpty then none
  else cs.foldlM (fun acc c => (digitValue base c).map (acc * base + ·)) 0

/-- A number: decimal, or hexadecimal with `0x`. -/
def number (cs : List Char) : Option Nat :=
  match cs with
  | '0' :: 'x' :: hex => digits 16 hex
  | _ => digits 10 cs

/-- The place of a name in a list of names. -/
def nameIndex (names : List String) (cs : List Char) : Option Nat :=
  names.findIdx? (fun n => n.toList == cs)

/-- A number, or a name standing for its place in the list. -/
def nameOrNumber (names : List String) (cs : List Char) : Option Nat :=
  (nameIndex names cs).or (number cs)

/-- R22's names. -/
def configNames : List String :=
  ["SAMPLE_RATE", "BAUD", "MARK_FREQ", "SPACE_FREQ", "BIT_WIDTH", "PARITY", "STOP_BITS", "FORMAT"]

/-- R30's names. -/
def statusNames : List String := ["STATE", "ERR", "ERRINFO", "WARN", "LEN"]

/-- The names a value of configuration register `i` may have. -/
def valueNames (i : Nat) : List String :=
  match i with
  | 5 => ["NONE", "ODD", "EVEN", "ZERO", "ONE"]
  | 7 => ["WAV", "AIFF"]
  | _ => []

/-- A number that fits a field of `width` bits; a greater one is refused (DESIGN CHOICE, log 23). -/
def fits (width : Nat) (v : Option Nat) : Option (BitVec width) :=
  v.bind fun v => if v < 2 ^ width then some (BitVec.ofNat width v) else none

/-- The characters without the white space around them. R85 says nothing of white space; the model takes the
space character for it and no other, so a line with a tab is refused (DESIGN CHOICE, log 23). -/
def trim (cs : List Char) : List Char :=
  ((cs.dropWhile (· == ' ')).reverse.dropWhile (· == ' ')).reverse

/-- The operands: separated by commas, none where nothing is written. -/
def operandList (cs : List Char) : List (List Char) :=
  if (trim cs).isEmpty then [] else (cs.splitOn ',').map trim

/-- A value of configuration register `i`. -/
def configValue (i : Nat) (cs : List Char) : Option Reg32 := fits 32 (nameOrNumber (valueNames i) cs)

/-- A mnemonic with its operands. -/
def command (mnemonic : List Char) (ops : List (List Char)) : Option (List Instr) :=
  if mnemonic == "RESET".toList ∧ ops = [] then some [.reset]
  else if mnemonic == "START".toList ∧ ops = [] then some [.start]
  else if mnemonic == "EOI".toList ∧ ops = [] then some [.eoi]
  else if mnemonic == "WRITE".toList ∧ ops = [] then some [.write]
  else if mnemonic == "RUN".toList then
    (ops.mapM fun o => fits 8 (number o)).map expandRun
  else if mnemonic == "CONFIG".toList then
    if ops.length = 8 then
      ((List.finRange 8).zip ops).mapM fun (i, o) => (configValue i.val o).map (Instr.cfgw i)
    else none
  else
    match ops with
    | [o] =>
      if mnemonic == "BYTE".toList then (fits 8 (number o)).map fun x => [.byte x]
      else if mnemonic == "PAUSE".toList then (fits 32 (number o)).map expandPause
      else if mnemonic == "RDSR".toList then
        (nameOrNumber statusNames o).bind fun i => if h : i ≤ 4 then some [.rdsr ⟨i, by omega⟩] else none
      else none
    | [o, v] =>
      if mnemonic == "TONE".toList then
        (fits 24 (number o)).bind fun f => (fits 32 (number v)).map fun d => [.tone f d]
      else if mnemonic == "CFGW".toList then
        (nameOrNumber configNames o).bind fun i =>
          if h : i < 8 then (configValue i v).map fun x => [.cfgw ⟨i, h⟩ x] else none
      else none
    | _ => none

/-- One line of a program: what stands before a `;`, a mnemonic and its operands. Spaces end the mnemonic and may
stand around it and around each operand, and a line with nothing before its `;` is no command (DESIGN CHOICE,
log 23: R85 is silent on both). -/
def assembleLine (line : String) : Option (List Instr) :=
  let code := trim (line.toList.takeWhile (· != ';'))
  if code.isEmpty then some []
  else command (code.takeWhile (· != ' ')) (operandList (code.dropWhile (· != ' ')))

/-- A program, one command a line. -/
def assembleProgram (lines : List String) : Option (List Instr) :=
  (lines.mapM assembleLine).map List.flatten

end Sys2Proof.Machine
end

