-- ==== Sys2Proof/Safety.lean ====
section
/-! DEFINITION. What the statements speak of: a legal configuration (10_state.md R22), the invariant of the state, a run's end (70_reset_and_hazards.md R227). -/

namespace Sys2Proof.Machine

/-- Every register written and each at a value legal at `START` (R22, R23, R108). -/
abbrev State.configLegal (s : State) : Prop :=
  s.cfgv = 0xFF ∧ (1 ≤ s.sampleRate ∧ s.sampleRate ≤ s.par.maxRate.val) ∧ 1 ≤ s.baud ∧
    s.bitWidth ≤ 8 ∧ s.parity ≤ 4 ∧ s.format ≤ 1

/-- A run has been started and has not ended in a fault. -/
abbrev State.live (s : State) : Prop := s.state = .run ∨ s.state = .closed ∨ s.state = .done

/-- R34, R36: `SINK` holds a value at exactly the indices below `LEN`, and `LEN` is within the capacity. -/
abbrev State.sinkInv (s : State) : Prop :=
  s.sink.dense s.len.toNat ∧ s.len.toNat ≤ s.par.maxSamples.val

/-- R32, R33, R35: the error and warning registers. -/
abbrev State.statusInv (s : State) : Prop :=
  s.warn &&& 0xFFFFFFFC = 0 ∧ (s.err ≠ none ↔ s.state = .fault) ∧
    s.err ≠ some .resourceOpenError ∧ (s.err = none → s.errInfo = 0) ∧
    (s.err = some .configurationError → s.errInfo ≠ 0 ∧ s.errInfo &&& 0xFFFFFF00 = 0) ∧
    (s.err = some .capacityExceededError → s.errInfo = 0 ∧ s.len.toNat = s.par.maxSamples.val)

/-- R35, R39, R191: before a configuration has passed `START`, nothing has been appended or warned of. -/
abbrev State.freshInv (s : State) : Prop :=
  s.state = .idle ∨ s.err = some .configurationError →
    s.len = 0 ∧ s.ph = 0 ∧ s.rem = 0 ∧ s.warn = 0

/-- R22, R26, R28: once a configuration has passed, it is legal, and the oscillator is within its bounds. -/
abbrev State.runInv (s : State) : Prop :=
  s.live ∨ s.err = some .capacityExceededError → s.configLegal ∧ s.ph < s.sampleRate ∧ s.remBound

/-- The invariant of the machine. -/
abbrev State.Inv (s : State) : Prop :=
  s.par.ok ∧ s.sinkInv ∧ s.statusInv ∧ s.freshInv ∧ s.runInv

/-- `k` steps, stopping at the first that does not answer a next state. -/
def runSteps : Nat → State → Host.Outcome State Fault Refusal
  | 0, s => .next s
  | k + 1, s =>
    match step s with
    | .next t => runSteps k t
    | .fault r => .fault r
    | .refused r => .refused r

/-- A run has ended well (R227). -/
abbrev State.EndedWell (s : State) : Prop := s.state = .done ∧ s.err = none

/-- A run has ended badly (R227). -/
abbrev State.EndedBadly (s : State) : Prop := s.state = .fault

/-- The registers that a tone and `SinkAppend` may change are the only ones that differ (R121, R161). -/
abbrev State.sameButSound (s t : State) : Prop :=
  t = { s with ph := t.ph, rem := t.rem, len := t.len, sink := t.sink }

/-- Register `i` offends at `START`: unwritten, or outside its legal set (R22, R108). -/
abbrev State.offends (s : State) (i : Nat) : Prop :=
  i < 8 ∧ (s.cfgv.getLsbD i = false ∨ (i = 0 ∧ (s.sampleRate = 0 ∨ s.par.maxRate.val < s.sampleRate)) ∨
    (i = 1 ∧ s.baud = 0) ∨ (i = 4 ∧ 8 < s.bitWidth) ∨ (i = 5 ∧ 4 < s.parity) ∨ (i = 7 ∧ 1 < s.format))

/-- Byte `k` of a number, byte 0 the least significant. -/
def byteOf (v k : Nat) : Byte := BitVec.ofNat 8 (v / 256 ^ k)

/-- The number that bytes hold, least significant first. -/
def littleEndian : List Byte → Nat
  | [] => 0
  | b :: bs => b.toNat + 256 * littleEndian bs

/-- The number that bytes hold, most significant first. -/
def bigEndian (bs : List Byte) : Nat := littleEndian bs.reverse

/-- The `n` bytes of a file from an offset. -/
def bytesAt (file : List Byte) (offset n : Nat) : List Byte := (file.drop offset).take n

/-- The table of R102, written out: the state in which each command runs, if it is one only. -/
def onlyState : Instr → Option RunState
  | .reset => none
  | .rdsr _ => none
  | .cfgw _ _ => some .idle
  | .start => some .idle
  | .byte _ => some .run
  | .tone _ _ => some .run
  | .eoi => some .run
  | .write => some .closed

/-- The number of `STATE` (R31). -/
def stateNumber : RunState → Nat
  | .idle => 0
  | .run => 1
  | .closed => 2
  | .done => 3
  | .fault => 4

/-- The number of `ERR` (R32, R190). -/
def errNumber : Option ErrKind → Nat
  | none => 0
  | some .configurationError => 1
  | some .resourceOpenError => 2
  | some .capacityExceededError => 3
  | some .illegalCommand => 4

/-- The commands that make tones (R129). -/
def makesTones : Instr → Bool
  | .reset => false
  | .cfgw _ _ => false
  | .start => true
  | .byte _ => true
  | .tone _ _ => true
  | .eoi => true
  | .write => false
  | .rdsr _ => false

end Sys2Proof.Machine
end

