-- ==== Sys2Proof/Certificates/Slice0/Obligations.lean ====
section
/-! DEFINITION. The statements about the machine, for the provers. -/

open Sys2Proof Sys2Proof.Machine

/-! ## Command words (30_encoding.md) -/

/-- Every command's word decodes to the command, at every value of every operand (R70 to R81, R89). -/
def Obligations.DecodeOfEncode : Prop :=
  ∀ i : Instr, i.wellFormed = true → decode (encode i) = .ok i

/-- A word that decodes is the word of its command, so no bit of it is ignored (R82, R89, R100: the word of
a command can be told from the command). -/
def Obligations.EncodeOfDecode : Prop :=
  ∀ (w : CmdWord) (i : Instr), decode w = .ok i → encode i = w ∧ i.wellFormed = true

/-- Words written out in the spec (R74 to R80; 95_test_vectors.md, decoding): nine legal ones, `CFGW` twice and
each other command once, and three illegal ones. That a rejected word has a name (`reservedStatusNumber`,
`reservedOpcode`, `mustBeZero`), and which, is the model's choice (log 16, DESIGN CHOICE): the spec says
`Illegal` only. -/
def Obligations.DecodedWords : Prop :=
  decode 0x0100000000000000 = .ok .reset ∧
  decode 0x0200000000005622 = .ok (.cfgw 0 22050) ∧
  decode 0x020000010000012C = .ok (.cfgw 1 300) ∧
  decode 0x0300000000000000 = .ok .start ∧
  decode 0x0400000000000041 = .ok (.byte 0x41) ∧
  decode 0x050005DC00002710 = .ok (.tone 1500 10000) ∧
  decode 0x0600000000000000 = .ok .eoi ∧
  decode 0x0700000000000000 = .ok .write ∧
  decode 0x0800000400000000 = .ok (.rdsr 4) ∧
  decode 0x0800000500000000 = .error (.reservedStatusNumber 5) ∧
  decode 0x0000000000000000 = .error (.reservedOpcode 0) ∧
  decode 0x0400000000000100 = .error .mustBeZero

/-- R82: which words are `Illegal`, and what the block does with one. -/
def Obligations.IllegalWords : Prop :=
  (∀ w : CmdWord,
    let op := w.toNat / 2 ^ 56
    let a := w.toNat / 2 ^ 32 % 2 ^ 24
    let b := w.toNat % 2 ^ 32
    (∃ e, decode w = .error e) ↔
      ¬(1 ≤ op ∧ op ≤ 8) ∨
      ((op = 1 ∨ op = 3 ∨ op = 6 ∨ op = 7) ∧ (a ≠ 0 ∨ b ≠ 0)) ∨ (op = 4 ∧ a ≠ 0) ∨ (op = 8 ∧ b ≠ 0) ∨
      ((op = 2 ∨ op = 8) ∧ 8 ≤ a) ∨ (op = 4 ∧ 256 ≤ b) ∨ (op = 8 ∧ 4 < a % 8)) ∧
  (∀ (s : State) (w : CmdWord) (rest : List HostEvent) (e : DecodeError),
    s.port = .word w :: rest → decode w = .error e →
      (s.state = .fault → step s = .next { s with port := rest }) ∧
      (s.state ≠ .fault → ∃ t, step s = .next t ∧ t.state = .fault ∧ t.err = some .illegalCommand))

/-! ## The step (40_control.md) -/

/-- R100: the step on a word that decodes is the meaning of its command, the word being taken. -/
def Obligations.StepRunsDecodedCommand : Prop :=
  ∀ (s : State) (w : CmdWord) (rest : List HostEvent) (i : Instr),
    s.port = .word w :: rest → decode w = .ok i → step s = exec i { s with port := rest }

/-- With no word presented the block waits and keeps all its state (R213; that waiting is a step is the
model's choice, log 1). -/
def Obligations.StepWaits : Prop := ∀ s : State, s.port = [] → step s = .next s

/-- From a state that meets the invariant, every step answers a next state (R100, R181, R231). -/
def Obligations.EveryStepAnswers : Prop := ∀ s : State, s.Inv → ∃ t, step s = .next t

/-- R101: an illegal word outside `FAULT`. -/
def Obligations.IllegalWordRaises : Prop :=
  ∀ (s : State) (w : CmdWord) (rest : List HostEvent) (e : DecodeError),
    s.port = .word w :: rest → decode w = .error e → s.state ≠ .fault →
      ∃ info : Reg32, info.toNat = w.toNat / 2 ^ 32 ∧ errNumber (some .illegalCommand) = 4 ∧
        step s = .next { s with port := rest, err := some .illegalCommand, errInfo := info, state := .fault }

/-- R194: a word that does not decode, or a command not legal in the present state, outside `FAULT`. -/
def Obligations.IllegalCommandEntry : Prop :=
  ∀ (s : State) (w : CmdWord) (rest : List HostEvent),
    s.port = .word w :: rest → s.state ≠ .fault →
    ((∃ e, decode w = .error e) ∨
      (∃ i st, decode w = .ok i ∧ onlyState i = some st ∧ s.state ≠ st)) →
      ∃ info : Reg32, info.toNat = w.toNat / 2 ^ 32 ∧
        step s = .next { s with port := rest, err := some .illegalCommand, errInfo := info, state := .fault }

/-- R110: in `FAULT` the block answers `RDSR`, obeys `RESET` and drops every other word; no file is finished
in `FAULT`. -/
def Obligations.FaultStateDropsWords : Prop :=
  ∀ (s : State) (w : CmdWord) (rest : List HostEvent), s.port = .word w :: rest → s.state = .fault →
    (∀ idx, decode w = .ok (.rdsr idx) → ∃ v, step s = .next { s with port := rest, rsp := s.rsp ++ [v] }) ∧
    (decode w = .ok .reset → ∃ t, step s = .next t ∧ t.state = .idle ∧ t.err = none) ∧
    (decode w ≠ .ok .reset → (∀ idx, decode w ≠ .ok (.rdsr idx)) → step s = .next { s with port := rest }) ∧
    ¬ s.EndedWell

/-- R103: how `STATE` moves on a word: what each command does, that a new error means `FAULT`, and that nothing
else changes `STATE`. -/
def Obligations.StateMoves : Prop :=
  ∀ (s t : State) (w : CmdWord) (rest : List HostEvent), s.port = .word w :: rest → step s = .next t →
    (decode w = .ok .reset → t.state = .idle) ∧
    (s.state = .idle → decode w = .ok .start → t.state = .run ∨ (t.state = .fault ∧ t.err ≠ none)) ∧
    (s.state = .run → decode w = .ok .eoi → t.state = .closed ∨ (t.state = .fault ∧ t.err ≠ none)) ∧
    (s.state = .closed → decode w = .ok .write → t.state = .done) ∧
    (t.err ≠ s.err → t.state = .fault ∨ decode w = .ok .reset) ∧
    (t.state = s.state ∨
      (s.state = .idle ∧ t.state = .run ∧ decode w = .ok .start) ∨
      (s.state = .run ∧ t.state = .closed ∧ decode w = .ok .eoi) ∨
      (s.state = .closed ∧ t.state = .done ∧ decode w = .ok .write) ∨
      (t.state = .idle ∧ decode w = .ok .reset) ∨
      (s.state ≠ .fault ∧ t.state = .fault ∧ t.err ≠ none ∧ decode w ≠ .ok .reset))

/-- R105: what `RESET` does in every state; the state after it depends on nothing before it but the streams;
nothing else leaves `FAULT`; the hardware reset has the same effect. The second clause compares whole states,
`cfg` among them, to which R39 gives no value: it holds because every reset leaves the zeros of log 5 (DESIGN
CHOICE) and, of log 15 (DEDUCED), `RESET` leaves what a hardware reset does. -/
def Obligations.ResetCommand : Prop :=
  (∀ s : State, ∃ t, exec .reset s = .next t ∧ t.state = .idle ∧ t.err = none ∧ t.errInfo = 0 ∧ t.warn = 0 ∧
    t.len = 0 ∧ t.ph = 0 ∧ t.rem = 0 ∧ t.cfgv = 0 ∧ (∀ i, t.sink.read i = none) ∧
    t.out = s.out ∧ t.rsp = s.rsp ∧ t.port = s.port ∧ t.par = s.par) ∧
  (∀ s s' : State, s.out = s'.out → s.rsp = s'.rsp → s.port = s'.port → s.par = s'.par →
    exec .reset s = exec .reset s') ∧
  (∀ (s t : State) (w : CmdWord) (rest : List HostEvent), s.port = .word w :: rest → s.state = .fault →
    step s = .next t → decode w ≠ .ok .reset → t.state = .fault) ∧
  (∀ (s : State) (rest : List HostEvent), s.port = .hardwareReset :: rest →
    step s = exec .reset { s with port := rest })

/-- R104: `CFGW` in `IDLE` writes one register and its flag and nothing else, at every value; elsewhere outside
`FAULT` it is an illegal command; the order of two writes does not matter, and of one register the last
write stays. -/
def Obligations.CfgwWrites : Prop :=
  (∀ (s : State) (idx : Fin 8) (v : Reg32),
    (s.state = .idle → ∃ t, exec (.cfgw idx v) s = .next t ∧ t = { s with cfg := t.cfg, cfgv := t.cfgv } ∧
      t.cfg[idx] = v ∧ (∀ j : Fin 8, j ≠ idx → t.cfg[j] = s.cfg[j]) ∧
      (∀ k < 8, t.cfgv.getLsbD k = (decide (k = idx.val) || s.cfgv.getLsbD k))) ∧
    (s.state = .run ∨ s.state = .closed ∨ s.state = .done →
      exec (.cfgw idx v) s = .next { s with
        err := some .illegalCommand, errInfo := BitVec.ofNat 32 (0x02000000 + idx.val), state := .fault })) ∧
  (∀ (s t u : State) (i j : Fin 8) (v w : Reg32), s.state = .idle →
    exec (.cfgw i v) s = .next t → exec (.cfgw j w) t = .next u →
      (i ≠ j → ∃ t', exec (.cfgw j w) s = .next t' ∧ exec (.cfgw i v) t' = .next u) ∧
      (i = j → exec (.cfgw j w) s = .next u))

/-- R106: `RDSR` responds one register, in every state, and changes nothing else; of 5 to 7 or with a
must-be-zero bit set it is an illegal command, dropped in `FAULT`. -/
def Obligations.RdsrResponds : Prop :=
  (∀ (s : State) (idx : Fin 8), idx.val ≤ 4 → ∃ v : Reg32,
    exec (.rdsr idx) s = .next { s with rsp := s.rsp ++ [v] } ∧
    (idx = 0 → v.toNat = stateNumber s.state) ∧ (idx = 1 → v.toNat = errNumber s.err) ∧
    (idx = 2 → v = s.errInfo) ∧ (idx = 3 → v = s.warn) ∧ (idx = 4 → v = s.len)) ∧
  (∀ (s : State) (w : CmdWord) (rest : List HostEvent), s.port = .word w :: rest →
    w.toNat / 2 ^ 56 = 8 → (4 < w.toNat / 2 ^ 32 % 2 ^ 24 ∨ w.toNat % 2 ^ 32 ≠ 0) →
      (s.state = .fault → step s = .next { s with port := rest }) ∧
      (s.state ≠ .fault → ∃ info : Reg32, info.toNat = w.toNat / 2 ^ 32 ∧
        step s = .next { s with port := rest, err := some .illegalCommand, errInfo := info, state := .fault }))

/-! ## START, BYTE, EOI (42_frame_encoder.md, 40_control.md R108, R109) -/

/-- R108: `START` in `IDLE` with an offending register raises one error with the mask of all of them and
changes nothing else, a full sink notwithstanding (R197); with none it raises no such error. -/
def Obligations.StartChecksConfiguration : Prop :=
  ∀ s : State, s.state = .idle →
    ((∃ i, s.offends i) → ∃ m : Reg32, (∀ i < 32, m.getLsbD i = true ↔ s.offends i) ∧
      exec .start s = .next { s with err := some .configurationError, errInfo := m, state := .fault }) ∧
    ((∀ i, ¬ s.offends i) → s.err ≠ some .configurationError →
      ∀ t, exec .start s = .next t → t.err ≠ some .configurationError)

/-- R109: the warning flags of a `START` that passes the check, whatever it ends in; setting them changes
nothing else. -/
def Obligations.StartWarns : Prop :=
  ∀ s t : State, s.Inv → s.state = .idle → s.configLegal → exec .start s = .next t →
    (t.warn.getLsbD 0 = true ↔ ((s.markFreq : Int) - s.spaceFreq).natAbs < s.par.minShiftHz) ∧
    (t.warn.getLsbD 1 = true ↔ s.markFreq < s.spaceFreq) ∧ (∀ i, 2 ≤ i → t.warn.getLsbD i = false) ∧
    s.setWarnings = { s with warn := t.warn }

/-- R147: `START` in `IDLE`: the check, the warnings, 1040 tones of one bit-duration, `RUN`; elsewhere outside
`FAULT` it is an illegal command. -/
def Obligations.StartRuns : Prop :=
  ∀ s : State,
    (s.state = .idle → (∃ i, s.offends i) → ∃ m : Reg32, exec .start s =
      .next { s with err := some .configurationError, errInfo := m, state := .fault }) ∧
    (s.state = .idle → (∀ i, ¬ s.offends i) → exec .start s =
      .next (((List.replicate 1040 s.markFreq).foldl
        (fun (flow : Flow) (f : Nat) => flow.bind (tone f (1000000 / s.baud))) (.go s.setWarnings)).bind
          (fun t => .go { t with state := .run })).final) ∧
    (s.state = .run ∨ s.state = .closed ∨ s.state = .done →
      exec .start s = .next { s with err := some .illegalCommand, errInfo := 0x03000000, state := .fault })

/-- R147: `START` with a legal configuration whose preamble fits: the count, the phase, the remainder, every
sample, `RUN`; nothing else changes but `WARN`. -/
def Obligations.StartCompletes : Prop :=
  ∀ s : State, s.Inv → s.state = .idle → s.configLegal →
    ∀ n : Nat, (n : Int) = Int.floor ((1040 * s.sampleRate : Rat) / s.baud + 1 / 2) →
    n ≤ s.par.maxSamples.val →
    ∃ t, exec .start s = .next t ∧
      t = { s with state := .run, warn := t.warn, ph := t.ph, rem := t.rem, len := t.len, sink := t.sink } ∧
      t.len.toNat = n ∧ t.ph = n * s.markFreq % s.sampleRate ∧
      t.rem = 1040 * (1000000 / s.baud) - n * (1000000 / s.sampleRate) ∧
      (∀ j < n, t.sink.read j = some (if s.markFreq = 0 then s.par.zeroLevel else
        BitVec.ofInt 16 (Config.sample s.par.amp ((j + 1) * s.markFreq % s.sampleRate) s.sampleRate))) ∧
      (∀ j, n ≤ j → t.sink.read j = none)

/-- R148: `BYTE` in `RUN` is one tone of one bit-duration for each frequency of the frame, in order, none
after one that raises; elsewhere outside `FAULT` it is an illegal command. -/
def Obligations.ByteSendsFrame : Prop :=
  ∀ (s : State) (x : Byte),
    (s.state = .run → exec (.byte x) s =
      .next ((s.frameTones x).foldl (fun (flow : Flow) (f : Nat) => flow.bind (tone f (1000000 / s.baud))) (.go s)).final) ∧
    (s.state = .idle ∨ s.state = .closed ∨ s.state = .done →
      exec (.byte x) s = .next { s with err := some .illegalCommand, errInfo := 0x04000000, state := .fault })

/-- R148, R152, R153, R121, R124, R127: `BYTE` completes where its samples fit; the count, the remainder, the
phase, every sample of every tone of its frame; samples below `LEN` stay, every index up to the new `LEN` holds
one and none above it does; nothing else changes. `made k` is the number of samples of the frame's first `k`
tones, `phase k` the phase that tone `k` (from 0) begins at: no tone begins anew (R129). What the tones are,
FrameLayout says. -/
def Obligations.ByteCompletes : Prop :=
  ∀ (s : State) (x : Byte), s.Inv → s.state = .run →
    ∀ e n : Nat, e = 1 + s.bitWidth + (if s.parity = 0 then 0 else 1) + s.stopBits →
    (n : Int) = Int.floor ((e * (1000000 / s.baud) + s.rem) / (1000000 / s.sampleRate) + 1 / 2) →
    s.len.toNat + n ≤ s.par.maxSamples.val →
    let made : Nat → Nat := fun k =>
      (Int.floor ((k * (1000000 / s.baud) + s.rem) / (1000000 / s.sampleRate) + 1 / 2)).toNat
    let phase : Nat → Nat := fun k =>
      (s.ph + ∑ i ∈ Finset.range k, (made (i + 1) - made i) * (s.frameTones x).getD i 0) % s.sampleRate
    ∃ t, exec (.byte x) s = .next t ∧ s.sameButSound t ∧ t.len.toNat = s.len.toNat + n ∧
      t.rem = e * (1000000 / s.baud) + s.rem - n * (1000000 / s.sampleRate) ∧
      t.ph = phase e ∧
      (∀ i < s.len.toNat, t.sink.read i = s.sink.read i) ∧
      made 0 = 0 ∧ made e = n ∧ (s.frameTones x).length = e ∧
      (∀ k f, (s.frameTones x)[k]? = some f → made k ≤ made (k + 1) ∧ ∀ j < made (k + 1) - made k,
        t.sink.read (s.len.toNat + made k + j) = some (if f = 0 then s.par.zeroLevel else
          BitVec.ofInt 16 (Config.sample s.par.amp ((phase k + (j + 1) * f) % s.sampleRate) s.sampleRate))) ∧
      (∀ i, (t.sink.read i).isSome = true ↔ i < t.len.toNat)

/-- R149: `EOI` in `RUN`: 240 tones of one bit-duration, `CLOSED`; elsewhere outside `FAULT` it is an illegal
command. -/
def Obligations.EoiRuns : Prop :=
  ∀ s : State,
    (s.state = .run → exec .eoi s =
      .next (((List.replicate 240 s.markFreq).foldl
        (fun (flow : Flow) (f : Nat) => flow.bind (tone f (1000000 / s.baud))) (.go s)).bind
          (fun t => .go { t with state := .closed })).final) ∧
    (s.state = .idle ∨ s.state = .closed ∨ s.state = .done →
      exec .eoi s = .next { s with err := some .illegalCommand, errInfo := 0x06000000, state := .fault })

/-- R149: `EOI` completes where the postamble fits: the count, the phase, the remainder, every sample,
`CLOSED`; nothing else changes. -/
def Obligations.EoiCompletes : Prop :=
  ∀ s : State, s.Inv → s.state = .run →
    ∀ n : Nat, (n : Int) = Int.floor ((240 * (1000000 / s.baud) + s.rem) / (1000000 / s.sampleRate) + 1 / 2) →
    s.len.toNat + n ≤ s.par.maxSamples.val →
    ∃ t, exec .eoi s = .next t ∧
      t = { s with state := .closed, ph := t.ph, rem := t.rem, len := t.len, sink := t.sink } ∧
      t.len.toNat = s.len.toNat + n ∧ t.ph = (s.ph + n * s.markFreq) % s.sampleRate ∧
      t.rem = 240 * (1000000 / s.baud) + s.rem - n * (1000000 / s.sampleRate) ∧
      (∀ i < s.len.toNat, t.sink.read i = s.sink.read i) ∧
      (∀ j < n, t.sink.read (s.len.toNat + j) = some (if s.markFreq = 0 then s.par.zeroLevel else
        BitVec.ofInt 16
          (Config.sample s.par.amp ((s.ph + (j + 1) * s.markFreq) % s.sampleRate) s.sampleRate))) ∧
      (∀ i, t.len.toNat ≤ i → t.sink.read i = none)

/-- R143, R144, R146: the tones of a frame, place by place. -/
def Obligations.FrameLayout : Prop :=
  ∀ (s : State) (x : Byte), s.bitWidth ≤ 8 →
    let p := if s.parity = 0 then 0 else 1
    (s.frameTones x).length = 1 + s.bitWidth + p + s.stopBits ∧
    (s.frameTones x)[0]? = some s.spaceFreq ∧
    (∀ i < s.bitWidth,
      (s.frameTones x)[1 + i]? = some (if x.toNat / 2 ^ i % 2 = 1 then s.markFreq else s.spaceFreq)) ∧
    (s.parity ≠ 0 → (s.frameTones x)[1 + s.bitWidth]? =
      some (if parityBit s.parity x then s.markFreq else s.spaceFreq)) ∧
    (∀ i < s.stopBits, (s.frameTones x)[1 + s.bitWidth + p + i]? = some s.markFreq)

/-- R145: the parity bit is sent only with `PARITY != 0`; its value in each mode, from the number of set bits
among all eight, whatever `BIT_WIDTH` is. -/
def Obligations.ParityRule : Prop :=
  ∀ x : Byte,
    let k := (List.range 8).countP (fun i => x.getLsbD i) % 2
    (parityBit 1 x = true ↔ k = 1) ∧ (parityBit 2 x = true ↔ 1 - k = 1) ∧ parityBit 3 x = false ∧
      parityBit 4 x = true ∧
    ∀ s : State,
      (s.parity = 0 → (s.frameTones x).length = 1 + s.bitWidth + s.stopBits) ∧
      (s.parity ≠ 0 → (s.frameTones x).length = 2 + s.bitWidth + s.stopBits ∧
        (s.frameTones x)[1 + s.bitWidth]? = some (if parityBit s.parity x then s.markFreq else s.spaceFreq))

/-! ## The oscillator (41_tone_oscillator.md) -/

/-- R11: round half up, a negative tie upwards. That "up" means so at a negative tie is general knowledge the
spec supplies, not its source (log 18, PRESUMED). -/
def Obligations.RoundHalfUp : Prop :=
  ∀ q : Rat, (rhu q : Rat) - 1 / 2 ≤ q ∧ q < (rhu q : Rat) + 1 / 2

/-- R128: `TONE` in `RUN` is `tone(freq, dur)`, of no effect where `dur = 0`, and with the phase and the one
sample value kept where `freq` is a multiple of the sample rate; elsewhere outside `FAULT` it is an illegal
command. -/
def Obligations.ToneRuns : Prop :=
  ∀ (s : State) (f : BitVec 24) (d : Reg32),
    (s.state = .run → exec (.tone f d) s = .next (tone f.toNat d.toNat s).final) ∧
    (s.state = .run → s.Inv → exec (.tone f 0) s = .next s) ∧
    (s.state = .run → s.Inv → f ≠ 0 → f.toNat % s.sampleRate = 0 → ∃ t, exec (.tone f d) s = .next t ∧
      t.ph = s.ph ∧ ∀ i, s.len.toNat ≤ i → i < t.len.toNat → t.sink.read i = some s.sampleNow) ∧
    (s.state = .idle ∨ s.state = .closed ∨ s.state = .done → ∃ info : Reg32,
      info.toNat = 0x05000000 + f.toNat ∧
      exec (.tone f d) s = .next { s with err := some .illegalCommand, errInfo := info, state := .fault })

/-- R121, R123, R124, R127, R128: `TONE` completes where its samples fit: the count, the remainder, the phase
(unmoved by a zero frequency), every sample; nothing else changes. -/
def Obligations.ToneCompletes : Prop :=
  ∀ (s : State) (f : BitVec 24) (d : Reg32), s.Inv → s.state = .run →
    ∀ n : Nat, (n : Int) = Int.floor ((d.toNat + s.rem) / (1000000 / s.sampleRate) + 1 / 2) →
    s.len.toNat + n ≤ s.par.maxSamples.val →
    ∃ t, exec (.tone f d) s = .next t ∧ s.sameButSound t ∧
      t.len.toNat = s.len.toNat + n ∧ t.rem = d.toNat + s.rem - n * (1000000 / s.sampleRate) ∧
      t.ph = (s.ph + n * f.toNat) % s.sampleRate ∧ (f = 0 → t.ph = s.ph) ∧
      (∀ i < s.len.toNat, t.sink.read i = s.sink.read i) ∧
      (∀ j < n, t.sink.read (s.len.toNat + j) = some (if f = 0 then s.par.zeroLevel else
        BitVec.ofInt 16 (Config.sample s.par.amp ((s.ph + (j + 1) * f.toNat) % s.sampleRate) s.sampleRate))) ∧
      (∀ i, t.len.toNat ≤ i → t.sink.read i = none)

/-- R121, R123, R124, R127: a request `tone(f, d)` of any frequency and any exact duration, made in a run,
whose samples fit: the count, the remainder, the phase (unmoved by a zero frequency), every sample; nothing
else changes. -/
def Obligations.ToneRequest : Prop :=
  ∀ (s : State) (f : Nat) (d : Rat), s.Inv → s.live → 0 ≤ d →
    ∀ n : Nat, (n : Int) = Int.floor ((d + s.rem) / (1000000 / s.sampleRate) + 1 / 2) →
    s.len.toNat + n ≤ s.par.maxSamples.val →
    ∃ t, tone f d s = .go t ∧ s.sameButSound t ∧
      t.len.toNat = s.len.toNat + n ∧ t.rem = d + s.rem - n * (1000000 / s.sampleRate) ∧
      t.ph = (if f = 0 then s.ph else (s.ph + n * f) % s.sampleRate) ∧
      (∀ i < s.len.toNat, t.sink.read i = s.sink.read i) ∧
      (∀ j < n, t.sink.read (s.len.toNat + j) = some (if f = 0 then s.par.zeroLevel else
        BitVec.ofInt 16 (Config.sample s.par.amp ((s.ph + (j + 1) * f) % s.sampleRate) s.sampleRate))) ∧
      (∀ i, t.len.toNat ≤ i → t.sink.read i = none)

/-- R132: a tone whose samples do not all fit: the new remainder, the samples before the failing one, the
phase advanced once more (not at all by a zero frequency), `FAULT`; the command stops there, `TONE` among them. -/
def Obligations.ToneOverflows : Prop :=
  ∀ (s : State) (f : Nat) (d : Rat), s.Inv → s.live → 0 ≤ d →
    ∀ n k : Nat, (n : Int) = Int.floor ((d + s.rem) / (1000000 / s.sampleRate) + 1 / 2) →
    s.len.toNat + k = s.par.maxSamples.val → k < n →
    ∃ t, tone f d s = .raised t ∧
      t = { s with ph := t.ph, rem := t.rem, len := t.len, sink := t.sink,
                   err := some .capacityExceededError, errInfo := 0, state := .fault } ∧
      t.rem = d + s.rem - n * (1000000 / s.sampleRate) ∧ t.len.toNat = s.par.maxSamples.val ∧
      t.ph = (if f = 0 then s.ph else (s.ph + (k + 1) * f) % s.sampleRate) ∧
      (∀ i < s.len.toNat, t.sink.read i = s.sink.read i) ∧
      (∀ j < k, t.sink.read (s.len.toNat + j) = some (if f = 0 then s.par.zeroLevel else
        BitVec.ofInt 16 (Config.sample s.par.amp ((s.ph + (j + 1) * f) % s.sampleRate) s.sampleRate))) ∧
      (∀ more : State → Flow, (tone f d s).bind more = .raised t) ∧
      (∀ (g : BitVec 24) (b : Reg32), s.state = .run → g.toNat = f → (b.toNat : Rat) = d →
        exec (.tone g b) s = .next t)

/-- R122: no request has a negative count, and the remainder stays within half a sample period, in a request
that raises too; a request of duration 0, the negative tie among them, gives no sample and leaves `REM`. -/
def Obligations.RemainderBounded : Prop :=
  ∀ (s : State) (f : Nat) (d : Rat), 0 < s.sampleRate → s.remBound → 0 ≤ d →
    0 ≤ s.sampleCount d ∧
    (-s.period / 2 ≤ (tone f d s).final.rem ∧ (tone f d s).final.rem < s.period / 2) ∧
    (d = 0 → s.sampleCount d = 0 ∧ tone f d s = .go s)

/-- R133: a request split in two is the same, a first part that does not raise granted. -/
def Obligations.SplitRequest : Prop :=
  ∀ (s t : State) (f : Nat) (d₁ d₂ : Rat), 0 < s.sampleRate → s.remBound → 0 ≤ d₁ → 0 ≤ d₂ →
    tone f d₁ s = .go t → tone f d₂ t = tone f (d₁ + d₂) s

/-- R133, R231: equal requests are one request of the total duration. -/
def Obligations.EqualRequests : Prop :=
  ∀ (s t : State) (n f : Nat) (d : Rat), 0 < s.sampleRate → s.remBound → 0 ≤ d →
    tone f (n * d) s = .go t → repeatTone n f d s = .go t

/-- R28: after any sequence of requests from a fresh oscillator that raises nothing: the total duration is
what was emitted and the remainder, the count is the rounded total, and the two differ by half a sample
period at most. -/
def Obligations.CountOfManyRequests : Prop :=
  ∀ (s t : State) (requests : List (Nat × Rat)), 0 < s.sampleRate → s.sink = [] → s.len = 0 → s.ph = 0 →
    s.rem = 0 → (∀ r ∈ requests, 0 ≤ r.2) →
    requests.foldl (fun (flow : Flow) (r : Nat × Rat) => flow.bind (tone r.1 r.2)) (.go s) = .go t →
    (-s.period / 2 ≤ t.rem ∧ t.rem < s.period / 2) ∧
    t.len.toNat * s.period + t.rem = (requests.map Prod.snd).sum ∧
    (t.len.toNat : Int) = rhu ((requests.map Prod.snd).sum / s.period) ∧
    |(requests.map Prod.snd).sum - t.len.toNat * s.period| ≤ s.period / 2

/-- R125, R126, R165: a sample, as the cell holds it, is within 1 of `AMP * sin(2 pi PH / SAMPLE_RATE)`, for
every quantiser R126 allows. -/
def Obligations.SampleWithinOne : Prop :=
  ∀ s : State, s.par.ok →
    |((s.sampleNow.toInt : Int) : ℝ) - (s.par.amp : ℝ) * Real.sin (2 * Real.pi * s.ph / s.sampleRate)| < 1

/-- R131: the samples that do not depend on the quantiser, and the two values at a quarter turn. -/
def Obligations.SamplesAtQuarterTurns : Prop :=
  ∀ ph fs : Nat, 0 < fs →
    (∀ amp : Rat, 0 < amp → amp + 1 ≤ 32767 → 2 * ph % fs = 0 → Config.sample amp ph fs = 0) ∧
    (4 * ph % fs = 0 → 4 * ph / fs % 4 = 1 →
      Config.sample (32767 / 5) ph fs = 6553 ∨ Config.sample (32767 / 5) ph fs = 6554) ∧
    (4 * ph % fs = 0 → 4 * ph / fs % 4 = 3 →
      Config.sample (32767 / 5) ph fs = -6553 ∨ Config.sample (32767 / 5) ph fs = -6554)

/-- From R129: on a word, nothing changes `PH` but the commands that make tones, and `RESET`. (That a tone goes
on from the phase the last one left, ToneRequest and ByteCompletes say.) -/
def Obligations.OnlyTonesAndResetMovePhase : Prop :=
  ∀ (s t : State) (w : CmdWord) (rest : List HostEvent), s.port = .word w :: rest → step s = .next t →
    t.ph ≠ s.ph → ∃ i, decode w = .ok i ∧ (makesTones i = true ∨ i = .reset)

/-! ## The sample store (43_sample_sink.md) -/

/-- R161: `SinkAppend`, the check first, then the cell and `LEN`. -/
def Obligations.SinkAppendRule : Prop :=
  ∀ (v : Cell) (s : State),
    (s.par.maxSamples.val ≤ s.len.toNat → sinkAppend v s =
      .raised { s with err := some .capacityExceededError, errInfo := 0, state := .fault }) ∧
    (s.len.toNat < s.par.maxSamples.val → ∃ t, sinkAppend v s = .go t ∧
      t = { s with sink := t.sink, len := t.len } ∧ t.len.toNat = s.len.toNat + 1 ∧
      t.sink.read s.len.toNat = some v ∧ (∀ i, i ≠ s.len.toNat → t.sink.read i = s.sink.read i))

/-- R164: no word but `RESET` lowers `LEN` or changes a cell below it. -/
def Obligations.SinkNeverRewritten : Prop :=
  ∀ (s t : State) (w : CmdWord) (rest : List HostEvent), s.Inv → s.port = .word w :: rest →
    decode w ≠ .ok .reset → step s = .next t →
    s.len.toNat ≤ t.len.toNat ∧ (∀ i < s.len.toNat, t.sink.read i = s.sink.read i)

/-- Every step keeps the canonical form of `SINK` (indices strictly rising), in every state. The form is the
model's own way of writing the store down (log 7, DESIGN CHOICE); no rule of the spec speaks of it. -/
def Obligations.SinkStaysCanonical : Prop :=
  ∀ s t : State, s.sink.wf → step s = .next t → t.sink.wf

/-- R192: where a capacity error arises and what it leaves. -/
def Obligations.CapacityErrors : Prop :=
  ∀ (s t : State) (w : CmdWord) (rest : List HostEvent), s.Inv → s.port = .word w :: rest →
    step s = .next t → s.state ≠ .fault → t.err = some .capacityExceededError →
    (∃ i, decode w = .ok i ∧ makesTones i = true) ∧ t.state = .fault ∧ t.errInfo = 0 ∧
      t.len.toNat = s.par.maxSamples.val ∧ t.out = s.out ∧ t.rsp = s.rsp ∧ t.cfg = s.cfg ∧ t.cfgv = s.cfgv

/-- R147, R148, R149, R162: a preamble, a frame or a postamble that does not fit ends in a capacity error. -/
def Obligations.OverflowRaises : Prop :=
  ∀ (s : State) (i : Instr) (e n : Nat), s.Inv →
    ((i = .start ∧ s.state = .idle ∧ s.configLegal ∧ e = 1040) ∨
      (∃ x, i = .byte x ∧ s.state = .run ∧ e = (s.frameTones x).length) ∨
      (i = .eoi ∧ s.state = .run ∧ e = 240)) →
    (n : Int) = Int.floor ((e * (1000000 / s.baud) + s.rem) / (1000000 / s.sampleRate) + 1 / 2) →
    s.par.maxSamples.val < s.len.toNat + n →
    ∃ t, exec i s = .next t ∧ t.state = .fault ∧ t.err = some .capacityExceededError ∧ t.errInfo = 0 ∧
      t.len.toNat = s.par.maxSamples.val ∧ (∀ j < s.len.toNat, t.sink.read j = s.sink.read j) ∧
      t.cfg = s.cfg ∧ t.cfgv = s.cfgv ∧ t.out = s.out ∧ t.rsp = s.rsp ∧ t.port = s.port ∧ t.par = s.par

/-! ## The container (44_container_writer.md) -/

/-- R178: the two forms of a sample, as numbers and as bits, and that they differ in the top bit only. -/
def Obligations.SampleForms : Prop :=
  ∀ v : Cell,
    wavSample v = [byteOf (v.toInt % 65536).toNat 0, byteOf (v.toInt % 65536).toNat 1] ∧
    aiffSample v = [byteOf (v.toInt + 32768).toNat 1, byteOf (v.toInt + 32768).toNat 0] ∧
    wavSample v = [v.extractLsb' 0 8, v.extractLsb' 8 8] ∧
    aiffSample v = [v.extractLsb' 8 8 ^^^ 0x80, v.extractLsb' 0 8] ∧
    (v.toInt + 32768).toNat = ((v.toInt % 65536).toNat ^^^ 0x8000)

/-- R170 to R173: `WRITE` with `FORMAT = 0` emits the WAV file, byte for byte, and enters `DONE`. -/
def Obligations.WriteWav : Prop :=
  ∀ s : State, s.Inv → s.state = .closed → s.format = 0 → ∃ file : List Byte,
    exec .write s = .next { s with out := s.out ++ file, state := .done } ∧
    let n := s.len.toNat
    let fs := s.sampleRate
    file.length = 44 + 2 * n ∧
    file.take 44 =
      [0x52, 0x49, 0x46, 0x46, byteOf (36 + 2 * n) 0, byteOf (36 + 2 * n) 1, byteOf (36 + 2 * n) 2,
       byteOf (36 + 2 * n) 3, 0x57, 0x41, 0x56, 0x45, 0x66, 0x6D, 0x74, 0x20, 16, 0, 0, 0, 1, 0, 1, 0,
       byteOf fs 0, byteOf fs 1, byteOf fs 2, byteOf fs 3, byteOf (2 * fs) 0, byteOf (2 * fs) 1,
       byteOf (2 * fs) 2, byteOf (2 * fs) 3, 2, 0, 16, 0, 0x64, 0x61, 0x74, 0x61, byteOf (2 * n) 0,
       byteOf (2 * n) 1, byteOf (2 * n) 2, byteOf (2 * n) 3] ∧
    (∀ i < n, ∃ v, s.sink.read i = some v ∧ file[44 + 2 * i]? = some (v.extractLsb' 0 8) ∧
      file[45 + 2 * i]? = some (v.extractLsb' 8 8))

/-- R170, R175 to R177: `WRITE` with `FORMAT = 1` emits the AIFF file, byte for byte, and enters `DONE`. The ten
bytes of the rate are `ext80`'s, which ExtendedRate states. -/
def Obligations.WriteAiff : Prop :=
  ∀ s : State, s.Inv → s.state = .closed → s.format = 1 → ∃ file : List Byte,
    exec .write s = .next { s with out := s.out ++ file, state := .done } ∧
    let n := s.len.toNat
    file.length = 54 + 2 * n ∧
    file.take 54 =
      [0x46, 0x4F, 0x52, 0x4D, byteOf (46 + 2 * n) 3, byteOf (46 + 2 * n) 2, byteOf (46 + 2 * n) 1,
       byteOf (46 + 2 * n) 0, 0x41, 0x49, 0x46, 0x46, 0x43, 0x4F, 0x4D, 0x4D, 0, 0, 0, 18, 0, 1,
       byteOf n 3, byteOf n 2, byteOf n 1, byteOf n 0, 0, 16] ++ ext80 s.sampleRate ++
      [0x53, 0x53, 0x4E, 0x44, byteOf (8 + 2 * n) 3, byteOf (8 + 2 * n) 2, byteOf (8 + 2 * n) 1,
       byteOf (8 + 2 * n) 0, 0, 0, 0, 0, 0, 0, 0, 0] ∧
    (∀ i < n, ∃ v, s.sink.read i = some v ∧ file[54 + 2 * i]? = some (v.extractLsb' 8 8 ^^^ 0x80) ∧
      file[55 + 2 * i]? = some (v.extractLsb' 0 8))

/-- R179: the 80-bit extended float of a sample rate. The layout is general knowledge the spec supplies, not its
source (log 18, PRESUMED). -/
def Obligations.ExtendedRate : Prop :=
  (∀ r : Nat, 1 ≤ r → r < 2 ^ 32 → ∃ e ≤ 31, 2 ^ e ≤ r ∧ r < 2 ^ (e + 1) ∧
    ext80 r = [byteOf (16383 + e) 1, byteOf (16383 + e) 0] ++
      (List.range 8).map (fun k => byteOf (r * 2 ^ (63 - e)) (7 - k)) ∧
    (byteOf (16383 + e) 1).getLsbD 7 = false ∧ 2 ^ 63 ≤ r * 2 ^ (63 - e) ∧ r * 2 ^ (63 - e) < 2 ^ 64) ∧
  ext80 44100 = [0x40, 0x0E, 0xAC, 0x44, 0, 0, 0, 0, 0, 0] ∧
  ext80 22050 = [0x40, 0x0D, 0xAC, 0x44, 0, 0, 0, 0, 0, 0] ∧
  ext80 11025 = [0x40, 0x0C, 0xAC, 0x44, 0, 0, 0, 0, 0, 0] ∧
  ext80 8000 = [0x40, 0x0B, 0xFA, 0, 0, 0, 0, 0, 0, 0] ∧
  ext80 1 = [0x3F, 0xFF, 0x80, 0, 0, 0, 0, 0, 0, 0]

/-- R180: parsing the header gives back the configuration. The clause on the rate in AIFF rests on the 80-bit
layout, general knowledge the spec supplies (log 18, PRESUMED). -/
def Obligations.HeaderRoundTrip : Prop :=
  ∀ (s t : State) (file : List Byte), s.Inv → s.state = .closed → exec .write s = .next t →
    t.out = s.out ++ file →
    (s.format = 0 →
      littleEndian (bytesAt file 24 4) = s.sampleRate ∧ littleEndian (bytesAt file 22 2) = 1 ∧
      littleEndian (bytesAt file 34 2) = 16 ∧ littleEndian (bytesAt file 28 4) = s.sampleRate * 1 * 16 / 8 ∧
      littleEndian (bytesAt file 32 2) = 1 * 16 / 8 ∧ littleEndian (bytesAt file 40 4) = 2 * s.len.toNat ∧
      littleEndian (bytesAt file 4 4) = file.length - 8) ∧
    (s.format = 1 →
      bigEndian (bytesAt file 20 2) = 1 ∧ bigEndian (bytesAt file 22 4) = s.len.toNat ∧
      bigEndian (bytesAt file 26 2) = 16 ∧
      bigEndian (bytesAt file 30 8) * 2 ^ (bigEndian (bytesAt file 28 2) - 16383) = s.sampleRate * 2 ^ 63 ∧
      bigEndian (bytesAt file 42 4) = 8 + 2 * s.len.toNat ∧ bigEndian (bytesAt file 4 4) = file.length - 8)

/-- R53: on a word, `OUT` gains bytes at its end by `WRITE` in `CLOSED` only. -/
def Obligations.OutputOnlyFromWrite : Prop :=
  ∀ (s t : State) (w : CmdWord) (rest : List HostEvent), s.port = .word w :: rest → step s = .next t →
    s.out <+: t.out ∧ (t.out ≠ s.out → decode w = .ok .write ∧ s.state = .closed)

/-- R54: on a word, `RSP` gains one value by `RDSR` and nothing by any other. -/
def Obligations.ResponsesOnlyFromRdsr : Prop :=
  ∀ (s t : State) (w : CmdWord) (rest : List HostEvent), s.port = .word w :: rest → step s = .next t →
    (∀ idx, decode w = .ok (.rdsr idx) → ∃ v, t.rsp = s.rsp ++ [v]) ∧
    ((∀ idx, decode w ≠ .ok (.rdsr idx)) → t.rsp = s.rsp)

/-! ## Errors and the whole machine (60_exceptions.md, 10_state.md) -/

/-- R200: a fault entry on a word writes the error registers and `STATE`, and beside them nothing but what a
tone or the warnings may have written before it. -/
def Obligations.FaultEntry : Prop :=
  ∀ (s t : State) (w : CmdWord) (rest : List HostEvent), s.port = .word w :: rest → step s = .next t →
    s.state ≠ .fault → t.state = .fault →
    t.err ≠ none ∧
    t = { s with port := rest, state := .fault, err := t.err, errInfo := t.errInfo, warn := t.warn,
                 ph := t.ph, rem := t.rem, len := t.len, sink := t.sink } ∧
    (t.err ≠ some .capacityExceededError →
      t = { s with port := rest, state := .fault, err := t.err, errInfo := t.errInfo })

/-- R201: the first error stays in `ERR` and `ERRINFO` whatever the host presents; `FAULT` ends with `RESET` or
the hardware reset only. -/
def Obligations.FirstErrorKept : Prop :=
  ∀ s t : State, s.state = .fault → step s = .next t →
    (t.state = .fault ∧ t.err = s.err ∧ t.errInfo = s.errInfo) ∨
    (t.state = .idle ∧ t.err = none ∧ t.errInfo = 0 ∧ ∃ rest,
      (∃ w, s.port = .word w :: rest ∧ decode w = .ok .reset) ∨ s.port = .hardwareReset :: rest ∨
      ∃ w k, s.port = .wordCutByReset w k :: rest)

/-- R193: no step raises `ResourceOpenError`, and it is not there at reset: `ERR` never holds 2. -/
def Obligations.NeverResourceOpenError : Prop :=
  errNumber (some .resourceOpenError) = 2 ∧ State.reset.err ≠ some .resourceOpenError ∧
  ∀ s t : State, s.err ≠ some .resourceOpenError → step s = .next t → t.err ≠ some .resourceOpenError

/-- R24: no word but a `CFGW` in `IDLE` and `RESET` changes the configuration or its written flags, and a `CFGW`
in another state is an illegal command (dropped in `FAULT`). -/
def Obligations.ConfigurationFrozen : Prop :=
  ∀ (s t : State) (w : CmdWord) (rest : List HostEvent), s.port = .word w :: rest → step s = .next t →
    (decode w ≠ .ok .reset → ¬ (s.state = .idle ∧ ∃ idx v, decode w = .ok (.cfgw idx v)) →
      t.cfg = s.cfg ∧ t.cfgv = s.cfgv) ∧
    (∀ idx v, decode w = .ok (.cfgw idx v) → s.state ≠ .idle → s.state ≠ .fault →
      t.state = .fault ∧ t.err = some .illegalCommand)

/-- R40: no step changes the parameters. -/
def Obligations.ParametersFixed : Prop := ∀ s t : State, step s = .next t → t.par = s.par

/-- R35, R195: `WARN` has no effect on anything but the response of `RDSR WARN`: two states that differ in
`WARN` only step to states that differ in `WARN` only. -/
def Obligations.WarningsInert : Prop :=
  ∀ (s t : State) (v : Reg32) (w : CmdWord) (rest : List HostEvent), s.port = .word w :: rest →
    decode w ≠ .ok (.rdsr 3) → step s = .next t →
    ∃ u, step { s with warn := v } = .next { t with warn := u }

/-- R39: the reset state's values, and that it meets the invariant (its parameters and `cfg` are the model's
choice, log 3, log 5). -/
def Obligations.ResetMeetsInvariant : Prop :=
  (State.reset.state = .idle ∧ State.reset.err = none ∧ State.reset.errInfo = 0 ∧ State.reset.warn = 0 ∧
    State.reset.len = 0 ∧ State.reset.ph = 0 ∧ State.reset.rem = 0 ∧ State.reset.cfgv = 0 ∧
    (∀ i, State.reset.sink.read i = none)) ∧
  State.reset.Inv

/-- R22, R26, R28, R32 to R36: every step keeps the invariant, a hardware reset between or during commands
included. -/
def Obligations.StepKeepsInvariant : Prop := ∀ s t : State, s.Inv → step s = .next t → t.Inv

/-! ## A whole run (42_frame_encoder.md R152, R153; 70_reset_and_hazards.md R227, R228) -/

/-- R152, R153, R227, R228, R171, R175, R178: from `IDLE` with a legal configuration, a `START`, any bytes, `EOI`
and `WRITE` end well where the rounded number of samples is within `MAX_SAMPLES`, with that number, and with the
file on `OUT`: the header of that rate and that number (its bytes are WriteWav's and WriteAiff's), then each cell
of `SINK`; and in a capacity error with nothing on `OUT` otherwise. -/
def Obligations.WholeRun : Prop :=
  ∀ (s : State) (input : List Byte), s.Inv → s.state = .idle → s.configLegal →
    s.port = present (expandRun input) →
    ∀ e n : Nat,
    e = 1040 + input.length * (1 + s.bitWidth + (if s.parity = 0 then 0 else 1) + s.stopBits) + 240 →
    (n : Int) = Int.floor ((e * s.sampleRate : Rat) / s.baud + 1 / 2) →
    ∃ t : State, runSteps (input.length + 3) s = .next t ∧ t.port = [] ∧ t.cfg = s.cfg ∧
      (n ≤ s.par.maxSamples.val → t.EndedWell ∧ t.len.toNat = n ∧
        t.rem = e * (1000000 / s.baud) - n * (1000000 / s.sampleRate) ∧
        ∃ file, t.out = s.out ++ file ∧
          (s.format = 0 → file.length = 44 + 2 * n ∧ file.take 44 = wavHeader s.sampleRate n ∧
            ∀ i < n, ∃ v, t.sink.read i = some v ∧ file[44 + 2 * i]? = some (v.extractLsb' 0 8) ∧
              file[45 + 2 * i]? = some (v.extractLsb' 8 8)) ∧
          (s.format = 1 → file.length = 54 + 2 * n ∧ file.take 54 = aiffHeader s.sampleRate n ∧
            ∀ i < n, ∃ v, t.sink.read i = some v ∧ file[54 + 2 * i]? = some (v.extractLsb' 8 8 ^^^ 0x80) ∧
              file[55 + 2 * i]? = some (v.extractLsb' 0 8))) ∧
      (s.par.maxSamples.val < n → t.EndedBadly ∧ t.err = some .capacityExceededError ∧
        t.len.toNat = s.par.maxSamples.val ∧ t.out = s.out)

/-! ## The hardware reset (70_reset_and_hazards.md) -/

/-- R220: the hardware reset, between commands or during one, leaves the reset state of R39, with no fault
recorded, whatever the command. -/
def Obligations.HardwareReset : Prop :=
  ∀ (s : State) (rest : List HostEvent), s.Inv →
    (s.port = .hardwareReset :: rest ∨ ∃ w k, s.port = .wordCutByReset w k :: rest) →
    ∃ t r, step s = .next t ∧ exec .reset { s with port := rest } = .next r ∧
      t = { r with out := t.out, rsp := t.rsp } ∧
      t.state = .idle ∧ t.err = none ∧ t.errInfo = 0 ∧ t.warn = 0 ∧ t.len = 0 ∧ t.ph = 0 ∧ t.rem = 0 ∧
      t.cfgv = 0 ∧ (∀ i, t.sink.read i = none) ∧ t.port = rest

/-- R220, R222: the hardware reset during a command leaves the reset state with no fault recorded, and of the
command's output a prefix; no output of a command but `WRITE`. -/
def Obligations.ResetDuringCommand : Prop :=
  ∀ (s : State) (w : CmdWord) (k : Nat) (rest : List HostEvent), s.Inv → s.port = .wordCutByReset w k :: rest →
    ∃ t r u, step s = .next t ∧ exec .reset { s with port := rest } = .next r ∧
      step { s with port := .word w :: rest } = .next u ∧
      t = { r with out := t.out, rsp := t.rsp } ∧
      s.out <+: t.out ∧ t.out <+: u.out ∧ s.rsp <+: t.rsp ∧ t.rsp <+: u.rsp ∧
      (decode w ≠ .ok .write → t.out = s.out)

/-! ## The written form (30_encoding.md R85, R87) -/

/-- R85, R87: lines of the spec's programs and the commands they stand for. -/
def Obligations.AssembledLines : Prop :=
  assembleLine "CFGW SAMPLE_RATE, 22050    ; 0x0200000000005622" = some [.cfgw 0 22050] ∧
  assembleLine "CFGW FORMAT, WAV" = some [.cfgw 7 0] ∧
  assembleLine "TONE 1500, 10000" = some [.tone 1500 10000] ∧
  assembleLine "RDSR LEN" = some [.rdsr 4] ∧
  assembleLine "PAUSE 1000" = some [.tone 0 1000] ∧
  assembleLine "RUN 0x53" = some [.start, .byte 0x53, .eoi, .write] ∧
  assembleLine "CONFIG 8000, 8000, 2000, 1000, 7, EVEN, 2, AIFF" =
    some [.cfgw 0 8000, .cfgw 1 8000, .cfgw 2 2000, .cfgw 3 1000, .cfgw 4 7, .cfgw 5 2, .cfgw 6 2, .cfgw 7 1]
end

