-- ==== Sys2Proof/Laws/State.lean ====
section
/-! SUPPORT. Each named update of the state, field by field; all true by `rfl`. -/

namespace Sys2Proof.Machine

/-! What fault entry (R200) does to each field. -/

@[simp] theorem State.raise_cfg (kind : ErrKind) (info : Reg32) (s : State) :
    (s.raise kind info).cfg = s.cfg := rfl
@[simp] theorem State.raise_cfgv (kind : ErrKind) (info : Reg32) (s : State) :
    (s.raise kind info).cfgv = s.cfgv := rfl
@[simp] theorem State.raise_ph (kind : ErrKind) (info : Reg32) (s : State) :
    (s.raise kind info).ph = s.ph := rfl
@[simp] theorem State.raise_rem (kind : ErrKind) (info : Reg32) (s : State) :
    (s.raise kind info).rem = s.rem := rfl
@[simp] theorem State.raise_state (kind : ErrKind) (info : Reg32) (s : State) :
    (s.raise kind info).state = .fault := rfl
@[simp] theorem State.raise_err (kind : ErrKind) (info : Reg32) (s : State) :
    (s.raise kind info).err = some kind := rfl
@[simp] theorem State.raise_errInfo (kind : ErrKind) (info : Reg32) (s : State) :
    (s.raise kind info).errInfo = info := rfl
@[simp] theorem State.raise_warn (kind : ErrKind) (info : Reg32) (s : State) :
    (s.raise kind info).warn = s.warn := rfl
@[simp] theorem State.raise_len (kind : ErrKind) (info : Reg32) (s : State) :
    (s.raise kind info).len = s.len := rfl
@[simp] theorem State.raise_sink (kind : ErrKind) (info : Reg32) (s : State) :
    (s.raise kind info).sink = s.sink := rfl
@[simp] theorem State.raise_out (kind : ErrKind) (info : Reg32) (s : State) :
    (s.raise kind info).out = s.out := rfl
@[simp] theorem State.raise_rsp (kind : ErrKind) (info : Reg32) (s : State) :
    (s.raise kind info).rsp = s.rsp := rfl
@[simp] theorem State.raise_port (kind : ErrKind) (info : Reg32) (s : State) :
    (s.raise kind info).port = s.port := rfl
@[simp] theorem State.raise_par (kind : ErrKind) (info : Reg32) (s : State) :
    (s.raise kind info).par = s.par := rfl

/-! What reset (R105, R220) does to each field. -/

@[simp] theorem State.toReset_cfg (s : State) :
    s.toReset.cfg = Vector.replicate 8 0 := rfl
@[simp] theorem State.toReset_cfgv (s : State) :
    s.toReset.cfgv = 0 := rfl
@[simp] theorem State.toReset_ph (s : State) :
    s.toReset.ph = 0 := rfl
@[simp] theorem State.toReset_rem (s : State) :
    s.toReset.rem = 0 := rfl
@[simp] theorem State.toReset_state (s : State) :
    s.toReset.state = .idle := rfl
@[simp] theorem State.toReset_err (s : State) :
    s.toReset.err = none := rfl
@[simp] theorem State.toReset_errInfo (s : State) :
    s.toReset.errInfo = 0 := rfl
@[simp] theorem State.toReset_warn (s : State) :
    s.toReset.warn = 0 := rfl
@[simp] theorem State.toReset_len (s : State) :
    s.toReset.len = 0 := rfl
@[simp] theorem State.toReset_sink (s : State) :
    s.toReset.sink = [] := rfl
@[simp] theorem State.toReset_out (s : State) :
    s.toReset.out = s.out := rfl
@[simp] theorem State.toReset_rsp (s : State) :
    s.toReset.rsp = s.rsp := rfl
@[simp] theorem State.toReset_port (s : State) :
    s.toReset.port = s.port := rfl
@[simp] theorem State.toReset_par (s : State) :
    s.toReset.par = s.par := rfl

/-! What a configuration write (R104) does to each field. -/

@[simp] theorem State.writeCfg_cfg (idx : Fin 8) (value : Reg32) (s : State) :
    (s.writeCfg idx value).cfg = s.cfg.set idx value := rfl
@[simp] theorem State.writeCfg_cfgv (idx : Fin 8) (value : Reg32) (s : State) :
    (s.writeCfg idx value).cfgv = s.cfgv ||| BitVec.twoPow 8 idx.val := rfl
@[simp] theorem State.writeCfg_ph (idx : Fin 8) (value : Reg32) (s : State) :
    (s.writeCfg idx value).ph = s.ph := rfl
@[simp] theorem State.writeCfg_rem (idx : Fin 8) (value : Reg32) (s : State) :
    (s.writeCfg idx value).rem = s.rem := rfl
@[simp] theorem State.writeCfg_state (idx : Fin 8) (value : Reg32) (s : State) :
    (s.writeCfg idx value).state = s.state := rfl
@[simp] theorem State.writeCfg_err (idx : Fin 8) (value : Reg32) (s : State) :
    (s.writeCfg idx value).err = s.err := rfl
@[simp] theorem State.writeCfg_errInfo (idx : Fin 8) (value : Reg32) (s : State) :
    (s.writeCfg idx value).errInfo = s.errInfo := rfl
@[simp] theorem State.writeCfg_warn (idx : Fin 8) (value : Reg32) (s : State) :
    (s.writeCfg idx value).warn = s.warn := rfl
@[simp] theorem State.writeCfg_len (idx : Fin 8) (value : Reg32) (s : State) :
    (s.writeCfg idx value).len = s.len := rfl
@[simp] theorem State.writeCfg_sink (idx : Fin 8) (value : Reg32) (s : State) :
    (s.writeCfg idx value).sink = s.sink := rfl
@[simp] theorem State.writeCfg_out (idx : Fin 8) (value : Reg32) (s : State) :
    (s.writeCfg idx value).out = s.out := rfl
@[simp] theorem State.writeCfg_rsp (idx : Fin 8) (value : Reg32) (s : State) :
    (s.writeCfg idx value).rsp = s.rsp := rfl
@[simp] theorem State.writeCfg_port (idx : Fin 8) (value : Reg32) (s : State) :
    (s.writeCfg idx value).port = s.port := rfl
@[simp] theorem State.writeCfg_par (idx : Fin 8) (value : Reg32) (s : State) :
    (s.writeCfg idx value).par = s.par := rfl

/-! What a response (R54) does to each field. -/

@[simp] theorem State.respond_cfg (v : Reg32) (s : State) :
    (s.respond v).cfg = s.cfg := rfl
@[simp] theorem State.respond_cfgv (v : Reg32) (s : State) :
    (s.respond v).cfgv = s.cfgv := rfl
@[simp] theorem State.respond_ph (v : Reg32) (s : State) :
    (s.respond v).ph = s.ph := rfl
@[simp] theorem State.respond_rem (v : Reg32) (s : State) :
    (s.respond v).rem = s.rem := rfl
@[simp] theorem State.respond_state (v : Reg32) (s : State) :
    (s.respond v).state = s.state := rfl
@[simp] theorem State.respond_err (v : Reg32) (s : State) :
    (s.respond v).err = s.err := rfl
@[simp] theorem State.respond_errInfo (v : Reg32) (s : State) :
    (s.respond v).errInfo = s.errInfo := rfl
@[simp] theorem State.respond_warn (v : Reg32) (s : State) :
    (s.respond v).warn = s.warn := rfl
@[simp] theorem State.respond_len (v : Reg32) (s : State) :
    (s.respond v).len = s.len := rfl
@[simp] theorem State.respond_sink (v : Reg32) (s : State) :
    (s.respond v).sink = s.sink := rfl
@[simp] theorem State.respond_out (v : Reg32) (s : State) :
    (s.respond v).out = s.out := rfl
@[simp] theorem State.respond_rsp (v : Reg32) (s : State) :
    (s.respond v).rsp = s.rsp ++ [v] := rfl
@[simp] theorem State.respond_port (v : Reg32) (s : State) :
    (s.respond v).port = s.port := rfl
@[simp] theorem State.respond_par (v : Reg32) (s : State) :
    (s.respond v).par = s.par := rfl

/-! What the warnings of START (R109) does to each field. -/

@[simp] theorem State.setWarnings_cfg (s : State) :
    s.setWarnings.cfg = s.cfg := rfl
@[simp] theorem State.setWarnings_cfgv (s : State) :
    s.setWarnings.cfgv = s.cfgv := rfl
@[simp] theorem State.setWarnings_ph (s : State) :
    s.setWarnings.ph = s.ph := rfl
@[simp] theorem State.setWarnings_rem (s : State) :
    s.setWarnings.rem = s.rem := rfl
@[simp] theorem State.setWarnings_state (s : State) :
    s.setWarnings.state = s.state := rfl
@[simp] theorem State.setWarnings_err (s : State) :
    s.setWarnings.err = s.err := rfl
@[simp] theorem State.setWarnings_errInfo (s : State) :
    s.setWarnings.errInfo = s.errInfo := rfl
@[simp] theorem State.setWarnings_len (s : State) :
    s.setWarnings.len = s.len := rfl
@[simp] theorem State.setWarnings_sink (s : State) :
    s.setWarnings.sink = s.sink := rfl
@[simp] theorem State.setWarnings_out (s : State) :
    s.setWarnings.out = s.out := rfl
@[simp] theorem State.setWarnings_rsp (s : State) :
    s.setWarnings.rsp = s.rsp := rfl
@[simp] theorem State.setWarnings_port (s : State) :
    s.setWarnings.port = s.port := rfl
@[simp] theorem State.setWarnings_par (s : State) :
    s.setWarnings.par = s.par := rfl

/-! What appended samples (R121, R161) does to each field. -/

@[simp] theorem State.afterSamples_cfg (f k : Nat) (s : State) :
    (s.afterSamples f k).cfg = s.cfg := rfl
@[simp] theorem State.afterSamples_cfgv (f k : Nat) (s : State) :
    (s.afterSamples f k).cfgv = s.cfgv := rfl
@[simp] theorem State.afterSamples_ph (f k : Nat) (s : State) :
    (s.afterSamples f k).ph = s.phaseAfter f k := rfl
@[simp] theorem State.afterSamples_rem (f k : Nat) (s : State) :
    (s.afterSamples f k).rem = s.rem := rfl
@[simp] theorem State.afterSamples_state (f k : Nat) (s : State) :
    (s.afterSamples f k).state = s.state := rfl
@[simp] theorem State.afterSamples_err (f k : Nat) (s : State) :
    (s.afterSamples f k).err = s.err := rfl
@[simp] theorem State.afterSamples_errInfo (f k : Nat) (s : State) :
    (s.afterSamples f k).errInfo = s.errInfo := rfl
@[simp] theorem State.afterSamples_warn (f k : Nat) (s : State) :
    (s.afterSamples f k).warn = s.warn := rfl
@[simp] theorem State.afterSamples_len (f k : Nat) (s : State) :
    (s.afterSamples f k).len = s.len + BitVec.ofNat 32 k := rfl
@[simp] theorem State.afterSamples_sink (f k : Nat) (s : State) :
    (s.afterSamples f k).sink = s.sink ++ s.toneCells f k := rfl
@[simp] theorem State.afterSamples_out (f k : Nat) (s : State) :
    (s.afterSamples f k).out = s.out := rfl
@[simp] theorem State.afterSamples_rsp (f k : Nat) (s : State) :
    (s.afterSamples f k).rsp = s.rsp := rfl
@[simp] theorem State.afterSamples_port (f k : Nat) (s : State) :
    (s.afterSamples f k).port = s.port := rfl
@[simp] theorem State.afterSamples_par (f k : Nat) (s : State) :
    (s.afterSamples f k).par = s.par := rfl

/-! The ends of a pseudocode. -/

@[simp] theorem Flow.final_go (s : State) : (Flow.go s).final = s := rfl
@[simp] theorem Flow.final_raised (s : State) : (Flow.raised s).final = s := rfl
@[simp] theorem Flow.outcome_eq (f : Flow) : f.outcome = .next f.final := rfl
@[simp] theorem Flow.bind_go (s : State) (k : State → Flow) : (Flow.go s).bind k = k s := rfl
@[simp] theorem Flow.bind_raised (s : State) (k : State → Flow) : (Flow.raised s).bind k = .raised s := rfl

end Sys2Proof.Machine
end

