-- ==== Sys2Proof/Laws/Memory.lean ====
section
/-! SUPPORT. `SINK`: read after write, the canonical form, the dense form, `SinkAppend` (43_sample_sink.md). -/

namespace Sys2Proof.Machine

theorem Memory.read_write_same (m : Memory) (a : Nat) (v : Cell) : (m.write a v).read a = some v := by
  induction m with
  | nil => simp [Memory.write, Memory.read]
  | cons p m ih =>
    simp only [Memory.write]
    split
    · simp [Memory.read]
    · split
      · simp [Memory.read]
      · rename_i h1 h2
        simp only [Memory.read, h2, if_false, ih]

theorem Memory.read_write_other (m : Memory) (a b : Nat) (v : Cell) (h : b ≠ a) :
    (m.write a v).read b = m.read b := by
  induction m with
  | nil => simp [Memory.write, Memory.read, h]
  | cons p m ih =>
    simp only [Memory.write]
    split
    · simp [Memory.read, h]
    · split
      · rename_i h1 h2
        subst h2
        simp [Memory.read, h]
      · simp only [Memory.read, ih]

theorem Memory.write_indices (m : Memory) (a : Nat) (v : Cell) (i : Nat) :
    i ∈ (m.write a v).map Prod.fst → i = a ∨ i ∈ m.map Prod.fst := by
  induction m with
  | nil => simp [Memory.write]
  | cons p m ih =>
    simp only [Memory.write]
    split
    · simp
    · split
      · simp only [List.map_cons, List.mem_cons]; tauto
      · simp only [List.map_cons, List.mem_cons]; tauto

/-- A write keeps the canonical form. -/
theorem Memory.write_wf (m : Memory) (a : Nat) (v : Cell) (h : m.wf) : (m.write a v).wf := by
  induction m with
  | nil => simp [Memory.write, Memory.wf]
  | cons p m ih =>
    simp only [Memory.wf, List.map_cons, List.pairwise_cons] at h
    simp only [Memory.write]
    split
    · rename_i h1
      simp only [Memory.wf, List.map_cons, List.pairwise_cons, List.mem_cons]
      refine ⟨?_, h⟩
      rintro i (rfl | hi)
      · exact h1
      · exact h1.trans (h.1 i hi)
    · split
      · rename_i h1 h2
        subst h2
        simpa only [Memory.wf, List.map_cons, List.pairwise_cons] using h
      · rename_i h1 h2
        simp only [Memory.wf, List.map_cons, List.pairwise_cons]
        refine ⟨fun i hi => ?_, ih h.2⟩
        rcases Memory.write_indices m a v i hi with rfl | hi
        · omega
        · exact h.1 i hi

theorem Memory.nil_wf : Memory.wf [] := List.Pairwise.nil

/-- A dense sink is in canonical form. -/
theorem Memory.dense_wf (m : Memory) (n : Nat) (h : m.dense n) : m.wf := by
  unfold Memory.wf
  rw [h]
  exact List.pairwise_lt_range

theorem Memory.dense_length (m : Memory) (n : Nat) (h : m.dense n) : m.length = n := by
  simpa using congrArg List.length h

/-- Every index of a dense sink is below its length. -/
theorem Memory.dense_below (m : Memory) (n : Nat) (h : m.dense n) : ∀ p ∈ m, p.1 < n := by
  intro p hp
  have : p.1 ∈ m.map Prod.fst := List.mem_map_of_mem hp
  rw [h] at this
  exact List.mem_range.1 this

theorem Memory.read_none (m : Memory) (a : Nat) (h : ∀ p ∈ m, p.1 ≠ a) : m.read a = none := by
  induction m with
  | nil => rfl
  | cons p m ih =>
    have hp : ¬ a = p.1 := fun e => h p (by simp) e.symm
    simp only [Memory.read, hp, if_false]
    exact ih fun q hq => h q (by simp [hq])

/-- A dense sink holds a value at `i` exactly when `i` is below its length. -/
theorem Memory.read_dense_isSome (m : Memory) (n i : Nat) (h : m.dense n) :
    (m.read i).isSome = decide (i < n) := by
  by_cases hi : i < n
  · rw [Memory.read_dense m n i h hi]
    have := Memory.dense_length m n h
    simp [hi, this]
  · have hb := Memory.dense_below m n h
    rw [Memory.read_none m i fun p hp => by have := hb p hp; omega]
    simp [hi]

/-- Reading below the index where more cells were appended. -/
theorem Memory.read_append_left (m c : Memory) (n i : Nat) (h : m.dense n) (hi : i < n) :
    (m ++ c).read i = m.read i := by
  have hs : (m.read i).isSome := by rw [Memory.read_dense_isSome m n i h]; simpa
  clear h hi
  induction m with
  | nil => simp [Memory.read] at hs
  | cons p m ih =>
    simp only [List.cons_append, Memory.read] at hs ⊢
    split
    · rfl
    · rename_i hne
      rw [if_neg hne] at hs
      exact ih hs

theorem toneCells_indices (s : State) (f k : Nat) :
    (s.toneCells f k).map Prod.fst = List.range' s.len.toNat k := by
  simp only [State.toneCells, List.map_map, List.range'_eq_map_range]
  rfl

/-- Appended samples keep the sink dense. -/
theorem dense_append (s : State) (f k : Nat) (h : s.sink.dense s.len.toNat) :
    (s.sink ++ s.toneCells f k).dense (s.len.toNat + k) := by
  simp only [Memory.dense, List.map_append, toneCells_indices]
  rw [h, List.range_eq_range', List.range_eq_range', ← List.range'_append_1]
  simp

/-- The appended samples, read back (R163). -/
theorem read_append_right (s : State) (f k j : Nat) (h : s.sink.dense s.len.toNat) (hj : j < k) :
    (s.sink ++ s.toneCells f k).read (s.len.toNat + j) = some (s.toneCell f j) := by
  have hd := dense_append s f k h
  rw [Memory.read_dense _ _ _ hd (by omega)]
  have hl := Memory.dense_length _ _ h
  rw [List.getElem?_append_right (by omega)]
  simp [State.toneCells, hl, hj]

/-- What `SinkAppend` can do (R161). -/
theorem sinkAppend_cases (v : Cell) (s : State) :
    (s.par.maxSamples.val ≤ s.len.toNat ∧ sinkAppend v s = .raised (s.raise .capacityExceededError 0)) ∨
    (s.len.toNat < s.par.maxSamples.val ∧
      sinkAppend v s = .go { s with sink := s.sink.write s.len.toNat v, len := s.len + 1 }) := by
  unfold sinkAppend
  split
  · exact .inl ⟨‹_›, rfl⟩
  · exact .inr ⟨by omega, rfl⟩

end Sys2Proof.Machine
end

