-- ==== Sys2Proof/Laws/Oscillator.lean ====
section
/-! SUPPORT. The oscillator (41_tone_oscillator.md): what a tone, and a sequence of tones, can do. -/

namespace Sys2Proof.Machine

/-- What a tone needs and keeps (R26, R28, R34, R36). -/
abbrev State.oscOk (s : State) : Prop :=
  0 < s.sampleRate ∧ s.ph < s.sampleRate ∧ s.remBound ∧ s.sinkInv

theorem State.period_pos (s : State) (h : 0 < s.sampleRate) : 0 < s.period := by
  have : (0 : Rat) < s.sampleRate := by exact_mod_cast h
  unfold State.period Config.usPerSecond
  positivity

theorem State.bitDuration_nonneg (s : State) : 0 ≤ s.bitDuration := by
  unfold State.bitDuration
  positivity

theorem State.phaseAfter_eq (s : State) (f k : Nat) (h : s.ph < s.sampleRate) :
    s.phaseAfter f k = (s.ph + k * f) % s.sampleRate := by
  unfold State.phaseAfter
  split
  · rename_i h0
    rcases h0 with rfl | rfl
    · simp [Nat.mod_eq_of_lt h]
    · simp [Nat.mod_eq_of_lt h]
  · rfl

/-- `LEN` after appended samples that fit. -/
theorem afterSamples_len_toNat (s : State) (f k : Nat) (h : s.len.toNat + k ≤ s.par.maxSamples.val) :
    (s.afterSamples f k).len.toNat = s.len.toNat + k := by
  have := s.par.maxSamples.isLt
  simp only [State.afterSamples_len, BitVec.toNat_add, BitVec.toNat_ofNat]
  omega

/-- The samples of a request that fits. -/
theorem emitSamples_fits (n f : Nat) (s : State) (hd : s.sinkInv) (h : s.len.toNat + n ≤ s.par.maxSamples.val) :
    emitSamples n f s = .go (s.afterSamples f n) := by
  have hb : s.sinkBelow := Memory.dense_below _ _ hd.1
  rw [emitSamples_closed n f s hb]
  have hk : min n s.room = n := by unfold State.room; omega
  simp only [emitSamplesClosed, hk, le_refl, if_true]

/-- The samples of a request that does not fit (R132). -/
theorem emitSamples_full (n f : Nat) (s : State) (hd : s.sinkInv) (h : s.par.maxSamples.val < s.len.toNat + n) :
    emitSamples n f s =
      .raised ({ s.afterSamples f s.room with
        ph := (s.afterSamples f s.room).phaseAfter f 1 }.raise .capacityExceededError 0) := by
  have hb : s.sinkBelow := Memory.dense_below _ _ hd.1
  rw [emitSamples_closed n f s hb]
  have hk : min n s.room = s.room := by unfold State.room; omega
  have hn : ¬ n ≤ s.room := by unfold State.room; omega
  simp only [emitSamplesClosed, hk, hn, if_false]

/-- The remainder a request leaves (R121). -/
def State.remAfter (s : State) (d : Rat) : Rat := d + s.rem - s.sampleCount d * s.period

/-- The state after a request that fits (R121). -/
def State.afterTone (s : State) (f : Nat) (d : Rat) : State :=
  { s with rem := s.remAfter d }.afterSamples f (s.sampleCount d).toNat

/-- The state in which a request that does not fit raises (R132). -/
def State.fullTone (s : State) (f : Nat) (d : Rat) : State :=
  let u := { s with rem := s.remAfter d }.afterSamples f s.room
  { u with ph := u.phaseAfter f 1 }

theorem tone_fits (f : Nat) (d : Rat) (s : State) (hd : s.sinkInv)
    (h : s.len.toNat + (s.sampleCount d).toNat ≤ s.par.maxSamples.val) :
    tone f d s = .go (s.afterTone f d) :=
  emitSamples_fits _ f { s with rem := s.remAfter d } hd h

theorem tone_full (f : Nat) (d : Rat) (s : State) (hd : s.sinkInv)
    (h : s.par.maxSamples.val < s.len.toNat + (s.sampleCount d).toNat) :
    tone f d s = .raised ((s.fullTone f d).raise .capacityExceededError 0) :=
  emitSamples_full _ f { s with rem := s.remAfter d } hd h

theorem afterTone_same (s : State) (f : Nat) (d : Rat) : s.sameButSound (s.afterTone f d) := rfl

theorem fullTone_same (s : State) (f : Nat) (d : Rat) : s.sameButSound (s.fullTone f d) := rfl

theorem afterTone_len (s : State) (f : Nat) (d : Rat)
    (h : s.len.toNat + (s.sampleCount d).toNat ≤ s.par.maxSamples.val) :
    (s.afterTone f d).len.toNat = s.len.toNat + (s.sampleCount d).toNat :=
  afterSamples_len_toNat { s with rem := s.remAfter d } f _ h

theorem fullTone_len (s : State) (f : Nat) (d : Rat) (h : s.sinkInv) :
    (s.fullTone f d).len.toNat = s.par.maxSamples.val := by
  have h2 := h.2
  have e : s.len.toNat + s.room = s.par.maxSamples.val := by unfold State.room; omega
  have := afterSamples_len_toNat { s with rem := s.remAfter d } f s.room e.le
  exact this.trans e

theorem afterTone_ph (s : State) (f : Nat) (d : Rat) (h : s.ph < s.sampleRate) :
    (s.afterTone f d).ph = (s.ph + (s.sampleCount d).toNat * f) % s.sampleRate :=
  State.phaseAfter_eq s f _ h

theorem fullTone_ph (s : State) (f : Nat) (d : Rat) (h : s.ph < s.sampleRate) :
    (s.fullTone f d).ph = (s.ph + (s.room + 1) * f) % s.sampleRate := by
  have h0 : 0 < s.sampleRate := by omega
  have h1 : (s.afterSamples f s.room).ph = (s.ph + s.room * f) % s.sampleRate :=
    State.phaseAfter_eq s f _ h
  have h2 : (s.fullTone f d).ph = (s.afterSamples f s.room).phaseAfter f 1 := rfl
  rw [h2, State.phaseAfter_eq _ _ _ (by rw [h1]; exact Nat.mod_lt _ h0), h1]
  show ((s.ph + s.room * f) % s.sampleRate + 1 * f) % s.sampleRate = _
  rw [Nat.mod_add_mod]
  congr 1
  ring

theorem afterTone_sink (s : State) (f : Nat) (d : Rat) :
    (s.afterTone f d).sink = s.sink ++ s.toneCells f (s.sampleCount d).toNat := rfl

theorem fullTone_sink (s : State) (f : Nat) (d : Rat) :
    (s.fullTone f d).sink = s.sink ++ s.toneCells f s.room := rfl

theorem remAfter_bound (s : State) (d : Rat) (h : 0 < s.sampleRate) :
    -s.period / 2 ≤ s.remAfter d ∧ s.remAfter d < s.period / 2 :=
  rem_bound s d (s.period_pos h)

theorem afterTone_oscOk (s : State) (f : Nat) (d : Rat) (hs : s.oscOk)
    (h : s.len.toNat + (s.sampleCount d).toNat ≤ s.par.maxSamples.val) : (s.afterTone f d).oscOk := by
  obtain ⟨h0, h1, _, h3⟩ := hs
  refine ⟨h0, ?_, remAfter_bound s d h0, ?_, ?_⟩
  · rw [afterTone_ph s f d h1]; exact Nat.mod_lt _ h0
  · rw [afterTone_len s f d h, afterTone_sink]; exact dense_append s f _ h3.1
  · rw [afterTone_len s f d h]; exact h

theorem fullTone_oscOk (s : State) (f : Nat) (d : Rat) (hs : s.oscOk) : (s.fullTone f d).oscOk := by
  obtain ⟨h0, h1, _, h3⟩ := hs
  have h32 := h3.2
  have e : s.len.toNat + s.room = s.par.maxSamples.val := by unfold State.room; omega
  refine ⟨h0, ?_, remAfter_bound s d h0, ?_, ?_⟩
  · rw [fullTone_ph s f d h1]; exact Nat.mod_lt _ h0
  · rw [fullTone_len s f d h3, fullTone_sink, ← e]; exact dense_append s f _ h3.1
  · rw [fullTone_len s f d h3]; exact le_refl s.par.maxSamples.val

/-- A later request counts on where the earlier one left off (R121, R133). -/
theorem sampleCount_afterTone (s : State) (f : Nat) (d1 d2 : Rat) (h : 0 < s.sampleRate) :
    (s.afterTone f d1).sampleCount d2 = s.sampleCount (d1 + d2) - s.sampleCount d1 := by
  have hT := (s.period_pos h).ne'
  show rhu ((d2 + s.remAfter d1) / s.period) = rhu ((d1 + d2 + s.rem) / s.period) - s.sampleCount d1
  rw [← rhu_sub_int]
  congr 1
  unfold State.remAfter
  field_simp
  ring

theorem remAfter_afterTone (s : State) (f : Nat) (d1 d2 : Rat) (h : 0 < s.sampleRate) :
    (s.afterTone f d1).remAfter d2 = s.remAfter (d1 + d2) := by
  show d2 + s.remAfter d1 - (s.afterTone f d1).sampleCount d2 * s.period = s.remAfter (d1 + d2)
  rw [sampleCount_afterTone s f d1 d2 h]
  unfold State.remAfter
  push_cast
  ring

/-- The samples and the phase of two requests of one frequency are those of one (R133). -/
theorem afterTone_afterTone_len (s : State) (f : Nat) (d1 d2 : Rat) (h : 0 < s.sampleRate)
    (h1 : 0 ≤ s.sampleCount d1) (h2 : s.sampleCount d1 ≤ s.sampleCount (d1 + d2)) :
    (s.sampleCount (d1 + d2)).toNat = (s.sampleCount d1).toNat + ((s.afterTone f d1).sampleCount d2).toNat := by
  rw [sampleCount_afterTone s f d1 d2 h]; omega

theorem sampleCount_zero (s : State) (hs : s.oscOk) : s.sampleCount 0 = 0 ∧ s.remAfter 0 = s.rem := by
  have hT := s.period_pos hs.1
  have h0 : s.sampleCount 0 = 0 := by
    show ⌊(0 + s.rem) / s.period + 1 / 2⌋ = 0
    rw [Int.floor_eq_iff]
    obtain ⟨ha, hb⟩ := hs.2.2.1
    constructor
    · have : -1 / 2 ≤ (0 + s.rem) / s.period := by rw [le_div_iff₀ hT]; linarith
      push_cast; linarith
    · have : (0 + s.rem) / s.period < 1 / 2 := by rw [div_lt_iff₀ hT]; linarith
      push_cast; linarith
  exact ⟨h0, by simp [State.remAfter, h0]⟩

/-- What a sequence of requests of one duration leaves, when it raises nothing. -/
structure SoundsTo (s t : State) (d : Rat) : Prop where
  same : s.sameButSound t
  ok : t.oscOk
  len : t.len.toNat = s.len.toNat + (s.sampleCount d).toNat
  rem : t.rem = s.remAfter d
  sink : ∃ c, t.sink = s.sink ++ c

/-- Where a sequence of requests that does not fit raises. -/
structure FillsTo (s u : State) : Prop where
  same : s.sameButSound u
  ok : u.oscOk
  len : u.len.toNat = s.par.maxSamples.val
  sink : ∃ c, u.sink = s.sink ++ c

theorem tone_soundsTo (s : State) (f : Nat) (d : Rat) (hs : s.oscOk)
    (h : s.len.toNat + (s.sampleCount d).toNat ≤ s.par.maxSamples.val) : SoundsTo s (s.afterTone f d) d :=
  ⟨rfl, afterTone_oscOk s f d hs h, afterTone_len s f d h, rfl, _, rfl⟩

theorem tone_fillsTo (s : State) (f : Nat) (d : Rat) (hs : s.oscOk) : FillsTo s (s.fullTone f d) :=
  ⟨rfl, fullTone_oscOk s f d hs, fullTone_len s f d hs.2.2.2, _, rfl⟩

/-- What `for each freq: tone(freq, d)` can do: all of it where the total fits, a capacity error otherwise. -/
theorem toneEach_cases (fs : List Nat) (d : Rat) (s : State) (hd : 0 ≤ d) (hs : s.oscOk) :
    (s.len.toNat + (s.sampleCount (fs.length * d)).toNat ≤ s.par.maxSamples.val ∧
      ∃ t, toneEach fs d s = .go t ∧ SoundsTo s t (fs.length * d)) ∨
    (s.par.maxSamples.val < s.len.toNat + (s.sampleCount (fs.length * d)).toNat ∧
      ∃ u, toneEach fs d s = .raised (u.raise .capacityExceededError 0) ∧ FillsTo s u) := by
  induction fs generalizing s with
  | nil =>
    left
    obtain ⟨h0, hr⟩ := sampleCount_zero s hs
    have hz : ((([] : List Nat).length : Nat) : Rat) * d = 0 := by simp
    rw [hz, h0]
    refine ⟨by simpa using hs.2.2.2.2, s, rfl, rfl, hs, by simp [h0], hr.symm, [], by simp⟩
  | cons f fs ih =>
    have hlen : (((f :: fs).length : Nat) : Rat) * d = d + fs.length * d := by
      rw [List.length_cons]; push_cast; ring
    have hnn : (0 : Rat) ≤ fs.length * d := by positivity
    have hT := s.period_pos hs.1
    have h1 := sampleCount_nonneg s d hT hs.2.2.1.1 hd
    have h2 := sampleCount_mono s d (d + fs.length * d) hT (by linarith)
    have hsum := afterTone_afterTone_len s f d (fs.length * d) hs.1 h1 h2
    rw [hlen, toneEach]
    by_cases hfit : s.len.toNat + (s.sampleCount d).toNat ≤ s.par.maxSamples.val
    · rw [tone_fits f d s hs.2.2.2 hfit, Flow.bind_go]
      have hl := afterTone_len s f d hfit
      have hso := tone_soundsTo s f d hs hfit
      have hmax : (s.afterTone f d).par.maxSamples.val = s.par.maxSamples.val := rfl
      rcases ih (s.afterTone f d) hso.ok with ⟨hle, t, ht, hst⟩ | ⟨hgt, u, hu, hsu⟩
      · left
        refine ⟨by omega, t, ht, ?_, hst.ok, ?_, ?_, ?_⟩
        · have := hst.same
          rw [State.sameButSound] at this ⊢
          rw [this]; rfl
        · rw [hst.len, hl, hsum]; omega
        · rw [hst.rem, remAfter_afterTone s f _ _ hs.1]
        · obtain ⟨c, hc⟩ := hst.sink
          exact ⟨_, by rw [hc, afterTone_sink, List.append_assoc]⟩
      · right
        refine ⟨by omega, u, hu, ?_, hsu.ok, hsu.len, ?_⟩
        · have := hsu.same
          rw [State.sameButSound] at this ⊢
          rw [this]; rfl
        · obtain ⟨c, hc⟩ := hsu.sink
          exact ⟨_, by rw [hc, afterTone_sink, List.append_assoc]⟩
    · right
      rw [tone_full f d s hs.2.2.2 (by omega), Flow.bind_raised]
      exact ⟨by omega, _, rfl, tone_fillsTo s f d hs⟩

/-! ### What a sequence of requests of one duration plays -/

/-- How many samples the first `k` requests of `d` microseconds each make (R121, R133). -/
def State.samplesOf (s : State) (d : Rat) (k : Nat) : Nat := (s.sampleCount (k * d)).toNat

/-- `PH` before request `k` (from 0) of the frequencies `fs` (R124, R129). -/
def State.phaseOf (s : State) (fs : List Nat) (d : Rat) (k : Nat) : Nat :=
  (s.ph + ∑ i ∈ Finset.range k, (s.samplesOf d (i + 1) - s.samplesOf d i) * fs.getD i 0) % s.sampleRate

theorem samplesOf_zero (s : State) (d : Rat) (hs : s.oscOk) : s.samplesOf d 0 = 0 := by
  simp [State.samplesOf, (sampleCount_zero s hs).1]

theorem samplesOf_one (s : State) (d : Rat) : s.samplesOf d 1 = (s.sampleCount d).toNat := by
  simp [State.samplesOf]

theorem samplesOf_mono (s : State) (d : Rat) (hd : 0 ≤ d) (hs : s.oscOk) {j k : Nat} (h : j ≤ k) :
    s.samplesOf d j ≤ s.samplesOf d k := by
  have hjk : (j : Rat) * d ≤ k * d := mul_le_mul_of_nonneg_right (by exact_mod_cast h) hd
  exact Int.toNat_le_toNat (sampleCount_mono s _ _ (s.period_pos hs.1) hjk)

/-- The later requests count on from the first. -/
theorem samplesOf_succ (s : State) (f : Nat) (d : Rat) (hd : 0 ≤ d) (hs : s.oscOk) (k : Nat) :
    s.samplesOf d (k + 1) = s.samplesOf d 1 + (s.afterTone f d).samplesOf d k := by
  have hT := s.period_pos hs.1
  have hk : (0 : Rat) ≤ k * d := by positivity
  have hsum := afterTone_afterTone_len s f d (k * d) hs.1 (sampleCount_nonneg s d hT hs.2.2.1.1 hd)
    (sampleCount_mono s d (d + k * d) hT (by linarith))
  have he : ((k + 1 : Nat) : Rat) * d = d + k * d := by push_cast; ring
  rw [samplesOf_one, State.samplesOf, State.samplesOf, he, hsum]

/-- The phase of the later requests goes on from the first (R129). -/
theorem phaseOf_succ (s : State) (f : Nat) (fs : List Nat) (d : Rat) (hd : 0 ≤ d) (hs : s.oscOk) (k : Nat) :
    s.phaseOf (f :: fs) d (k + 1) = (s.afterTone f d).phaseOf fs d k := by
  have hph := afterTone_ph s f d hs.2.1
  have h0 := samplesOf_zero s d hs
  have hstep : ∀ i, s.samplesOf d (i + 1 + 1) - s.samplesOf d (i + 1) =
      (s.afterTone f d).samplesOf d (i + 1) - (s.afterTone f d).samplesOf d i := by
    intro i
    rw [samplesOf_succ s f d hd hs (i + 1), samplesOf_succ s f d hd hs i]
    omega
  unfold State.phaseOf
  rw [Finset.sum_range_succ', hph, ← samplesOf_one, h0]
  simp only [hstep, List.getD_cons_succ, List.getD_cons_zero, Nat.sub_zero, Nat.zero_add]
  show _ = ((s.ph + s.samplesOf d 1 * f) % s.sampleRate + _) % s.sampleRate
  rw [Nat.mod_add_mod]
  congr 1
  ring

/-- What a sequence of requests that fits plays: the phase it leaves, and every sample of every request. -/
theorem toneEach_plays (fs : List Nat) (d : Rat) (s : State) (hd : 0 ≤ d) (hs : s.oscOk)
    (hfit : s.len.toNat + s.samplesOf d fs.length ≤ s.par.maxSamples.val) :
    ∃ t, toneEach fs d s = .go t ∧ t.ph = s.phaseOf fs d fs.length ∧
      ∀ k f, fs[k]? = some f → ∀ j < s.samplesOf d (k + 1) - s.samplesOf d k,
        t.sink.read (s.len.toNat + s.samplesOf d k + j) = some (if f = 0 then s.par.zeroLevel else
          BitVec.ofInt 16
            (Config.sample s.par.amp ((s.phaseOf fs d k + (j + 1) * f) % s.sampleRate) s.sampleRate)) := by
  induction fs generalizing s with
  | nil =>
    refine ⟨s, rfl, ?_, by simp⟩
    simp [State.phaseOf, Nat.mod_eq_of_lt hs.2.1]
  | cons f fs ih =>
    rw [List.length_cons, samplesOf_succ s f d hd hs] at hfit
    have hfit1 : s.len.toNat + (s.sampleCount d).toNat ≤ s.par.maxSamples.val := by
      rw [← samplesOf_one]; omega
    have hl := afterTone_len s f d hfit1
    rw [← samplesOf_one] at hl
    have hok := afterTone_oscOk s f d hs hfit1
    have hfit2 : (s.afterTone f d).len.toNat + (s.afterTone f d).samplesOf d fs.length ≤ s.par.maxSamples.val := by
      omega
    obtain ⟨t, ht, hph, hcells⟩ := ih (s.afterTone f d) hok hfit2
    refine ⟨t, by rw [toneEach, tone_fits f d s hs.2.2.2 hfit1]; exact ht, ?_, ?_⟩
    · rw [hph, List.length_cons, phaseOf_succ s f fs d hd hs]
    · intro k g hk j hj
      cases k with
      | zero =>
        obtain rfl : f = g := by simpa using hk
        rw [samplesOf_zero s d hs, samplesOf_one] at hj
        have hkept : t.sink.read (s.len.toNat + j) = (s.afterTone f d).sink.read (s.len.toNat + j) := by
          rcases toneEach_cases fs d (s.afterTone f d) hd hok with ⟨_, u, hu, hsu⟩ | ⟨_, u, hu, _⟩
          · obtain rfl : t = u := by rw [ht] at hu; injection hu
            obtain ⟨c, hc⟩ := hsu.sink
            rw [hc]
            exact Memory.read_append_left _ _ _ _ hok.2.2.2.1 (by rw [hl, samplesOf_one]; omega)
          · rw [ht] at hu; cases hu
        rw [samplesOf_zero s d hs, Nat.add_zero, hkept, afterTone_sink,
          read_append_right s f _ j hs.2.2.2.1 (by omega)]
        simp [State.toneCell, State.phaseOf, Nat.mod_eq_of_lt hs.2.1]
      | succ k =>
        rw [samplesOf_succ s f d hd hs (k + 1), samplesOf_succ s f d hd hs k] at hj
        have := hcells k g (by simpa using hk) j (by omega)
        rw [hl] at this
        rw [samplesOf_succ s f d hd hs k, phaseOf_succ s f fs d hd hs, ← Nat.add_assoc]
        exact this

/-- What `repeat n times: tone(f, d)` can do: one request of the total (R133), or a capacity error. -/
theorem repeatTone_cases (n f : Nat) (d : Rat) (s : State) (hd : 0 ≤ d) (hs : s.oscOk) :
    (s.len.toNat + (s.sampleCount (n * d)).toNat ≤ s.par.maxSamples.val ∧
      repeatTone n f d s = .go (s.afterTone f (n * d))) ∨
    (s.par.maxSamples.val < s.len.toNat + (s.sampleCount (n * d)).toNat ∧
      ∃ u, repeatTone n f d s = .raised (u.raise .capacityExceededError 0) ∧ FillsTo s u) := by
  by_cases h : s.len.toNat + (s.sampleCount (n * d)).toNat ≤ s.par.maxSamples.val
  · exact .inl ⟨h, repeatTone_eq_tone n f d s (s.period_pos hs.1) hs.2.2.1 hd _ (tone_fits f _ s hs.2.2.2 h)⟩
  · right
    have := toneEach_cases (List.replicate n f) d s hd hs
    rw [toneEach_replicate, List.length_replicate] at this
    rcases this with ⟨hle, -⟩ | h2
    · exact absurd hle h
    · exact h2

end Sys2Proof.Machine
end

