-- ==== Sys2Proof/Laws/Commands.lean ====
section
/-! SUPPORT. What each command can do (40_control.md R100): one lemma for each shared check and each pseudocode. -/

namespace Sys2Proof.Machine

/-- What the dispatch check can do (R100 steps 4, 6, 7). -/
theorem checked_cases (i : Instr) (s : State) (body : State → Host.Outcome State Fault Refusal) :
    (s.state = .fault ∧ checked i s body = .next s) ∨
    (s.state ≠ .fault ∧ legalIn i s.state = false ∧
      checked i s body = .next (s.raise .illegalCommand (upperHalf (encode i)))) ∨
    (s.state ≠ .fault ∧ legalIn i s.state = true ∧ checked i s body = body s) := by
  unfold checked illegalWord
  by_cases hf : s.state = .fault
  · left; simp [hf]
  · cases hl : legalIn i s.state
    · right; left; simp [hf]
    · right; right; simp [hf]

/-- A legal command runs. -/
theorem checked_runs (i : Instr) (s : State) (body : State → Host.Outcome State Fault Refusal)
    (hf : s.state ≠ .fault) (hl : legalIn i s.state = true) : checked i s body = body s := by
  simp [checked, hf, hl]

theorem illegalWord_cases (w : CmdWord) (s : State) :
    (s.state = .fault ∧ illegalWord w s = .next s) ∨
    (s.state ≠ .fault ∧ illegalWord w s = .next (s.raise .illegalCommand (upperHalf w))) := by
  unfold illegalWord
  by_cases hf : s.state = .fault
  · left; simp [hf]
  · right; simp [hf]

/-- Bit `i` of the configuration mask (R108). -/
theorem configMask_getLsbD (s : State) (i : Nat) : s.configMask.getLsbD i = (decide (i < 8) && s.cfgBad i) := by
  unfold State.configMask
  by_cases h : i < 8
  · have : i = 0 ∨ i = 1 ∨ i = 2 ∨ i = 3 ∨ i = 4 ∨ i = 5 ∨ i = 6 ∨ i = 7 := by omega
    rcases this with rfl | rfl | rfl | rfl | rfl | rfl | rfl | rfl <;> simp [BitVec.ofBoolListLE]
  · rw [BitVec.getLsbD_of_ge _ _ (by simpa using h)]
    simp [h]

/-- No register offends exactly when the configuration is legal (R22, R108). -/
theorem configMask_zero_iff (s : State) : s.configMask = 0 ↔ s.configLegal := by
  have key : s.configMask = 0 ↔ ∀ i, i < 8 → s.cfgBad i = false := by
    constructor
    · intro h i hi
      have := configMask_getLsbD s i
      rw [h] at this
      simpa [hi] using this.symm
    · intro h
      apply BitVec.eq_of_getLsbD_eq
      intro i hi
      rw [configMask_getLsbD]
      simp [hi, h i hi]
  rw [key]
  have hcfgv : s.cfgv = 0xFF ↔ ∀ i, i < 8 → s.cfgv.getLsbD i = true := by
    constructor
    · intro h i hi
      rw [h]
      have : i = 0 ∨ i = 1 ∨ i = 2 ∨ i = 3 ∨ i = 4 ∨ i = 5 ∨ i = 6 ∨ i = 7 := by omega
      rcases this with rfl | rfl | rfl | rfl | rfl | rfl | rfl | rfl <;> rfl
    · intro h
      apply BitVec.eq_of_getLsbD_eq
      intro i hi
      rw [h i hi]
      have : i = 0 ∨ i = 1 ∨ i = 2 ∨ i = 3 ∨ i = 4 ∨ i = 5 ∨ i = 6 ∨ i = 7 := by omega
      rcases this with rfl | rfl | rfl | rfl | rfl | rfl | rfl | rfl <;> rfl
  unfold State.configLegal
  rw [hcfgv]
  constructor
  · intro h
    refine ⟨fun i hi => ?_, ?_, ?_, ?_, ?_, ?_⟩
    · have := h i hi
      simp only [State.cfgBad, Bool.or_eq_false_iff, Bool.not_eq_false'] at this
      exact this.1
    · have := h 0 (by omega)
      simp [State.cfgBad, State.cfgIllegal] at this
      omega
    · have := h 1 (by omega)
      simp [State.cfgBad, State.cfgIllegal] at this
      omega
    · have := h 4 (by omega)
      simp [State.cfgBad, State.cfgIllegal] at this
      omega
    · have := h 5 (by omega)
      simp [State.cfgBad, State.cfgIllegal] at this
      omega
    · have := h 7 (by omega)
      simp [State.cfgBad, State.cfgIllegal] at this
      omega
  · rintro ⟨hv, h0, h1, h4, h5, h7⟩ i hi
    simp only [State.cfgBad, hv i hi, Bool.not_true, Bool.false_or]
    have : i = 0 ∨ i = 1 ∨ i = 2 ∨ i = 3 ∨ i = 4 ∨ i = 5 ∨ i = 6 ∨ i = 7 := by omega
    rcases this with rfl | rfl | rfl | rfl | rfl | rfl | rfl | rfl <;>
      simp [State.cfgIllegal] <;> omega

/-- What `CommitConfig` can do (R108). -/
theorem commitConfig_cases (s : State) :
    (s.configLegal ∧ commitConfig s = .go s) ∨
    (¬ s.configLegal ∧ s.configMask ≠ 0 ∧
      commitConfig s = .raised (s.raise .configurationError (s.configMask.setWidth 32))) := by
  unfold commitConfig
  by_cases h : s.configMask = 0
  · exact .inl ⟨(configMask_zero_iff s).1 h, by rw [if_pos h]⟩
  · exact .inr ⟨fun hc => h ((configMask_zero_iff s).2 hc), h, by rw [if_neg h]⟩

/-- What the pseudocode of `START` can do with a legal configuration (R147). -/
theorem startRun_cases (s : State) (hc : s.configLegal) (hs : s.oscOk) :
    (s.len.toNat + (s.sampleCount (Config.preBits * s.bitDuration)).toNat ≤ s.par.maxSamples.val ∧
      startRun s = .go { s.setWarnings.afterTone s.markFreq (Config.preBits * s.bitDuration) with state := .run }) ∨
    (s.par.maxSamples.val < s.len.toNat + (s.sampleCount (Config.preBits * s.bitDuration)).toNat ∧
      ∃ u, startRun s = .raised (u.raise .capacityExceededError 0) ∧ FillsTo s.setWarnings u) := by
  have hcc : commitConfig s = .go s := by
    rcases commitConfig_cases s with ⟨-, h⟩ | ⟨h, -⟩
    · exact h
    · exact absurd hc h
  have hw : s.setWarnings.oscOk := hs
  unfold startRun
  rw [hcc, Flow.bind_go]
  rcases repeatTone_cases Config.preBits s.markFreq s.bitDuration s.setWarnings s.bitDuration_nonneg hw with
    ⟨hle, h⟩ | ⟨hgt, u, h, hu⟩
  · left
    exact ⟨hle, by rw [h]; rfl⟩
  · right
    exact ⟨hgt, u, by rw [h]; rfl, hu⟩

/-- What the pseudocode of `BYTE` can do (R148). -/
theorem sendFrame_cases (x : Byte) (s : State) (hs : s.oscOk) :
    (s.len.toNat + (s.sampleCount ((s.frameTones x).length * s.bitDuration)).toNat ≤ s.par.maxSamples.val ∧
      ∃ t, sendFrame x s = .go t ∧ SoundsTo s t ((s.frameTones x).length * s.bitDuration)) ∨
    (s.par.maxSamples.val < s.len.toNat + (s.sampleCount ((s.frameTones x).length * s.bitDuration)).toNat ∧
      ∃ u, sendFrame x s = .raised (u.raise .capacityExceededError 0) ∧ FillsTo s u) :=
  toneEach_cases (s.frameTones x) s.bitDuration s s.bitDuration_nonneg hs

/-- What the pseudocode of `EOI` can do (R149). -/
theorem endOfInput_cases (s : State) (hs : s.oscOk) :
    (s.len.toNat + (s.sampleCount (Config.postBits * s.bitDuration)).toNat ≤ s.par.maxSamples.val ∧
      endOfInput s = .go { s.afterTone s.markFreq (Config.postBits * s.bitDuration) with state := .closed }) ∨
    (s.par.maxSamples.val < s.len.toNat + (s.sampleCount (Config.postBits * s.bitDuration)).toNat ∧
      ∃ u, endOfInput s = .raised (u.raise .capacityExceededError 0) ∧ FillsTo s u) := by
  unfold endOfInput
  rcases repeatTone_cases Config.postBits s.markFreq s.bitDuration s s.bitDuration_nonneg hs with
    ⟨hle, h⟩ | ⟨hgt, u, h, hu⟩
  · left
    exact ⟨hle, by rw [h]; rfl⟩
  · right
    exact ⟨hgt, u, by rw [h]; rfl, hu⟩

/-- What one tone can do (R121, R132). -/
theorem tone_cases (f : Nat) (d : Rat) (s : State) (hs : s.oscOk) :
    (s.len.toNat + (s.sampleCount d).toNat ≤ s.par.maxSamples.val ∧ tone f d s = .go (s.afterTone f d)) ∨
    (s.par.maxSamples.val < s.len.toNat + (s.sampleCount d).toNat ∧
      tone f d s = .raised ((s.fullTone f d).raise .capacityExceededError 0)) := by
  by_cases h : s.len.toNat + (s.sampleCount d).toNat ≤ s.par.maxSamples.val
  · exact .inl ⟨h, tone_fits f d s hs.2.2.2 h⟩
  · exact .inr ⟨by omega, tone_full f d s hs.2.2.2 (by omega)⟩

/-- The file `WRITE` emits of a dense sink (R171, R175). -/
def State.file (s : State) : List Byte :=
  if s.format = 0 then wavHeader s.sampleRate s.len.toNat ++ s.sink.flatMap fun p => wavSample p.2
  else aiffHeader s.sampleRate s.len.toNat ++ s.sink.flatMap fun p => aiffSample p.2

theorem emitFile_dense (header : List Byte) (enc : Cell → List Byte) (s : State)
    (h : s.sink.dense s.len.toNat) :
    emitFile header enc s =
      .next { s with out := s.out ++ (header ++ s.sink.flatMap fun p => enc p.2), state := .done } := by
  unfold emitFile
  rw [sampleBytes_dense enc s _ _ 0 h (by omega)]
  simp

/-- What the pseudocode of `WRITE` does with a dense sink (R170, R181). -/
theorem writeFile_dense (s : State) (h : s.sink.dense s.len.toNat) :
    writeFile s = .next { s with out := s.out ++ s.file, state := .done } := by
  unfold writeFile State.file
  split
  · exact emitFile_dense _ _ s h
  · exact emitFile_dense _ _ s h

/-- What `emitFile` can do in any state. -/
theorem emitFile_cases (header : List Byte) (enc : Cell → List Byte) (s : State) :
    (∃ r, emitFile header enc s = .fault r) ∨
    (∃ bytes, emitFile header enc s = .next { s with out := s.out ++ header ++ bytes, state := .done }) := by
  unfold emitFile
  cases sampleBytes enc s s.len.toNat 0 with
  | error r => exact .inl ⟨r, rfl⟩
  | ok bytes => exact .inr ⟨bytes, rfl⟩

/-- What `WRITE` can do in any state. -/
theorem writeFile_cases (s : State) :
    (∃ r, writeFile s = .fault r) ∨
    (∃ bytes, writeFile s = .next { s with out := s.out ++ bytes, state := .done }) := by
  unfold writeFile
  split
  · rcases emitFile_cases (wavHeader s.sampleRate s.len.toNat) wavSample s with h | ⟨b, h⟩
    · exact .inl h
    · exact .inr ⟨wavHeader s.sampleRate s.len.toNat ++ b, by rw [h, List.append_assoc]⟩
  · rcases emitFile_cases (aiffHeader s.sampleRate s.len.toNat) aiffSample s with h | ⟨b, h⟩
    · exact .inl h
    · exact .inr ⟨aiffHeader s.sampleRate s.len.toNat ++ b, by rw [h, List.append_assoc]⟩

end Sys2Proof.Machine
end

