-- ==== Sys2Proof/Laws/Container.lean ====
section
/-! SUPPORT. Byte lists (00_scope.md R13), lengths and places in the file (44_container_writer.md). -/

namespace Sys2Proof.Machine

theorem u16le_bytes (v : Nat) : u16le v = [byteOf v 0, byteOf v 1] := by
  simp only [u16le, byteOf, List.cons.injEq, and_true]
  refine ⟨?_, ?_⟩ <;> apply BitVec.eq_of_toNat_eq <;> simp

theorem u32le_bytes (v : Nat) : u32le v = [byteOf v 0, byteOf v 1, byteOf v 2, byteOf v 3] := by
  simp only [u32le, byteOf, List.cons.injEq, and_true]
  refine ⟨?_, ?_, ?_, ?_⟩ <;> apply BitVec.eq_of_toNat_eq <;> simp

/-- The number that four bytes hold. -/
theorem littleEndian_four (v : Nat) (h : v < 2 ^ 32) :
    littleEndian [byteOf v 0, byteOf v 1, byteOf v 2, byteOf v 3] = v := by
  simp [littleEndian, byteOf]; omega

theorem ext80_length (r : Nat) : (ext80 r).length = 10 := by
  simp [ext80, u16be, u16le, u64be, u32be, u32le]

theorem wavHeader_length (fs n : Nat) : (wavHeader fs n).length = 44 := by
  simp [wavHeader, u32le, u16le, tagRiff, tagWave, tagFmt, tagData]

theorem aiffHeader_length (fs n : Nat) : (aiffHeader fs n).length = 54 := by
  simp [aiffHeader, u32be, u32le, u16be, u16le, ext80_length, tagForm, tagAiff, tagComm, tagSsnd]

/-- Samples of two bytes each: the length of the payload, and its bytes by sample. -/
theorem payload_two (m : Memory) (enc : Cell → List Byte) (a b : Cell → Byte) (h : ∀ v, enc v = [a v, b v]) :
    (m.flatMap fun p => enc p.2).length = 2 * m.length ∧
    ∀ i (hi : i < m.length),
      (m.flatMap fun p => enc p.2)[2 * i]? = some (a (m[i]).2) ∧
      (m.flatMap fun p => enc p.2)[2 * i + 1]? = some (b (m[i]).2) := by
  induction m with
  | nil => simp
  | cons p m ih =>
    simp only [List.flatMap_cons, h, List.length_append, List.length_cons, List.length_nil] at ih ⊢
    refine ⟨by rw [ih.1]; ring, ?_⟩
    intro i hi
    cases i with
    | zero => simp
    | succ i =>
      have := ih.2 i (by omega)
      rw [show 2 * (i + 1) = 2 * i + 2 by ring, show 2 * i + 2 + 1 = (2 * i + 1) + 2 by ring]
      simpa using this

/-- The file's length (R172, R176). -/
theorem file_length (s : State) (h : s.sink.dense s.len.toNat) :
    s.file.length = (if s.format = 0 then 44 else 54) + 2 * s.len.toNat := by
  have hl := Memory.dense_length _ _ h
  unfold State.file
  split
  · rw [List.length_append, wavHeader_length, (payload_two s.sink wavSample _ _ (fun _ => rfl)).1, hl]
  · rw [List.length_append, aiffHeader_length, (payload_two s.sink aiffSample _ _ (fun _ => rfl)).1, hl]

end Sys2Proof.Machine
end

