-- ==== Sys2Proof/Laws/Encoding.lean ====
section
/-! SUPPORT. The fields of a command word put together and taken apart (30_encoding.md R70, R81). -/

namespace Sys2Proof

theorem append_toNat {m n : Nat} (x : BitVec m) (y : BitVec n) :
    (x ++ y).toNat = x.toNat * 2 ^ n + y.toNat := by
  rw [BitVec.toNat_append, ← Nat.shiftLeft_add_eq_or_of_lt y.isLt, Nat.shiftLeft_eq]

theorem assemble_toNat (op : BitVec 8) (a : BitVec 24) (b : BitVec 32) :
    (assemble op a b).toNat = (op.toNat * 2 ^ 24 + a.toNat) * 2 ^ 32 + b.toNat := by
  show ((op ++ a) ++ b).toNat = _
  rw [append_toNat, append_toNat]

theorem fieldOp_toNat (w : CmdWord) : (fieldOp w).toNat = w.toNat / 2 ^ 56 := by
  have := w.isLt
  simp only [fieldOp, BitVec.extractLsb'_toNat, Nat.shiftRight_eq_div_pow]
  omega

theorem fieldA_toNat (w : CmdWord) : (fieldA w).toNat = w.toNat / 2 ^ 32 % 2 ^ 24 := by
  simp only [fieldA, BitVec.extractLsb'_toNat, Nat.shiftRight_eq_div_pow]

theorem fieldB_toNat (w : CmdWord) : (fieldB w).toNat = w.toNat % 2 ^ 32 := by
  simp [fieldB, BitVec.extractLsb'_toNat]

theorem upperHalf_toNat (w : CmdWord) : (upperHalf w).toNat = w.toNat / 2 ^ 32 := by
  have := w.isLt
  simp only [upperHalf, BitVec.extractLsb'_toNat, Nat.shiftRight_eq_div_pow]
  omega

theorem registerNumber_val (a : BitVec 24) : (registerNumber a).val = a.toNat % 8 := by
  simp [registerNumber]

theorem upperANotZero_iff (a : BitVec 24) : upperANotZero a = true ↔ a.toNat / 8 ≠ 0 := by
  have := a.isLt
  have h : (a.extractLsb' 3 21).toNat = a.toNat / 8 := by
    rw [BitVec.extractLsb'_toNat, Nat.shiftRight_eq_div_pow]; omega
  simp only [upperANotZero, bne_iff_ne, ne_eq, ← BitVec.toNat_inj, h]
  rfl

@[simp] theorem fieldOp_assemble (op : BitVec 8) (a : BitVec 24) (b : BitVec 32) :
    fieldOp (assemble op a b) = op := by
  apply BitVec.eq_of_toNat_eq
  have := a.isLt; have := b.isLt
  rw [fieldOp_toNat, assemble_toNat]
  omega

@[simp] theorem fieldA_assemble (op : BitVec 8) (a : BitVec 24) (b : BitVec 32) :
    fieldA (assemble op a b) = a := by
  apply BitVec.eq_of_toNat_eq
  have := a.isLt; have := b.isLt
  rw [fieldA_toNat, assemble_toNat]
  omega

@[simp] theorem fieldB_assemble (op : BitVec 8) (a : BitVec 24) (b : BitVec 32) :
    fieldB (assemble op a b) = b := by
  apply BitVec.eq_of_toNat_eq
  have := b.isLt
  rw [fieldB_toNat, assemble_toNat]
  omega

/-- A word is its three fields. -/
theorem assemble_fields (w : CmdWord) : assemble (fieldOp w) (fieldA w) (fieldB w) = w := by
  apply BitVec.eq_of_toNat_eq
  have := w.isLt
  rw [assemble_toNat, fieldOp_toNat, fieldA_toNat, fieldB_toNat]
  omega

/-- Two words with the same fields are the same. -/
theorem word_ext (v w : CmdWord) (h1 : fieldOp v = fieldOp w) (h2 : fieldA v = fieldA w)
    (h3 : fieldB v = fieldB w) : v = w := by
  rw [← assemble_fields v, ← assemble_fields w, h1, h2, h3]

/-- Masks of whole fields, on an assembled word. -/
theorem assemble_and (op op' : BitVec 8) (a a' : BitVec 24) (b b' : BitVec 32) :
    assemble op a b &&& assemble op' a' b' = assemble (op &&& op') (a &&& a') (b &&& b') := by
  apply BitVec.eq_of_getLsbD_eq
  intro i _
  simp only [assemble, BitVec.getLsbD_and, BitVec.getLsbD_append]
  split
  · rfl
  · split <;> rfl

end Sys2Proof
end

