-- ==== Sys2Proof/Laws/PerInstr.lean ====
section
/-! SUPPORT. Statements made of every command, one lemma a constructor. -/

namespace Sys2Proof.Laws

/-! ## TableRow: the encoded word fits the command's row of opcode_table.json (R73 to R80) -/

/-- The word of `i` has, under the mask of its row, the row's pattern, and the row is in the table. -/
def TableRow.Statement (i : Instr) : Prop :=
  i.row.fits (encode i) = true ∧ i.row ∈ opcodeTable

/-- A row whose mask is the fields `mo`, `ma`, `mb`. -/
theorem row_fits (i : Instr) (mo : BitVec 8) (ma : BitVec 24) (mb : BitVec 32)
    (hm : i.row.mask = assemble mo ma mb)
    (hp : assemble (opcode i &&& mo) (operandA i &&& ma) (operandB i &&& mb) = i.row.pattern) :
    i.row.fits (encode i) = true := by
  simp only [OpcodeRow.fits, beq_iff_eq, hm, encode, assemble_and, hp]

theorem register_mask : ∀ i : Fin 8, BitVec.ofNat 24 i.val &&& 0xFFFFF8 = 0 := by decide

theorem TableRow.reset : TableRow.Statement .reset := ⟨by decide, by decide⟩

theorem TableRow.cfgw (idx : Fin 8) (value : Reg32) : TableRow.Statement (.cfgw idx value) := by
  refine ⟨row_fits _ 0xFF 0xFFFFF8 0 (by rfl) ?_, by simp [opcodeTable, Instr.row]⟩
  rw [operandA, register_mask]
  simp only [operandB, opcode, Instr.row, BitVec.ofNat_eq_ofNat, BitVec.and_zero]
  decide

theorem TableRow.start : TableRow.Statement .start := ⟨by decide, by decide⟩

theorem TableRow.byte (data : Byte) : TableRow.Statement (.byte data) := by
  have h : ∀ x : Byte, x.setWidth 32 &&& 0xFFFFFF00 = 0 := by decide
  refine ⟨row_fits _ 0xFF 0xFFFFFF 0xFFFFFF00 (by rfl) ?_, by simp [opcodeTable, Instr.row]⟩
  rw [operandB, h]
  simp only [operandA, opcode, Instr.row]
  decide

theorem TableRow.tone (freq : BitVec 24) (dur : Reg32) : TableRow.Statement (.tone freq dur) := by
  refine ⟨row_fits _ 0xFF 0 0 (by rfl) ?_, by simp [opcodeTable, Instr.row]⟩
  simp only [operandA, operandB, opcode, Instr.row, BitVec.ofNat_eq_ofNat, BitVec.and_zero]
  decide

theorem TableRow.eoi : TableRow.Statement .eoi := ⟨by decide, by decide⟩

theorem TableRow.write : TableRow.Statement .write := ⟨by decide, by decide⟩

theorem TableRow.rdsr (idx : Fin 8) : TableRow.Statement (.rdsr idx) := by
  refine ⟨row_fits _ 0xFF 0xFFFFF8 0xFFFFFFFF (by rfl) ?_, by simp [opcodeTable, Instr.row]⟩
  rw [operandA, register_mask]
  simp only [operandB, opcode, Instr.row]
  decide

end Sys2Proof.Laws
end

