-- ==== Sys2Proof/Laws/Step.lean ====
section
/-! SUPPORT. What the step can do (40_control.md R100): on each kind of word, in each state. -/

namespace Sys2Proof.Machine

/-! ## The word taken -/

theorem step_word (s : State) (w : CmdWord) (rest : List HostEvent) (h : s.port = .word w :: rest) :
    step s = runWord w { s with port := rest } := by
  unfold step; rw [h]

theorem step_command (s : State) (w : CmdWord) (rest : List HostEvent) (i : Instr)
    (h : s.port = .word w :: rest) (hd : decode w = .ok i) : step s = exec i { s with port := rest } := by
  rw [step_word s w rest h, runWord, hd]

theorem step_illegal (s : State) (w : CmdWord) (rest : List HostEvent) (e : DecodeError)
    (h : s.port = .word w :: rest) (hd : decode w = .error e) :
    step s = illegalWord w { s with port := rest } := by
  rw [step_word s w rest h, runWord, hd]

/-! ## The command dispatched -/

/-- A command in a state where R102 says "no". -/
theorem exec_illegal (i : Instr) (st : RunState) (s : State) (h : onlyState i = some st) (hne : s.state ≠ st)
    (hf : s.state ≠ .fault) : exec i s = .next (s.raise .illegalCommand (upperHalf (encode i))) := by
  have hl : legalIn i s.state = false := by
    cases i <;> simp_all [onlyState, legalIn]
  have key : ∀ body, checked i s body = .next (s.raise .illegalCommand (upperHalf (encode i))) := by
    intro body
    rcases checked_cases i s body with ⟨h1, -⟩ | ⟨-, -, h1⟩ | ⟨-, h1, -⟩
    · exact absurd h1 hf
    · exact h1
    · rw [hl] at h1; cases h1
  cases i with
  | reset => simp [onlyState] at h
  | rdsr idx => simp [onlyState] at h
  | cfgw idx v => exact key (fun s => .next (s.writeCfg idx v))
  | start => exact key (fun s => (startRun s).outcome)
  | byte x => exact key (fun s => (sendFrame x s).outcome)
  | tone f d => exact key (fun s => (tone (toneFreq f) (toneDuration d) s).outcome)
  | eoi => exact key (fun s => (endOfInput s).outcome)
  | write => exact key writeFile

/-- A command that `FAULT` drops. -/
theorem exec_dropped (i : Instr) (s : State) (hf : s.state = .fault) (h1 : i ≠ .reset)
    (h2 : ∀ idx, i ≠ .rdsr idx) : exec i s = .next s := by
  have key : ∀ body, checked i s body = .next s := by
    intro body
    rcases checked_cases i s body with ⟨-, h⟩ | ⟨h, -⟩ | ⟨h, -⟩
    · exact h
    · exact absurd hf h
    · exact absurd hf h
  cases i with
  | reset => exact absurd rfl h1
  | rdsr idx => exact absurd rfl (h2 idx)
  | cfgw idx v => exact key (fun s => .next (s.writeCfg idx v))
  | start => exact key (fun s => (startRun s).outcome)
  | byte x => exact key (fun s => (sendFrame x s).outcome)
  | tone f d => exact key (fun s => (tone (toneFreq f) (toneDuration d) s).outcome)
  | eoi => exact key (fun s => (endOfInput s).outcome)
  | write => exact key writeFile

/-- Everything a word that is no command can do. -/
theorem illegalWord_next (w : CmdWord) (s t : State) (h : illegalWord w s = .next t) :
    (s.state = .fault ∧ t = s) ∨ (s.state ≠ .fault ∧ t = s.raise .illegalCommand (upperHalf w)) := by
  rcases illegalWord_cases w s with ⟨hf, he⟩ | ⟨hf, he⟩ <;> rw [he, Host.Outcome.next.injEq] at h
  · exact .inl ⟨hf, h.symm⟩
  · exact .inr ⟨hf, h.symm⟩

/-- What a command does that is legal in its state (R100 step 7), `RESET` and `RDSR` aside. -/
inductive Ran : Instr → State → State → Prop
  | cfgw (idx : Fin 8) (v : Reg32) (s : State) (h : s.state = .idle) : Ran (.cfgw idx v) s (s.writeCfg idx v)
  | start (s : State) (h : s.state = .idle) : Ran .start s (startRun s).final
  | byte (x : Byte) (s : State) (h : s.state = .run) : Ran (.byte x) s (sendFrame x s).final
  | tone (f : BitVec 24) (d : Reg32) (s : State) (h : s.state = .run) :
      Ran (.tone f d) s (Machine.tone (toneFreq f) (toneDuration d) s).final
  | eoi (s : State) (h : s.state = .run) : Ran .eoi s (endOfInput s).final
  | write (s : State) (bytes : List Byte) (h : s.state = .closed)
      (hw : writeFile s = .next { s with out := s.out ++ bytes, state := .done }) :
      Ran .write s { s with out := s.out ++ bytes, state := .done }

/-- Everything a command can do (R100). -/
theorem exec_next (i : Instr) (s t : State) (h : exec i s = .next t) :
    (i = .reset ∧ t = s.toReset) ∨
    (∃ idx, i = .rdsr idx ∧ idx.val ≤ 4 ∧ t = s.respond (s.statusValue idx)) ∨
    (s.state = .fault ∧ i ≠ .reset ∧ t = s) ∨
    (s.state ≠ .fault ∧ i ≠ .reset ∧ t = s.raise .illegalCommand (upperHalf (encode i))) ∨
    Ran i s t := by
  have key : ∀ (body : State → Host.Outcome State Fault Refusal), i ≠ .reset →
      (legalIn i s.state = true → body s = .next t → Ran i s t) → checked i s body = .next t →
      (s.state = .fault ∧ i ≠ .reset ∧ t = s) ∨
      (s.state ≠ .fault ∧ i ≠ .reset ∧ t = s.raise .illegalCommand (upperHalf (encode i))) ∨ Ran i s t := by
    intro body hi hb hc
    rcases checked_cases i s body with ⟨hf, he⟩ | ⟨hf, -, he⟩ | ⟨-, hl, he⟩
    · rw [he, Host.Outcome.next.injEq] at hc; exact .inl ⟨hf, hi, hc.symm⟩
    · rw [he, Host.Outcome.next.injEq] at hc; exact .inr (.inl ⟨hf, hi, hc.symm⟩)
    · rw [he] at hc; exact .inr (.inr (hb hl hc))
  cases i with
  | reset => exact .inl ⟨rfl, (Host.Outcome.next.inj h).symm⟩
  | rdsr idx =>
    change execRdsr idx s = .next t at h
    unfold execRdsr at h
    split at h
    · rename_i hw
      simp only [Instr.wellFormed, decide_eq_true_eq] at hw
      exact .inr (.inl ⟨idx, rfl, hw, (Host.Outcome.next.inj h).symm⟩)
    · rcases illegalWord_next _ _ _ h with ⟨hf, he⟩ | ⟨hf, he⟩
      · exact .inr (.inr (.inl ⟨hf, by simp, he⟩))
      · exact .inr (.inr (.inr (.inl ⟨hf, by simp, he⟩)))
  | cfgw idx v =>
    refine .inr (.inr (key (fun s => .next (s.writeCfg idx v)) (by simp) (fun hl he => ?_) h))
    rw [← Host.Outcome.next.inj he]; exact .cfgw idx v s (by simpa [legalIn] using hl)
  | start =>
    refine .inr (.inr (key (fun s => (startRun s).outcome) (by simp) (fun hl he => ?_) h))
    rw [← Host.Outcome.next.inj he]; exact .start s (by simpa [legalIn] using hl)
  | byte x =>
    refine .inr (.inr (key (fun s => (sendFrame x s).outcome) (by simp) (fun hl he => ?_) h))
    rw [← Host.Outcome.next.inj he]; exact .byte x s (by simpa [legalIn] using hl)
  | tone f d =>
    refine .inr (.inr (key (fun s => (tone (toneFreq f) (toneDuration d) s).outcome) (by simp) (fun hl he => ?_) h))
    rw [← Host.Outcome.next.inj he]; exact .tone f d s (by simpa [legalIn] using hl)
  | eoi =>
    refine .inr (.inr (key (fun s => (endOfInput s).outcome) (by simp) (fun hl he => ?_) h))
    rw [← Host.Outcome.next.inj he]; exact .eoi s (by simpa [legalIn] using hl)
  | write =>
    refine .inr (.inr (key writeFile (by simp) (fun hl he => ?_) h))
    rcases writeFile_cases s with ⟨r, hw⟩ | ⟨bytes, hw⟩
    · rw [hw] at he; cases he
    · rw [hw] at he; rw [← Host.Outcome.next.inj he]
      exact .write s bytes (by simpa [legalIn] using hl) hw

/-- Everything a step on a word can do (R100). -/
theorem runWord_next (w : CmdWord) (s t : State) (h : runWord w s = .next t) :
    (decode w = .ok .reset ∧ t = s.toReset) ∨
    (∃ idx, decode w = .ok (.rdsr idx) ∧ idx.val ≤ 4 ∧ t = s.respond (s.statusValue idx)) ∨
    (s.state = .fault ∧ decode w ≠ .ok .reset ∧ t = s) ∨
    (s.state ≠ .fault ∧ decode w ≠ .ok .reset ∧ ∃ info, t = s.raise .illegalCommand info) ∨
    (∃ i, decode w = .ok i ∧ Ran i s t) := by
  cases hd : decode w with
  | error e =>
    rw [runWord, hd] at h
    rcases illegalWord_next _ _ _ h with ⟨hf, he⟩ | ⟨hf, he⟩
    · exact .inr (.inr (.inl ⟨hf, by simp, he⟩))
    · exact .inr (.inr (.inr (.inl ⟨hf, by simp, _, he⟩)))
  | ok i =>
    rw [runWord, hd] at h
    rcases exec_next i s t h with ⟨rfl, h1⟩ | ⟨idx, rfl, h1⟩ | ⟨hf, h1, h2⟩ | ⟨hf, h1, h2⟩ | h1
    · exact .inl ⟨rfl, h1⟩
    · exact .inr (.inl ⟨idx, rfl, h1⟩)
    · exact .inr (.inr (.inl ⟨hf, by simpa using h1, h2⟩))
    · exact .inr (.inr (.inr (.inl ⟨hf, by simpa using h1, _, h2⟩)))
    · exact .inr (.inr (.inr (.inr ⟨i, rfl, h1⟩)))

/-- Everything a step can do, whatever the host presents. -/
theorem step_next (s t : State) (h : step s = .next t) :
    (s.port = [] ∧ t = s) ∨
    (∃ w rest, s.port = .word w :: rest ∧ runWord w { s with port := rest } = .next t) ∨
    (∃ rest, s.port = .hardwareReset :: rest ∧ t = ({ s with port := rest } : State).toReset) ∨
    (∃ w n rest u, s.port = .wordCutByReset w n :: rest ∧ runWord w { s with port := rest } = .next u ∧
      t = { ({ s with port := rest } : State).toReset with
        out := emittedPrefix n s.out u.out, rsp := emittedPrefix n s.rsp u.rsp }) := by
  unfold step at h
  split at h
  · rename_i hp; exact .inl ⟨hp, (Host.Outcome.next.inj h).symm⟩
  · rename_i w rest hp; exact .inr (.inl ⟨w, rest, hp, h⟩)
  · rename_i rest hp; exact .inr (.inr (.inl ⟨rest, hp, (Host.Outcome.next.inj h).symm⟩))
  · rename_i w n rest hp
    cases hr : runWord w { s with port := rest } with
    | next u => rw [hr] at h; exact .inr (.inr (.inr ⟨w, n, rest, u, hp, hr, (Host.Outcome.next.inj h).symm⟩))
    | fault r => rw [hr] at h; cases h
    | refused r => rw [hr] at h; cases h

/-! ## What a pseudocode of tones can do in any state -/

/-- `f`, begun in `s`, has only made tones: it goes on, or has raised a capacity error. -/
def Flow.soundsFrom (s : State) : Flow → Prop
  | .go t => s.sameButSound t ∧ (s.sink.wf → t.sink.wf)
  | .raised t => ∃ u, t = u.raise .capacityExceededError 0 ∧ s.sameButSound u ∧ (s.sink.wf → u.sink.wf)

theorem sameButSound_trans {s t u : State} (h1 : s.sameButSound t) (h2 : t.sameButSound u) : s.sameButSound u := by
  unfold State.sameButSound at *
  rw [h2, h1]

theorem Flow.soundsFrom_bind {s : State} {f : Flow} {k : State → Flow} (hf : f.soundsFrom s)
    (hk : ∀ t, (k t).soundsFrom t) : (f.bind k).soundsFrom s := by
  cases f with
  | raised t => exact hf
  | go t =>
    show (k t).soundsFrom s
    have h2 := hk t
    revert h2
    cases k t with
    | go u => exact fun h2 => ⟨sameButSound_trans hf.1 h2.1, fun hs => h2.2 (hf.2 hs)⟩
    | raised u => exact fun ⟨v, e, h1, h2⟩ => ⟨v, e, sameButSound_trans hf.1 h1, fun hs => h2 (hf.2 hs)⟩

theorem emitSamples_soundsFrom (n f : Nat) (s : State) : (emitSamples n f s).soundsFrom s := by
  induction n generalizing s with
  | zero => exact ⟨rfl, id⟩
  | succ n ih =>
    rw [emitSamples]
    refine Flow.soundsFrom_bind ?_ ih
    rw [emitSample_eq]
    split
    · exact ⟨_, rfl, rfl, id⟩
    · exact ⟨rfl, Memory.write_wf _ _ _⟩

/-- A tone in any state (R121, R200). -/
theorem tone_soundsFrom (f : Nat) (d : Rat) (s : State) : (tone f d s).soundsFrom s := by
  have h := emitSamples_soundsFrom (s.sampleCount d).toNat f { s with rem := s.remAfter d }
  show (emitSamples (s.sampleCount d).toNat f { s with rem := s.remAfter d }).soundsFrom s
  revert h
  cases emitSamples (s.sampleCount d).toNat f { s with rem := s.remAfter d } with
  | go u => exact fun h => ⟨by have := h.1; unfold State.sameButSound at *; rw [this], h.2⟩
  | raised u =>
    exact fun ⟨v, e, h1, h2⟩ => ⟨v, e, by unfold State.sameButSound at *; rw [h1], h2⟩

theorem toneEach_soundsFrom (fs : List Nat) (d : Rat) (s : State) : (toneEach fs d s).soundsFrom s := by
  induction fs generalizing s with
  | nil => exact ⟨rfl, id⟩
  | cons f fs ih =>
    rw [toneEach]
    exact Flow.soundsFrom_bind (tone_soundsFrom f d s) ih

theorem repeatTone_soundsFrom (n f : Nat) (d : Rat) (s : State) : (repeatTone n f d s).soundsFrom s := by
  rw [← toneEach_replicate]
  exact toneEach_soundsFrom _ d s

/-- `START` in any state: a configuration error, a capacity error, or `RUN` (R147). -/
theorem startRun_final (s : State) :
    (¬ s.configLegal ∧ s.configMask ≠ 0 ∧
      (startRun s).final = s.raise .configurationError (s.configMask.setWidth 32)) ∨
    (s.configLegal ∧ ∃ u, s.setWarnings.sameButSound u ∧ (s.sink.wf → u.sink.wf) ∧
      ((startRun s).final = u.raise .capacityExceededError 0 ∨
        (startRun s).final = { u with state := .run })) := by
  rcases commitConfig_cases s with ⟨hc, h⟩ | ⟨hc, hm, h⟩
  · right
    refine ⟨hc, ?_⟩
    unfold startRun
    rw [h, Flow.bind_go]
    have hr := repeatTone_soundsFrom Config.preBits s.markFreq s.bitDuration s.setWarnings
    revert hr
    cases repeatTone Config.preBits s.markFreq s.bitDuration s.setWarnings with
    | go u => exact fun hr => ⟨u, hr.1, hr.2, .inr rfl⟩
    | raised t => exact fun ⟨u, e, h1, h2⟩ => ⟨u, h1, h2, .inl (by rw [e]; rfl)⟩
  · left
    refine ⟨hc, hm, ?_⟩
    unfold startRun
    rw [h]; rfl

/-- `EOI` in any state: a capacity error, or `CLOSED` (R149). -/
theorem endOfInput_final (s : State) :
    ∃ u, s.sameButSound u ∧ (s.sink.wf → u.sink.wf) ∧
      ((endOfInput s).final = u.raise .capacityExceededError 0 ∨
        (endOfInput s).final = { u with state := .closed }) := by
  unfold endOfInput
  have hr := repeatTone_soundsFrom Config.postBits s.markFreq s.bitDuration s
  revert hr
  cases repeatTone Config.postBits s.markFreq s.bitDuration s with
  | go u => exact fun hr => ⟨u, hr.1, hr.2, .inr rfl⟩
  | raised t => exact fun ⟨u, e, h1, h2⟩ => ⟨u, h1, h2, .inl (by rw [e]; rfl)⟩

/-- A sequence of tones in any state: a capacity error, or the same state but for sound. -/
theorem soundsFrom_final (s : State) (f : Flow) (h : f.soundsFrom s) :
    ∃ u, s.sameButSound u ∧ (s.sink.wf → u.sink.wf) ∧
      (f.final = u.raise .capacityExceededError 0 ∨ f.final = u) := by
  cases f with
  | go t => exact ⟨t, h.1, h.2, .inr rfl⟩
  | raised t => obtain ⟨u, e, h1, h2⟩ := h; exact ⟨u, h1, h2, .inl e⟩

/-- `u` is `s` but for the warnings and for what a tone may write. -/
abbrev State.sameButSoundAndWarnings (s u : State) : Prop :=
  u = { s with warn := u.warn, ph := u.ph, rem := u.rem, len := u.len, sink := u.sink }

theorem sameButSound_weaken {s u : State} (h : s.sameButSound u) : s.sameButSoundAndWarnings u := by
  unfold State.sameButSound at h; unfold State.sameButSoundAndWarnings; rw [h]

theorem sameButSound_weaken_warned {s u : State} (h : s.setWarnings.sameButSound u) :
    s.sameButSoundAndWarnings u := by
  unfold State.sameButSound at h; unfold State.sameButSoundAndWarnings; rw [h]; rfl

/-- The shape of everything a legal command can do, in any state: a configuration write, a configuration
error, tones (that end in a capacity error or go on), a file. -/
theorem ran_shape (i : Instr) (s t : State) (h : Ran i s t) :
    (∃ idx v, i = .cfgw idx v ∧ s.state = .idle ∧ t = s.writeCfg idx v) ∨
    (i = .start ∧ s.state = .idle ∧ ¬ s.configLegal ∧
      t = s.raise .configurationError (s.configMask.setWidth 32)) ∨
    (makesTones i = true ∧ s.state ≠ .fault ∧ s.state ≠ .done ∧
      ∃ u, s.sameButSoundAndWarnings u ∧ (s.sink.wf → u.sink.wf) ∧
        (t = u.raise .capacityExceededError 0 ∨ ∃ st, t = { u with state := st } ∧ st ≠ .fault)) ∨
    (i = .write ∧ s.state = .closed ∧ ∃ bytes, t = { s with out := s.out ++ bytes, state := .done }) := by
  cases h with
  | cfgw idx v _ h => exact .inl ⟨idx, v, rfl, h, rfl⟩
  | start _ h =>
    rcases startRun_final s with ⟨hc, -, he⟩ | ⟨-, u, hu, hw, he | he⟩
    · exact .inr (.inl ⟨rfl, h, hc, he⟩)
    · exact .inr (.inr (.inl ⟨rfl, by simp [h], by simp [h], u, sameButSound_weaken_warned hu, hw, .inl he⟩))
    · exact .inr (.inr (.inl ⟨rfl, by simp [h], by simp [h], u, sameButSound_weaken_warned hu, hw,
        .inr ⟨.run, he, by simp⟩⟩))
  | byte x _ h =>
    obtain ⟨u, hu, hw, he | he⟩ :=
      soundsFrom_final s _ (toneEach_soundsFrom (s.frameTones x) s.bitDuration s)
    · exact .inr (.inr (.inl ⟨rfl, by simp [h], by simp [h], u, sameButSound_weaken hu, hw, .inl he⟩))
    · have hs : u.state = s.state := by unfold State.sameButSound at hu; rw [hu]
      exact .inr (.inr (.inl ⟨rfl, by simp [h], by simp [h], u, sameButSound_weaken hu, hw,
        .inr ⟨u.state, he, by rw [hs, h]; simp⟩⟩))
  | tone f d _ h =>
    obtain ⟨u, hu, hw, he | he⟩ := soundsFrom_final s _ (tone_soundsFrom (toneFreq f) (toneDuration d) s)
    · exact .inr (.inr (.inl ⟨rfl, by simp [h], by simp [h], u, sameButSound_weaken hu, hw, .inl he⟩))
    · have hs : u.state = s.state := by unfold State.sameButSound at hu; rw [hu]
      exact .inr (.inr (.inl ⟨rfl, by simp [h], by simp [h], u, sameButSound_weaken hu, hw,
        .inr ⟨u.state, he, by rw [hs, h]; simp⟩⟩))
  | eoi _ h =>
    obtain ⟨u, hu, hw, he | he⟩ := endOfInput_final s
    · exact .inr (.inr (.inl ⟨rfl, by simp [h], by simp [h], u, sameButSound_weaken hu, hw, .inl he⟩))
    · exact .inr (.inr (.inl ⟨rfl, by simp [h], by simp [h], u, sameButSound_weaken hu, hw,
        .inr ⟨.closed, he, by simp⟩⟩))
  | write _ bytes h hw => exact .inr (.inr (.inr ⟨rfl, h, bytes, rfl⟩))

end Sys2Proof.Machine
end

