-- ==== Sys2Proof/Laws/Run.lean ====
section
/-! SUPPORT. Requests counted from a base state (10_state.md R28, 42_frame_encoder.md R153), and steps one after another. -/

namespace Sys2Proof.Machine

theorem runSteps_succ (k : Nat) (s t : State) (h : step s = .next t) : runSteps (k + 1) s = runSteps k t := by
  rw [runSteps, h]

/-- `t` is reached from the base `b` by requests of total duration `D`: the counts, and what they keep. -/
structure Counts (b t : State) (D : Rat) : Prop where
  ok : t.oscOk
  cfg : t.cfg = b.cfg
  cfgv : t.cfgv = b.cfgv
  par : t.par = b.par
  out : t.out = b.out
  err : t.err = b.err
  len : t.len.toNat = b.len.toNat + (b.sampleCount D).toNat
  rem : t.rem = b.remAfter D

theorem Counts.sampleCount {b t : State} {D : Rat} (hb : b.oscOk) (h : Counts b t D) (d : Rat) :
    t.sampleCount d = b.sampleCount (D + d) - b.sampleCount D := by
  have hT := b.period_pos hb.1
  have hper : t.period = b.period := by unfold State.period State.sampleRate; rw [h.cfg]
  show rhu ((d + t.rem) / t.period) = rhu ((D + d + b.rem) / b.period) - b.sampleCount D
  rw [← rhu_sub_int, hper, h.rem]
  congr 1
  unfold State.remAfter
  field_simp
  ring

/-- The count that decides whether a further request fits. -/
theorem Counts.next_len {b t : State} {D d : Rat} (hb : b.oscOk) (h : Counts b t D) (hD : 0 ≤ D) (hd : 0 ≤ d) :
    t.len.toNat + (t.sampleCount d).toNat = b.len.toNat + (b.sampleCount (D + d)).toNat := by
  have hT := b.period_pos hb.1
  have h1 := sampleCount_nonneg b D hT hb.2.2.1.1 hD
  have h2 := sampleCount_mono b D (D + d) hT (by linarith)
  rw [h.len, h.sampleCount hb]; omega

/-- A further request, or sequence of requests, adds its duration. -/
theorem Counts.sounds {b t u : State} {D d : Rat} (hb : b.oscOk) (h : Counts b t D) (hD : 0 ≤ D) (hd : 0 ≤ d)
    (hu : SoundsTo t u d) : Counts b u (D + d) := by
  have hf := hu.same
  unfold State.sameButSound at hf
  have hper : t.period = b.period := by unfold State.period State.sampleRate; rw [h.cfg]
  refine ⟨hu.ok, by rw [hf]; exact h.cfg, by rw [hf]; exact h.cfgv, by rw [hf]; exact h.par,
    by rw [hf]; exact h.out, by rw [hf]; exact h.err, ?_, ?_⟩
  · rw [hu.len]; exact h.next_len hb hD hd
  · rw [hu.rem]
    unfold State.remAfter
    rw [h.sampleCount hb, hper, h.rem]
    unfold State.remAfter
    push_cast; ring

end Sys2Proof.Machine
end

