-- ==== Sys2Proof/Tests/Slice0.lean ====
section
/-! SUPPORT. The model's own tests: decoding, WellFormed, single steps with values from 95_test_vectors.md and from the rules' own examples, and a witness for the hypotheses of each statement. -/

open Sys2Proof Sys2Proof.Machine

namespace Sys2Proof.Tests

/-! ## Helpers -/

/-- The eight configuration registers. -/
def registers (fs baud mark space width parity stop format : Reg32) : Vector Reg32 8 :=
  #v[fs, baud, mark, space, width, parity, stop, format]

/-- `IDLE`, all eight registers written. -/
def idleWith (cfg : Vector Reg32 8) : State := { State.reset with cfg := cfg, cfgv := 0xFF }

/-- `RUN` with nothing appended. -/
def runWith (cfg : Vector Reg32 8) : State := { idleWith cfg with state := .run }

/-- The next state, if the outcome is one. -/
def nextState : Host.Outcome State Fault Refusal → Option State
  | .next t => some t
  | .fault _ => none
  | .refused _ => none

/-- One step on one word. -/
def on (w : CmdWord) (s : State) : Option State := nextState (step { s with port := [.word w] })

/-- The control registers of a state. -/
def control (s : State) : RunState × Option ErrKind × Reg32 × Reg32 := (s.state, s.err, s.errInfo, s.warn)

/-- The counting registers of a state. -/
def counters (s : State) : Reg32 × Nat × Rat := (s.len, s.ph, s.rem)

/-! ## WellFormed: the one check, and the terms it refuses -/

theorem test_wellFormed_refuses_rdsr_5 : (Instr.rdsr 5).wellFormed = false := by decide
theorem test_wellFormed_refuses_rdsr_7 : (Instr.rdsr 7).wellFormed = false := by decide
theorem test_wellFormed_accepts_rdsr_4 : (Instr.rdsr 4).wellFormed = true := by decide

/-! ## Decoding, by words written out from R73 to R80 (95_test_vectors.md, decoding) -/

theorem test_decode_reset : decode 0x0100000000000000 = .ok .reset := by decide
theorem test_decode_reset_b : decode 0x0100000000000001 = .error .mustBeZero := by decide
theorem test_decode_cfgw : decode 0x0200000000005622 = .ok (.cfgw 0 22050) := by decide
theorem test_decode_cfgw_7 : decode 0x0200000700000001 = .ok (.cfgw 7 1) := by decide
theorem test_decode_cfgw_8 : decode 0x0200000800000000 = .error .mustBeZero := by decide
theorem test_decode_cfgw_max : decode 0x02000005FFFFFFFF = .ok (.cfgw 5 4294967295) := by decide
theorem test_decode_start : decode 0x0300000000000000 = .ok .start := by decide
theorem test_decode_start_a : decode 0x0300000100000000 = .error .mustBeZero := by decide
theorem test_decode_byte : decode 0x0400000000000041 = .ok (.byte 0x41) := by decide
theorem test_decode_byte_wide : decode 0x0400000000000100 = .error .mustBeZero := by decide
theorem test_decode_byte_a : decode 0x0400000100000041 = .error .mustBeZero := by decide
theorem test_decode_tone : decode 0x050005DC00002710 = .ok (.tone 1500 10000) := by decide
theorem test_decode_tone_max : decode 0x05FFFFFFFFFFFFFF = .ok (.tone 16777215 4294967295) := by decide
theorem test_decode_tone_zero : decode 0x0500000000000000 = .ok (.tone 0 0) := by decide
theorem test_decode_eoi : decode 0x0600000000000000 = .ok .eoi := by decide
theorem test_decode_write : decode 0x0700000000000000 = .ok .write := by decide
theorem test_decode_rdsr : decode 0x0800000400000000 = .ok (.rdsr 4) := by decide
theorem test_decode_rdsr_5 : decode 0x0800000500000000 = .error (.reservedStatusNumber 5) := by decide
theorem test_decode_rdsr_b : decode 0x0800000000000001 = .error .mustBeZero := by decide
theorem test_decode_zero : decode 0 = .error (.reservedOpcode 0) := by decide
theorem test_decode_09 : decode 0x0900000000000000 = .error (.reservedOpcode 9) := by decide
theorem test_decode_ff : decode 0xFF00000000000000 = .error (.reservedOpcode 0xFF) := by decide

/-- The host's entry points, on a row of the opcode table. -/
theorem test_table_word : decodeTableWord 64 0x0200000000005622 = some (.cfgw 0 22050) := by decide
theorem test_fetch_word :
    (nextState (step (State.reset.withFetchWord 64 0x0800000000000000))).map State.rsp = some [0] := by decide

/-! ## Operands and flags -/

/-- R11's examples and 95_test_vectors.md, rounding. -/
theorem test_rhu : [rhu (147 / 2), rhu 73, rhu (734999 / 10000), rhu (1 / 2), rhu (2 / 5), rhu 0, rhu (-1 / 2),
    rhu (-1 / 4), rhu (80 / 3), rhu (79 / 3)] = [74, 73, 73, 1, 0, 0, 0, 0, 27, 26] := by decide +kernel

/-- 95_test_vectors.md, parity, rows `0x00` to `0xFF`: odd, even. -/
theorem test_parity : ([0x00, 0x01, 0x41, 0x53, 0x7F, 0x80, 0xA5, 0xFE, 0xFF] : List Byte).map
      (fun x => (parityBit 1 x, parityBit 2 x)) =
    [(false, true), (true, false), (false, true), (false, true), (true, false), (true, false), (false, true),
     (true, false), (false, true)] := by decide

/-- 95_test_vectors.md, frames, with mark 1 and space 0. -/
theorem test_frames : [
      (runWith (registers 8000 1 1 0 8 0 1 0)).frameTones 0x41,
      (runWith (registers 8000 1 1 0 8 1 1 0)).frameTones 0x41,
      (runWith (registers 8000 1 1 0 7 2 2 0)).frameTones 0x53,
      (runWith (registers 8000 1 1 0 5 3 0 0)).frameTones 0xFF,
      (runWith (registers 8000 1 1 0 8 4 1 0)).frameTones 0x00,
      (runWith (registers 8000 1 1 0 7 1 1 0)).frameTones 0x80,
      (runWith (registers 8000 1 1 0 0 2 3 0)).frameTones 0xA5] =
    [[0, 1, 0, 0, 0, 0, 0, 1, 0, 1], [0, 1, 0, 0, 0, 0, 0, 1, 0, 0, 1], [0, 1, 1, 0, 0, 1, 0, 1, 1, 1, 1],
     [0, 1, 1, 1, 1, 1, 0], [0, 0, 0, 0, 0, 0, 0, 0, 0, 1, 1], [0, 0, 0, 0, 0, 0, 0, 0, 1, 1], [0, 1, 1, 1, 1]] := by
  decide

/-- 95_test_vectors.md, configuration check: the masks. -/
theorem test_config_masks : [
      State.reset.configMask,
      ({ idleWith (registers 22050 300 1500 1200 8 0 1 0) with cfgv := 0xF7 } : State).configMask,
      (idleWith (registers 22050 300 1500 1200 8 0 1 0)).configMask,
      (idleWith (registers 44100 300 1500 1200 8 0 1 0)).configMask,
      (idleWith (registers 44101 300 1500 1200 8 0 1 0)).configMask,
      (idleWith (registers 0 0 1500 1200 9 5 1 2)).configMask] = [0xFF, 0x08, 0, 0, 0x01, 0xB3] := by decide

/-- 95_test_vectors.md, warnings. -/
theorem test_warnings : [
      (idleWith (registers 22050 300 1500 1200 8 0 1 0)).setWarnings.warn,
      (idleWith (registers 22050 300 1200 1500 8 0 1 0)).setWarnings.warn,
      (idleWith (registers 22050 300 1210 1200 8 0 1 0)).setWarnings.warn,
      (idleWith (registers 22050 300 1220 1200 8 0 1 0)).setWarnings.warn,
      (idleWith (registers 22050 300 1200 1200 8 0 1 0)).setWarnings.warn,
      (idleWith (registers 22050 300 1200 1219 8 0 1 0)).setWarnings.warn] = [0, 2, 1, 0, 1, 3] := by decide

/-- Vector T3, its configuration. -/
def configT3 : State := runWith (registers 44100 110 0 0 8 0 1 0)

/-- Vector T3, after five requests at 110 baud: `LEN` and `REM`. -/
theorem test_remainder_T3 : ∃ t, toneEach [0, 0, 0, 0, 0] configT3.bitDuration configT3 = .go t ∧
    t.len.toNat = 2005 ∧ t.rem = -50000 / 4851 := by
  have hok : configT3.oscOk := by decide +kernel
  rcases toneEach_cases [0, 0, 0, 0, 0] configT3.bitDuration configT3 configT3.bitDuration_nonneg hok with
    ⟨-, t, ht, hst⟩ | ⟨hgt, -⟩
  · exact ⟨t, ht, by rw [hst.len]; decide +kernel, by rw [hst.rem]; decide +kernel⟩
  · exact absurd hgt (by decide +kernel)

/-! ## The container -/

/-- R178's examples: 6553, -6553, -1, 0. -/
theorem test_sample_forms : ([6553, -6553, -1, 0] : List Cell).map (fun v => (wavSample v, aiffSample v)) =
    [([0x99, 0x19], [0x99, 0x99]), ([0x67, 0xE6], [0x66, 0x67]), ([0xFF, 0xFF], [0x7F, 0xFF]),
     ([0x00, 0x00], [0x80, 0x00])] := by decide

/-- R173's example (vector W1). -/
theorem test_wav_header : wavHeader 22050 94815 =
    [0x52, 0x49, 0x46, 0x46, 0xE2, 0xE4, 0x02, 0x00, 0x57, 0x41, 0x56, 0x45, 0x66, 0x6D, 0x74, 0x20, 0x10, 0x00,
     0x00, 0x00, 0x01, 0x00, 0x01, 0x00, 0x22, 0x56, 0x00, 0x00, 0x44, 0xAC, 0x00, 0x00, 0x02, 0x00, 0x10, 0x00,
     0x64, 0x61, 0x74, 0x61, 0xBE, 0xE4, 0x02, 0x00] := by decide

/-- R177's example (vector A1). -/
theorem test_aiff_header : aiffHeader 8000 10 =
    [0x46, 0x4F, 0x52, 0x4D, 0x00, 0x00, 0x00, 0x42, 0x41, 0x49, 0x46, 0x46, 0x43, 0x4F, 0x4D, 0x4D, 0x00, 0x00,
     0x00, 0x12, 0x00, 0x01, 0x00, 0x00, 0x00, 0x0A, 0x00, 0x10, 0x40, 0x0B, 0xFA, 0x00, 0x00, 0x00, 0x00, 0x00,
     0x00, 0x00, 0x53, 0x53, 0x4E, 0x44, 0x00, 0x00, 0x00, 0x1C, 0x00, 0x00, 0x00, 0x00, 0x00, 0x00, 0x00,
     0x00] := by decide

/-- Vector X1. -/
theorem test_ext80 : [ext80 300, ext80 48000, ext80 65535, ext80 65536] =
    [[0x40, 0x07, 0x96, 0, 0, 0, 0, 0, 0, 0], [0x40, 0x0E, 0xBB, 0x80, 0, 0, 0, 0, 0, 0],
     [0x40, 0x0E, 0xFF, 0xFF, 0, 0, 0, 0, 0, 0], [0x40, 0x0F, 0x80, 0, 0, 0, 0, 0, 0, 0]] := by decide

/-! ## One step of each command -/

/-- R105: `RESET` leaves `FAULT`. -/
theorem test_reset : (on 0x0100000000000000 { idleWith (registers 1 2 3 4 5 6 7 8) with
      state := .fault, err := some .illegalCommand, errInfo := 0x04000000, warn := 3 }).map
      (fun t => (control t, counters t, t.cfgv)) =
    some ((.idle, none, 0, 0), (0, 0, 0), 0) := by decide +kernel

/-- R104's example: `CFGW PARITY, 9` then `CFGW PARITY, 2`. -/
theorem test_cfgw : ((on 0x0200000500000009 State.reset).bind (on 0x0200000500000002)).map
      (fun t => (t.cfg[5], t.cfgv, control t)) = some (2, 0x20, (.idle, none, 0, 0)) := by decide

/-- `CFGW 1, 50` in `RUN` (95_test_vectors.md, state legality). -/
theorem test_cfgw_in_run : (on 0x0200000100000032 (runWith (registers 8000 8000 0 0 8 0 1 0))).map control =
    some (.fault, some .illegalCommand, 0x02000001, 0) := by decide

/-- P5: the preamble of 1040 requests of 1 microsecond at 8000 Hz. -/
theorem test_start_P5 : (on 0x0300000000000000 (idleWith (registers 8000 1000000 2000 1000 8 1 1 1))).map
      (fun t => (control t, counters t)) = some ((.run, none, 0, 0), (8, 0, 40)) := by decide +kernel

/-- P6: `SAMPLE_RATE = 48000` and `BAUD = 300` written, the rest not. -/
theorem test_start_P6 : (on 0x0300000000000000
      { State.reset with cfg := registers 48000 300 0 0 0 0 0 0, cfgv := 0x03 }).map
      (fun t => (control t, counters t)) =
    some ((.fault, some .configurationError, 0xFD, 0), (0, 0, 0)) := by decide +kernel

/-- P1 in small (vector T1): the byte `0x41` at 22050 Hz and 300 baud: 735 samples; `PH` 21600. -/
theorem test_byte_P1 : (on 0x0400000000000041 (runWith (registers 22050 300 1500 1200 8 0 1 0))).map
      (fun t => (control t, counters t)) = some ((.run, none, 0, 0), (735, 21600, 0)) := by decide +kernel

/-- `BYTE` in `IDLE` (95_test_vectors.md, state legality). -/
theorem test_byte_in_idle : (on 0x0400000000000041 State.reset).map control =
    some (.fault, some .illegalCommand, 0x04000000, 0) := by decide

/-- R128's example, `TONE 2000, 500` at 8000 Hz from `PH = 0`; and vector O5, a pause of 1000 microseconds,
which leaves `PH` and appends `ZERO_LEVEL`. -/
theorem test_tone :
    (on 0x050007D0000001F4 (runWith (registers 8000 8000 2000 1000 8 0 1 0))).map
      (fun t => (control t, counters t)) = some ((.run, none, 0, 0), (4, 0, 0)) ∧
    (on 0x05000000000003E8 { runWith (registers 8000 8000 2000 1000 8 0 1 0) with ph := 4000 }).map
      (fun t => (counters t, t.sink.map Prod.snd)) = some ((8, 4000, 0), [0, 0, 0, 0, 0, 0, 0, 0]) := by
  decide +kernel

/-- P4's fault, from its state before the `TONE` but for the samples already there: `PH = 5000`, fifty
samples fit, `PH` is advanced 51 times. -/
theorem test_tone_P4 : (on 0x050003E800002710 { runWith (registers 8000 8000 2000 1000 8 0 1 0) with
      ph := 5000, par := { Config.Params.default with maxSamples := 50 } }).map
      (fun t => (control t, counters t)) =
    some ((.fault, some .capacityExceededError, 0, 0), (50, 0, 0)) := by decide +kernel

/-- P5: the postamble of 240 requests of 1 microsecond from `REM = 40`. -/
theorem test_eoi_P5 : (on 0x0600000000000000
      { runWith (registers 8000 1000000 2000 1000 8 1 1 1) with rem := 40 }).map
      (fun t => (control t, counters t)) = some ((.closed, none, 0, 0), (2, 4000, 30)) := by decide +kernel

/-- `WRITE` of two samples as WAV (R171), and the state after it. -/
theorem test_write_wav : (on 0x0700000000000000 { runWith (registers 8000 8000 2000 1000 8 0 1 0) with
      state := .closed, len := 2, sink := [(0, 6553), (1, -6553)] }).map
      (fun t => (control t, t.out.length, t.out.drop 44)) =
    some ((.done, none, 0, 0), 48, [0x99, 0x19, 0x67, 0xE6]) := by decide

/-- `WRITE` of two samples as AIFF (R175). -/
theorem test_write_aiff : (on 0x0700000000000000 { runWith (registers 8000 8000 2000 1000 8 0 1 1) with
      state := .closed, len := 2, sink := [(0, 6553), (1, -6553)] }).map
      (fun t => (control t, t.out.length, t.out.drop 54)) =
    some ((.done, none, 0, 0), 58, [0x99, 0x99, 0x66, 0x67]) := by decide

/-- R106: `RDSR ERRINFO` in `FAULT`, and a reserved number dropped there. -/
theorem test_rdsr : ((on 0x0800000200000000 { State.reset with
      state := .fault, err := some .illegalCommand, errInfo := 0x04000000 }).bind (on 0x0800000500000000)).map
      State.rsp = some [0x04000000] := by decide

/-- R82: `RDSR` of 5 in `IDLE` raises and responds nothing. -/
theorem test_rdsr_reserved : (on 0x0800000500000000 State.reset).map (fun t => (control t, t.rsp)) =
    some ((.fault, some .illegalCommand, 0x08000005, 0), []) := by decide

/-- Vector K1. -/
theorem test_sinkAppend_K1 :
    let s := { runWith (registers 8000 8000 2000 1000 8 0 1 0) with
      par := { Config.Params.default with maxSamples := 3 }, len := 2, sink := [(0, 1), (1, 2)] }
    ((sinkAppend 5 s).final.sink, ((sinkAppend 5 s).bind (sinkAppend 6)).final.err) =
      ([(0, 1), (1, 2), (2, 5)], some .capacityExceededError) := by decide

/-- R222: a hardware reset after 3 bytes of the file have left. -/
theorem test_reset_cuts_write : (nextState (step { runWith (registers 8000 8000 2000 1000 8 0 1 0) with
      state := .closed, port := [.wordCutByReset 0x0700000000000000 3] })).map
      (fun t => (control t, t.out)) = some ((.idle, none, 0, 0), [0x52, 0x49, 0x46]) := by decide

/-! ## Witnesses: for each statement with hypotheses, states and operands that meet all of them -/

/-- The configuration of P2. -/
def configP2 : Vector Reg32 8 := registers 8000 8000 2000 1000 7 2 2 1

/-- `IDLE` with that configuration. -/
def wIdle : State := idleWith configP2

/-- `RUN`, two samples appended, `REM` at its lower bound. -/
def wRun : State :=
  { wIdle with state := .run, ph := 2000, rem := -125 / 2, len := 2, sink := [(0, 6553), (1, -6553)] }

/-- The same with room for one more sample. -/
def wTight : State := { wRun with par := { Config.Params.default with maxSamples := 3 } }

/-- `CLOSED`, AIFF. -/
def wClosed : State := { wRun with state := .closed }

/-- `CLOSED`, WAV. -/
def wClosedWav : State := { wClosed with cfg := registers 8000 8000 2000 1000 7 2 2 0 }

/-- `FAULT`. -/
def wFault : State := { wIdle with state := .fault, err := some .illegalCommand, errInfo := 0x04000000 }

/-- The host presents one word, and then nothing. -/
def withWord (s : State) (w : CmdWord) : State := { s with port := [.word w] }

theorem wIdle_inv : wIdle.Inv := by decide +kernel
theorem wRun_inv : wRun.Inv := by decide +kernel
theorem wTight_inv : wTight.Inv := by decide +kernel
theorem wClosed_inv : wClosed.Inv := by decide +kernel
theorem wClosedWav_inv : wClosedWav.Inv := by decide +kernel
theorem wFault_inv : wFault.Inv := by decide +kernel
theorem default_ok : State.reset.par.ok := by decide +kernel

/-- DecodeOfEncode: the extreme operands of each form. -/
theorem witness_DecodeOfEncode : (Instr.rdsr 4).wellFormed = true ∧ (Instr.rdsr 0).wellFormed = true ∧
    (Instr.cfgw 7 0xFFFFFFFF).wellFormed = true ∧ (Instr.byte 0xFF).wellFormed = true ∧
    (Instr.tone 0xFFFFFF 0xFFFFFFFF).wellFormed = true := by decide

/-- EncodeOfDecode, StepRunsDecodedCommand. -/
theorem witness_StepRunsDecodedCommand :
    (withWord wIdle 0x0800000400000000).port = .word 0x0800000400000000 :: [] ∧
      decode 0x0800000400000000 = .ok (.rdsr 4) := by decide

/-- IllegalWords: a word on each line of R82, at the edge of its range, and the legal word beside it; and the
two clauses of the step. -/
theorem witness_IllegalWords :
    ([0x0000000000000000, 0x0900000000000000, 0x0100000000000001, 0x0300000100000000, 0x0600000000000001,
      0x0700000100000000, 0x0400000100000041, 0x0800000000000001, 0x0200000800000000, 0x0800000800000000,
      0x0400000000000100, 0x0800000500000000, 0x0800000700000000] : List CmdWord).all
        (fun w => (decode w).toOption.isNone) = true ∧
    ([0x0100000000000000, 0x0800000400000000, 0x0300000000000000, 0x0600000000000000, 0x0700000000000000,
      0x0400000000000041, 0x0200000700000000, 0x04000000000000FF] : List CmdWord).all
        (fun w => (decode w).toOption.isSome) = true ∧
    decode 0 = .error (.reservedOpcode 0) ∧ wFault.state = .fault ∧ wIdle.state ≠ .fault := by decide

/-- StepWaits, EveryStepAnswers. -/
theorem witness_StepWaits : State.reset.port = [] ∧ State.reset.Inv := by decide +kernel

/-- IllegalWordRaises. -/
theorem witness_IllegalWordRaises :
    (withWord wRun 0x0900000000000000).port = .word 0x0900000000000000 :: [] ∧
      decode 0x0900000000000000 = .error (.reservedOpcode 9) ∧ (withWord wRun 0x0900000000000000).state ≠ .fault := by
  decide

/-- IllegalCommandEntry: both clauses. -/
theorem witness_IllegalCommandEntry :
    (∃ e, decode 0x0000000000000000 = .error e) ∧
    (∃ i st, decode 0x0700000000000000 = .ok i ∧ onlyState i = some st ∧ wRun.state ≠ st) :=
  ⟨⟨.reservedOpcode 0, by decide⟩, .write, .closed, by decide, rfl, by decide⟩

/-- FaultStateDropsWords: a state in `FAULT` and a word for each of the three clauses. -/
theorem witness_FaultStateDropsWords :
    (withWord wFault 0x0800000100000000).state = .fault ∧ decode 0x0800000100000000 = .ok (.rdsr 1) ∧
      decode 0x0100000000000000 = .ok .reset ∧ decode 0x0700000000000000 = .ok .write := by decide

/-- StateMoves, OnlyTonesAndResetMovePhase, OutputOnlyFromWrite, ResponsesOnlyFromRdsr, ParametersFixed,
SinkStaysCanonical, SinkNeverRewritten: a step that answers, one for each command that moves `STATE`. -/
theorem witness_StateMoves :
    (∃ t, step (withWord (idleWith (registers 1 4294967295 0 0 8 0 1 0)) 0x0300000000000000) = .next t ∧
      t.state = .run) ∧
    (∃ t, step (withWord wRun 0x0600000000000000) = .next t ∧ t.state = .closed) ∧
    (∃ t, step (withWord wClosed 0x0700000000000000) = .next t ∧ t.state = .done) ∧
    (∃ t, step (withWord wFault 0x0100000000000000) = .next t ∧ t.state = .idle) ∧
    (∃ t, step (withWord wRun 0x0700000000000000) = .next t ∧ t.state = .fault) :=
  ⟨⟨_, rfl, by decide +kernel⟩, ⟨_, rfl, by decide +kernel⟩, ⟨_, rfl, by decide +kernel⟩,
    ⟨_, rfl, by decide +kernel⟩, ⟨_, rfl, by decide +kernel⟩⟩

/-- The same steps run from states with the invariant and a canonical sink. -/
theorem witness_StateMoves_sink : wRun.sink.wf ∧ (withWord wRun 0x0600000000000000).Inv ∧
    decode 0x0600000000000000 ≠ .ok .reset := by decide +kernel

/-- OnlyTonesAndResetMovePhase: a step that moves `PH`. -/
theorem witness_OnlyTonesAndResetMovePhase :
    ∃ t, step (withWord wRun 0x050003E80000007D) = .next t ∧ t.ph ≠ (withWord wRun 0x050003E80000007D).ph :=
  ⟨_, rfl, by decide +kernel⟩

/-- OutputOnlyFromWrite: a step that emits. -/
theorem witness_OutputOnlyFromWrite : ∃ t, step (withWord wClosed 0x0700000000000000) = .next t ∧ t.out ≠ [] :=
  ⟨_, rfl, by decide +kernel⟩

/-- ResetCommand: two states that agree in the streams only; a step in `FAULT` without `RESET`. -/
theorem witness_ResetCommand :
    (wRun.out = wFault.out ∧ wRun.rsp = wFault.rsp ∧ wRun.port = wFault.port ∧ wRun.par = wFault.par) ∧
    wRun ≠ wFault ∧ ∃ t, step (withWord wFault 0x0600000000000000) = .next t :=
  ⟨by decide +kernel, by decide +kernel, _, rfl⟩

/-- CfgwWrites: `IDLE`, and the three states where `CFGW` is illegal; the first and the last register. -/
theorem witness_CfgwWrites : wIdle.state = .idle ∧ wRun.state = .run ∧ wClosed.state = .closed ∧
    ({ wClosed with state := .done } : State).state = .done ∧ ((7 : Fin 8) ≠ 0) := by decide

/-- CfgwWrites, the order of writes: two writes that answer, of different registers and of one. -/
theorem witness_CfgwWrites_order : ∃ t u v, exec (.cfgw 0 1) wIdle = .next t ∧ exec (.cfgw 7 2) t = .next u ∧
    exec (.cfgw 0 2) t = .next v := ⟨_, _, _, rfl, rfl, rfl⟩

/-- RdsrResponds: both ends of the range, and a word of each illegal kind. -/
theorem witness_RdsrResponds : (0 : Fin 8).val ≤ 4 ∧ (4 : Fin 8).val ≤ 4 ∧
    (0x0800000500000000 : CmdWord).toNat / 2 ^ 56 = 8 ∧
    4 < (0x0800000500000000 : CmdWord).toNat / 2 ^ 32 % 2 ^ 24 ∧
    (0x0800000000000001 : CmdWord).toNat / 2 ^ 56 = 8 ∧ (0x0800000000000001 : CmdWord).toNat % 2 ^ 32 ≠ 0 := by
  decide

/-- StartChecksConfiguration, StartRuns: each condition at the edge of its range, and no condition. -/
theorem witness_StartChecksConfiguration :
    State.reset.offends 7 ∧ (idleWith (registers 0 300 0 0 8 4 0 1)).offends 0 ∧
    (idleWith (registers 44101 300 0 0 8 4 0 1)).offends 0 ∧ (idleWith (registers 1 0 0 0 8 4 0 1)).offends 1 ∧
    (idleWith (registers 1 1 0 0 9 4 0 1)).offends 4 ∧ (idleWith (registers 1 1 0 0 8 5 0 1)).offends 5 ∧
    (idleWith (registers 1 1 0 0 8 4 0 2)).offends 7 ∧
    (∀ i, ¬ (idleWith (registers 44100 1 0 0 8 4 0 1)).offends i) ∧
    State.reset.state = .idle ∧ State.reset.err ≠ some .configurationError := by
  refine ⟨by decide, by decide, by decide, by decide, by decide, by decide, by decide, ?_, by decide, by decide⟩
  rintro i ⟨hi, h⟩
  have : i = 0 ∨ i = 1 ∨ i = 2 ∨ i = 3 ∨ i = 4 ∨ i = 5 ∨ i = 6 ∨ i = 7 := by omega
  rcases this with rfl | rfl | rfl | rfl | rfl | rfl | rfl | rfl <;> revert h <;> decide

/-- StartWarns, StartCompletes: P2's `START`, 1040 samples. -/
theorem witness_StartCompletes : wIdle.Inv ∧ wIdle.state = .idle ∧ wIdle.configLegal ∧
    ((1040 : Nat) : Int) = Int.floor ((1040 * wIdle.sampleRate : Rat) / wIdle.baud + 1 / 2) ∧
    1040 ≤ wIdle.par.maxSamples.val ∧ ∃ t, exec .start wIdle = .next t :=
  ⟨wIdle_inv, by decide, by decide, by decide +kernel, by decide, _, rfl⟩

/-- ByteCompletes: the frame `0x53` of P2, 11 samples, from `REM = -T/2`; its first and its last tone, each of
one sample. -/
theorem witness_ByteCompletes : wRun.Inv ∧ wRun.state = .run ∧
    11 = 1 + wRun.bitWidth + (if wRun.parity = 0 then 0 else 1) + wRun.stopBits ∧
    ((11 : Nat) : Int) =
      Int.floor ((11 * (1000000 / wRun.baud) + wRun.rem) / (1000000 / wRun.sampleRate) + 1 / 2) ∧
    wRun.len.toNat + 11 ≤ wRun.par.maxSamples.val ∧
    (wRun.frameTones 0x53)[0]? = some 1000 ∧ (wRun.frameTones 0x53)[10]? = some 2000 ∧
    wRun.samplesOf wRun.bitDuration 1 = 1 ∧ wRun.samplesOf wRun.bitDuration 10 = 10 :=
  ⟨wRun_inv, by decide, by decide, by decide +kernel, by decide, by decide, by decide, by decide +kernel,
    by decide +kernel⟩

/-- ByteSendsFrame, StartRuns, EoiRuns, ToneRuns: the states. -/
theorem witness_ByteSendsFrame : wRun.state = .run ∧ wIdle.state = .idle ∧ wClosed.state = .closed ∧
    ({ wClosed with state := .done } : State).state = .done := by decide

/-- EoiCompletes: P2's `EOI`. -/
theorem witness_EoiCompletes : wRun.Inv ∧ wRun.state = .run ∧
    ((240 : Nat) : Int) =
      Int.floor ((240 * (1000000 / wRun.baud) + wRun.rem) / (1000000 / wRun.sampleRate) + 1 / 2) ∧
    wRun.len.toNat + 240 ≤ wRun.par.maxSamples.val :=
  ⟨wRun_inv, by decide, by decide +kernel, by decide⟩

/-- FrameLayout: a frame with every part, its places in range. -/
theorem witness_FrameLayout : wRun.bitWidth ≤ 8 ∧ 6 < wRun.bitWidth ∧ wRun.parity ≠ 0 ∧ 1 < wRun.stopBits := by
  decide

/-- ToneCompletes, ToneRequest: a duration of 62 microseconds, less than half a sample
period, and one of 125; with a frequency and without. -/
theorem witness_ToneCompletes : wRun.Inv ∧ wRun.state = .run ∧ wRun.live ∧ (0 : Rat) ≤ 62 ∧
    ((0 : Nat) : Int) =
      Int.floor ((((62 : Reg32).toNat : Rat) + wRun.rem) / (1000000 / wRun.sampleRate) + 1 / 2) ∧
    ((1 : Nat) : Int) =
      Int.floor ((((125 : Reg32).toNat : Rat) + wRun.rem) / (1000000 / wRun.sampleRate) + 1 / 2) ∧
    wTight.len.toNat + 1 ≤ wTight.par.maxSamples.val ∧ ∃ t, tone 1000 62 wRun = .go t :=
  ⟨wRun_inv, by decide, by decide, by decide +kernel, by decide +kernel, by decide +kernel, by decide, _,
    tone_fits 1000 62 wRun (by decide) (by decide +kernel)⟩

/-- ToneRuns: a frequency that is the sample rate. -/
theorem witness_ToneRuns : wRun.state = .run ∧ wRun.Inv ∧ (8000 : BitVec 24) ≠ 0 ∧
    (8000 : BitVec 24).toNat % wRun.sampleRate = 0 := ⟨by decide, wRun_inv, by decide, by decide⟩

/-- ToneOverflows: room for one sample, a request of two; `TONE` with that request. -/
theorem witness_ToneOverflows : wTight.Inv ∧ wTight.live ∧ (0 : Rat) ≤ 250 ∧
    ((2 : Nat) : Int) = Int.floor ((250 + wTight.rem) / (1000000 / wTight.sampleRate) + 1 / 2) ∧
    wTight.len.toNat + 1 = wTight.par.maxSamples.val ∧ 1 < 2 ∧ wTight.state = .run ∧
    (1000 : BitVec 24).toNat = 1000 ∧ ((250 : Reg32).toNat : Rat) = 250 :=
  ⟨wTight_inv, by decide, by decide +kernel, by decide +kernel, by decide, by decide, by decide, by decide,
    by decide +kernel⟩

/-- RemainderBounded, SplitRequest, EqualRequests: `REM` at its lower bound; a first part that does not raise,
a total that does not raise; the negative tie. -/
theorem witness_RemainderBounded : 0 < wRun.sampleRate ∧ wRun.remBound ∧ wRun.rem = -wRun.period / 2 ∧
    (∃ t, tone 1000 200 wRun = .go t) ∧ ∃ t, tone 1000 ((3 : Nat) * 200) wRun = .go t :=
  ⟨by decide, by decide +kernel, by decide +kernel,
    ⟨_, tone_fits 1000 200 wRun (by decide) (by decide +kernel)⟩,
    ⟨_, tone_fits 1000 ((3 : Nat) * 200) wRun (by decide) (by decide +kernel)⟩⟩

/-- CountOfManyRequests: a fresh oscillator, and requests that do not raise (vector T6's, from `REM = 0`). -/
theorem witness_CountOfManyRequests :
    let s := runWith configP2
    0 < s.sampleRate ∧ s.sink = [] ∧ s.len = 0 ∧ s.ph = 0 ∧ s.rem = 0 ∧
    (∀ r ∈ [((0 : Nat), (50 : Rat)), (1000, 50)], 0 ≤ r.2) ∧
    (match [((0 : Nat), (50 : Rat)), (1000, 50)].foldl
        (fun (flow : Flow) (r : Nat × Rat) => flow.bind (tone r.1 r.2)) (.go s) with
      | .go t => t.len == 1
      | .raised _ => false) = true := by
  refine ⟨?_, ?_, ?_, ?_, ?_, ?_, ?_⟩ <;> decide +kernel

/-- SampleWithinOne, SamplesAtQuarterTurns: the parameters at their defaults, and each quarter of a turn. -/
theorem witness_SamplesAtQuarterTurns : State.reset.par.ok ∧ 0 < 8000 ∧
    (0 < (32767 / 5 : Rat) ∧ (32767 / 5 : Rat) + 1 ≤ 32767 ∧ 2 * 4000 % 8000 = 0) ∧
    (4 * 2000 % 8000 = 0 ∧ 4 * 2000 / 8000 % 4 = 1) ∧ (4 * 6000 % 8000 = 0 ∧ 4 * 6000 / 8000 % 4 = 3) := by
  decide +kernel

/-- SinkAppendRule: a full sink, and one with room for the last sample. -/
theorem witness_SinkAppendRule : wTight.len.toNat < wTight.par.maxSamples.val ∧
    ({ wTight with len := 3 } : State).par.maxSamples.val ≤ ({ wTight with len := 3 } : State).len.toNat := by
  decide

/-- CapacityErrors, FaultEntry: a step that ends in a capacity error. -/
theorem witness_CapacityErrors : (withWord wTight 0x050003E8000000FA).Inv ∧
    (withWord wTight 0x050003E8000000FA).state ≠ .fault ∧
    ∃ t, step (withWord wTight 0x050003E8000000FA) = .next t ∧ t.err = some .capacityExceededError ∧
      t.state = .fault :=
  ⟨by decide +kernel, by decide, _, rfl, by decide +kernel, by decide +kernel⟩

/-- FaultEntry: a step that ends in another error. -/
theorem witness_FaultEntry : ∃ t, step (withWord wRun 0x0300000000000000) = .next t ∧ t.state = .fault ∧
    t.err ≠ some .capacityExceededError ∧ wRun.state ≠ .fault := ⟨_, rfl, by decide, by decide, by decide⟩

/-- OverflowRaises: each of the three commands. -/
theorem witness_OverflowRaises :
    ({ wIdle with par := { Config.Params.default with maxSamples := 1039 } } : State).Inv ∧
    (((1040 : Nat) : Int) = Int.floor ((1040 * (1000000 / wIdle.baud) + wIdle.rem) / (1000000 / wIdle.sampleRate)
      + 1 / 2) ∧ 1039 < wIdle.len.toNat + 1040) ∧
    ((wTight.frameTones 0x53).length = 11 ∧ ((11 : Nat) : Int) =
      Int.floor ((11 * (1000000 / wTight.baud) + wTight.rem) / (1000000 / wTight.sampleRate) + 1 / 2) ∧
      wTight.par.maxSamples.val < wTight.len.toNat + 11) ∧
    (((240 : Nat) : Int) =
      Int.floor ((240 * (1000000 / wTight.baud) + wTight.rem) / (1000000 / wTight.sampleRate) + 1 / 2) ∧
      wTight.par.maxSamples.val < wTight.len.toNat + 240) := by
  refine ⟨?_, ⟨?_, ?_⟩, ⟨?_, ?_, ?_⟩, ?_, ?_⟩ <;> decide +kernel

/-- WriteWav. -/
theorem witness_WriteWav : wClosedWav.Inv ∧ wClosedWav.state = .closed ∧ wClosedWav.format = 0 :=
  ⟨wClosedWav_inv, by decide, by decide⟩

/-- WriteAiff. -/
theorem witness_WriteAiff : wClosed.Inv ∧ wClosed.state = .closed ∧ wClosed.format = 1 :=
  ⟨wClosed_inv, by decide, by decide⟩

/-- ExtendedRate: both ends of the range. -/
theorem witness_ExtendedRate : 1 ≤ 1 ∧ 1 < 2 ^ 32 ∧ 1 ≤ 4294967295 ∧ 4294967295 < 2 ^ 32 := by decide

/-- HeaderRoundTrip: a file of each format. -/
theorem witness_HeaderRoundTrip :
    (∃ t, exec .write wClosed = .next t ∧ t.out = wClosed.out ++ t.out) ∧
    (∃ t, exec .write wClosedWav = .next t ∧ t.out = wClosedWav.out ++ t.out) :=
  ⟨⟨_, rfl, rfl⟩, ⟨_, rfl, rfl⟩⟩

/-- FirstErrorKept, NeverResourceOpenError: a step in `FAULT`. -/
theorem witness_FirstErrorKept : wFault.state = .fault ∧ wFault.err ≠ some .resourceOpenError ∧
    ∃ t, step (withWord wFault 0x0000000000000000) = .next t := ⟨by decide, by decide, _, rfl⟩

/-- ConfigurationFrozen: a `CFGW` in `RUN`. -/
theorem witness_ConfigurationFrozen : ∃ t, step (withWord wRun 0x0200000000005622) = .next t ∧
    wRun.state ≠ .idle ∧ decode 0x0200000000005622 ≠ .ok .reset := ⟨_, rfl, by decide, by decide⟩

/-- WarningsInert: a `START`. -/
theorem witness_WarningsInert : decode 0x0300000000000000 ≠ .ok (.rdsr 3) ∧
    ∃ t, step (withWord wIdle 0x0300000000000000) = .next t := ⟨by decide, _, rfl⟩

/-- WholeRun: P2 (AIFF), with room, with a capacity of exactly its 1291 samples, and with one less; the same as
WAV. -/
theorem witness_WholeRun :
    let s := { wIdle with port := present (expandRun [0x53]) }
    let exact : State := { s with par := { s.par with maxSamples := 1291 } }
    let tight : State := { s with par := { s.par with maxSamples := 1290 } }
    let wav : State := { s with cfg := registers 8000 8000 2000 1000 7 2 2 0 }
    (s.Inv ∧ exact.Inv ∧ tight.Inv ∧ wav.Inv) ∧
    (s.state = .idle ∧ exact.state = .idle ∧ tight.state = .idle ∧ wav.state = .idle) ∧
    (s.configLegal ∧ exact.configLegal ∧ tight.configLegal ∧ wav.configLegal) ∧
    1291 = 1040 + [0x53].length * (1 + s.bitWidth + (if s.parity = 0 then 0 else 1) + s.stopBits) + 240 ∧
    ((1291 : Nat) : Int) = Int.floor (((1291 : Nat) * s.sampleRate : Rat) / s.baud + 1 / 2) ∧
    1291 ≤ s.par.maxSamples.val ∧ 1291 = exact.par.maxSamples.val ∧ tight.par.maxSamples.val < 1291 ∧
    s.format = 1 ∧ wav.format = 0 := by
  refine ⟨⟨?_, ?_, ?_, ?_⟩, ⟨?_, ?_, ?_, ?_⟩, ⟨?_, ?_, ?_, ?_⟩, ?_, ?_, ?_, ?_, ?_, ?_, ?_⟩ <;> decide +kernel

/-- HardwareReset, ResetDuringCommand, StepKeepsInvariant: the events, in a state with the invariant. -/
theorem witness_ResetDuringCommand :
    ({ wClosed with port := [.wordCutByReset 0x0700000000000000 3] } : State).Inv ∧
    ({ wRun with port := [.hardwareReset] } : State).Inv ∧
    (∃ t, step { wRun with port := [.hardwareReset] } = .next t) ∧ decode 0x0600000000000000 ≠ .ok .write :=
  ⟨by decide +kernel, by decide +kernel, ⟨_, rfl⟩, by decide⟩

end Sys2Proof.Tests
end

section
/-! The state's counts and its configuration (10_state.md R24, R28): `LEN` and `REM` after any sequence of
requests, and which words change `cfg` and `CFGV`. -/

namespace Sys2Proof.Machine

/-! ## Requests one after another (R28) -/

/-- A request made where the requests before it have left off: the pseudocode goes on unless one raised. -/
def Flow.request (flow : Flow) (r : Nat × Rat) : Flow := flow.bind (tone r.1 r.2)

/-- After a request that raised, no later one runs. -/
theorem Flow.foldl_request_raised (requests : List (Nat × Rat)) (s : State) :
    requests.foldl Flow.request (.raised s) = .raised s := by
  induction requests with
  | nil => rfl
  | cons r requests ih => exact ih

/-- A fresh oscillator is within its bounds. -/
theorem oscOk_of_fresh (s : State) (hfs : 0 < s.sampleRate) (hsink : s.sink = []) (hlen : s.len = 0)
    (hph : s.ph = 0) (hrem : s.rem = 0) : s.oscOk := by
  have hT := s.period_pos hfs
  refine ⟨hfs, by rwa [hph], ?_, ?_⟩
  · rw [State.remBound, hrem]
    constructor <;> linarith
  · simp [State.sinkInv, Memory.dense, hsink, hlen]

/-- The base state is reached from itself by no request. -/
theorem Counts.refl (s : State) (hs : s.oscOk) : Counts s s 0 := by
  obtain ⟨hcount, hrem⟩ := sampleCount_zero s hs
  exact ⟨hs, rfl, rfl, rfl, rfl, rfl, by simp [hcount], hrem.symm⟩

/-- A tone that does not raise leaves what `SoundsTo` says. -/
theorem soundsTo_of_tone_go (s t : State) (f : Nat) (d : Rat) (hs : s.oscOk) (h : tone f d s = .go t) :
    SoundsTo s t d := by
  rcases tone_cases f d s hs with ⟨hfit, hgo⟩ | ⟨-, hraised⟩
  · obtain rfl : t = s.afterTone f d := Flow.go.inj (h.symm.trans hgo)
    exact tone_soundsTo s f d hs hfit
  · rw [hraised] at h; cases h

/-- Requests of any frequencies and durations, none of which raises, add their durations (R28). -/
theorem Counts.requests {b : State} (hb : b.oscOk) (requests : List (Nat × Rat)) {t u : State} {D : Rat}
    (h : Counts b t D) (hD : 0 ≤ D) (hd : ∀ r ∈ requests, 0 ≤ r.2)
    (hu : requests.foldl Flow.request (.go t) = .go u) : Counts b u (D + (requests.map Prod.snd).sum) := by
  induction requests generalizing t D with
  | nil =>
    obtain rfl : t = u := Flow.go.inj hu
    simpa using h
  | cons r requests ih =>
    obtain ⟨hr, hrest⟩ := List.forall_mem_cons.1 hd
    change requests.foldl Flow.request (tone r.1 r.2 t) = .go u at hu
    cases htone : tone r.1 r.2 t with
    | raised v => rw [htone, Flow.foldl_request_raised] at hu; cases hu
    | go v =>
      rw [htone] at hu
      have hv : Counts b v (D + r.2) := h.sounds hb hD hr (soundsTo_of_tone_go t v r.1 r.2 h.ok htone)
      rw [List.map_cons, List.sum_cons, ← add_assoc]
      exact ih hv (add_nonneg hD hr) hrest hu

/-- From `REM = 0`, the count of a duration is the duration in sample periods, rounded (R28, R121). -/
theorem sampleCount_of_rem_zero (s : State) (d : Rat) (hrem : s.rem = 0) :
    s.sampleCount d = rhu (d / s.period) := by
  rw [State.sampleCount, hrem, add_zero]

/-- Settles O33: the requests add up to one count of their total duration (`Counts.requests`), and from a fresh
oscillator `LEN` and `REM` are the quotient and the remainder of that count. -/
theorem countOfManyRequests : Obligations.CountOfManyRequests := by
  intro s t requests hfs hsink hlen hph hrem hd hgo
  have hs := oscOk_of_fresh s hfs hsink hlen hph hrem
  have hcounts : Counts s t (requests.map Prod.snd).sum := by
    simpa only [zero_add] using (Counts.refl s hs).requests hs requests le_rfl hd hgo
  have hD : 0 ≤ (requests.map Prod.snd).sum := List.sum_nonneg (List.forall_mem_map.2 hd)
  set D := (requests.map Prod.snd).sum
  obtain ⟨-, -, ⟨hremLow, -⟩, -⟩ := hs
  have hcount := sampleCount_nonneg s D (s.period_pos hfs) hremLow hD
  have hlenInt : (t.len.toNat : Int) = s.sampleCount D := by
    rw [hcounts.len, hlen]; simp [hcount]
  have hlenRat : (t.len.toNat : Rat) = s.sampleCount D := by exact_mod_cast hlenInt
  have htotal : t.len.toNat * s.period + t.rem = D := by
    rw [hcounts.rem, State.remAfter, hrem, hlenRat]; ring
  have hbound : -s.period / 2 ≤ t.rem ∧ t.rem < s.period / 2 := by
    rw [hcounts.rem]; exact remAfter_bound s D hfs
  refine ⟨hbound, htotal, hlenInt.trans (sampleCount_of_rem_zero s D hrem), ?_⟩
  obtain ⟨hlow, hhigh⟩ := hbound
  rw [abs_le]
  constructor <;> linarith

/-! ## The configuration (R24) -/

/-- Of the commands that a state allows, only `CFGW` changes the configuration. -/
theorem Ran.keeps_cfg {i : Instr} {s t : State} (h : Ran i s t) (hi : ∀ idx v, i ≠ .cfgw idx v) :
    t.cfg = s.cfg ∧ t.cfgv = s.cfgv := by
  rcases ran_shape i s t h with ⟨idx, v, rfl, -, -⟩ | ⟨-, -, -, rfl⟩ |
    ⟨-, -, -, u, hu, -, rfl | ⟨st, rfl, -⟩⟩ | ⟨-, -, bytes, rfl⟩
  · exact absurd rfl (hi idx v)
  · exact ⟨rfl, rfl⟩
  · rw [hu]; exact ⟨rfl, rfl⟩
  · rw [hu]; exact ⟨rfl, rfl⟩
  · exact ⟨rfl, rfl⟩

/-- A `CFGW` that runs does so in `IDLE`. -/
theorem Ran.idle_of_cfgw {idx : Fin 8} {v : Reg32} {s t : State} (h : Ran (.cfgw idx v) s t) :
    s.state = .idle := by
  cases h with
  | cfgw _ _ _ hidle => exact hidle

/-- A word that is neither `RESET` nor a `CFGW` in `IDLE` keeps the configuration (R24). -/
theorem runWord_keeps_cfg (w : CmdWord) (s t : State) (h : runWord w s = .next t)
    (hreset : decode w ≠ .ok .reset) (hcfgw : ¬ (s.state = .idle ∧ ∃ idx v, decode w = .ok (.cfgw idx v))) :
    t.cfg = s.cfg ∧ t.cfgv = s.cfgv := by
  rcases runWord_next w s t h with
    ⟨hd, -⟩ | ⟨idx, -, -, rfl⟩ | ⟨-, -, rfl⟩ | ⟨-, -, info, rfl⟩ | ⟨i, hd, hran⟩
  · exact absurd hd hreset
  · exact ⟨rfl, rfl⟩
  · exact ⟨rfl, rfl⟩
  · exact ⟨rfl, rfl⟩
  · refine hran.keeps_cfg ?_
    rintro idx v rfl
    exact hcfgw ⟨hran.idle_of_cfgw, idx, v, hd⟩

/-- Settles O52: by what a word can do (`runWord_next`), and because R102 has `CFGW` in `IDLE` only. -/
theorem configurationFrozen : Obligations.ConfigurationFrozen := by
  intro s t w rest hport hstep
  constructor
  · intro hreset hcfgw
    rw [step_word s w rest hport] at hstep
    exact runWord_keeps_cfg w { s with port := rest } t hstep hreset hcfgw
  · intro idx v hd hidle hfault
    rw [step_command s w rest _ hport hd,
      exec_illegal (.cfgw idx v) .idle { s with port := rest } rfl hidle hfault] at hstep
    obtain rfl := Host.Outcome.next.inj hstep
    exact ⟨rfl, rfl⟩

end Sys2Proof.Machine
end

section
/-! Illegal words (30_encoding.md R82): what each opcode requires of the fields `a` and `b`, as arithmetic, and
what the block does with a word that is no command. -/

namespace Sys2Proof

/-! ## The bits a command requires to be 0 (R81) -/

theorem eq_zero_iff_toNat {n : Nat} (x : BitVec n) : x = 0 ↔ x.toNat = 0 := BitVec.toNat_inj.symm

/-- `b[31:8] = 0`, which `BYTE` requires. -/
theorem upperB_eq_zero_iff (b : BitVec 32) : b.extractLsb' 8 24 = 0 ↔ b.toNat < 256 := by
  have h : (b.extractLsb' 8 24).toNat = b.toNat / 256 := by
    have hb := b.isLt
    rw [BitVec.extractLsb'_toNat, Nat.shiftRight_eq_div_pow]; omega
  rw [eq_zero_iff_toNat, h, Nat.div_eq_zero_iff_lt (by decide)]

/-- `a[23:3] = 0` as a bound on `a`. -/
theorem upperANotZero_iff_le (a : BitVec 24) : upperANotZero a = true ↔ 8 ≤ a.toNat := by
  rw [upperANotZero_iff]; omega

theorem decodePlain_illegal_iff (a : BitVec 24) (b : BitVec 32) (i : Instr) :
    (∃ e, decodePlain a b i = .error e) ↔ a.toNat ≠ 0 ∨ b.toNat ≠ 0 := by
  simp only [decodePlain, eq_zero_iff_toNat]
  split
  next h => exact iff_of_false (by simp) (by omega)
  next h => exact iff_of_true ⟨_, rfl⟩ (by omega)

/-! ## Which words an opcode makes illegal (R82) -/

theorem decode_illegal_iff_of_plain (w : CmdWord)
    (hop : (fieldOp w).toNat = 1 ∨ (fieldOp w).toNat = 3 ∨ (fieldOp w).toNat = 6 ∨ (fieldOp w).toNat = 7) :
    (∃ e, decode w = .error e) ↔ (fieldA w).toNat ≠ 0 ∨ (fieldB w).toNat ≠ 0 := by
  have hplain : ∃ i, decode w = decodePlain (fieldA w) (fieldB w) i := by
    rcases hop with hop | hop | hop | hop
    · exact ⟨.reset, by simp only [decode, hop]⟩
    · exact ⟨.start, by simp only [decode, hop]⟩
    · exact ⟨.eoi, by simp only [decode, hop]⟩
    · exact ⟨.write, by simp only [decode, hop]⟩
  obtain ⟨i, hi⟩ := hplain
  rw [hi, decodePlain_illegal_iff]

theorem decode_illegal_iff_of_cfgw (w : CmdWord) (hop : (fieldOp w).toNat = 2) :
    (∃ e, decode w = .error e) ↔ 8 ≤ (fieldA w).toNat := by
  simp only [decode, hop, upperANotZero_iff_le]
  split
  next h => exact iff_of_true ⟨_, rfl⟩ h
  next h => exact iff_of_false (by simp) h

theorem decode_illegal_iff_of_byte (w : CmdWord) (hop : (fieldOp w).toNat = 4) :
    (∃ e, decode w = .error e) ↔ (fieldA w).toNat ≠ 0 ∨ 256 ≤ (fieldB w).toNat := by
  simp only [decode, hop, upperB_eq_zero_iff, eq_zero_iff_toNat (fieldA w)]
  split
  next h => exact iff_of_false (by simp) (by omega)
  next h => exact iff_of_true ⟨_, rfl⟩ (by omega)

theorem decode_legal_of_tone (w : CmdWord) (hop : (fieldOp w).toNat = 5) :
    ¬ ∃ e, decode w = .error e := by
  simp [decode, hop]

theorem decode_illegal_iff_of_rdsr (w : CmdWord) (hop : (fieldOp w).toNat = 8) :
    (∃ e, decode w = .error e) ↔
      (8 ≤ (fieldA w).toNat ∨ (fieldB w).toNat ≠ 0) ∨ 4 < (fieldA w).toNat % 8 := by
  simp only [decode, hop, Bool.or_eq_true, upperANotZero_iff_le, bne_iff_ne, ne_eq, eq_zero_iff_toNat,
    registerNumber_val]
  split
  next h => exact iff_of_true ⟨_, rfl⟩ (.inl h)
  next h =>
    split
    next hidx => exact iff_of_false (by simp) (by omega)
    next hidx => exact iff_of_true ⟨_, rfl⟩ (by omega)

theorem decode_illegal_of_reserved (w : CmdWord) (hop : ¬ (1 ≤ (fieldOp w).toNat ∧ (fieldOp w).toNat ≤ 8)) :
    ∃ e, decode w = .error e := by
  refine ⟨.reservedOpcode (fieldOp w), ?_⟩
  unfold decode
  split
  case h_9 => rfl
  all_goals omega

/-- The lines of R82, on the values of the three fields. -/
def illegalFields (op a b : Nat) : Prop :=
  ¬(1 ≤ op ∧ op ≤ 8) ∨
  ((op = 1 ∨ op = 3 ∨ op = 6 ∨ op = 7) ∧ (a ≠ 0 ∨ b ≠ 0)) ∨ (op = 4 ∧ a ≠ 0) ∨ (op = 8 ∧ b ≠ 0) ∨
  ((op = 2 ∨ op = 8) ∧ 8 ≤ a) ∨ (op = 4 ∧ 256 ≤ b) ∨ (op = 8 ∧ 4 < a % 8)

/-- R82: one case for each kind of opcode. -/
theorem decode_illegal_iff (w : CmdWord) :
    (∃ e, decode w = .error e) ↔ illegalFields (fieldOp w).toNat (fieldA w).toNat (fieldB w).toNat := by
  unfold illegalFields
  by_cases hop : 1 ≤ (fieldOp w).toNat ∧ (fieldOp w).toNat ≤ 8
  case neg => exact iff_of_true (decode_illegal_of_reserved w hop) (.inl hop)
  have hkinds : ((fieldOp w).toNat = 1 ∨ (fieldOp w).toNat = 3 ∨ (fieldOp w).toNat = 6 ∨
      (fieldOp w).toNat = 7) ∨ (fieldOp w).toNat = 2 ∨ (fieldOp w).toNat = 4 ∨ (fieldOp w).toNat = 5 ∨
      (fieldOp w).toNat = 8 := by omega
  rcases hkinds with hplain | hcfgw | hbyte | htone | hrdsr
  · rw [decode_illegal_iff_of_plain w hplain]; omega
  · rw [decode_illegal_iff_of_cfgw w hcfgw]; omega
  · rw [decode_illegal_iff_of_byte w hbyte]; omega
  · exact iff_of_false (decode_legal_of_tone w htone) (by omega)
  · rw [decode_illegal_iff_of_rdsr w hrdsr]; omega

end Sys2Proof

namespace Sys2Proof.Machine

/-- Settles O4: the fields of R82 line by line (`decode_illegal_iff`), and the two ends of an illegal word
(`illegalWord_cases`). -/
theorem illegalWords : Obligations.IllegalWords := by
  refine ⟨fun w => ?_, fun s w rest e hport hd => ?_⟩
  · rw [← fieldOp_toNat, ← fieldA_toNat, ← fieldB_toNat]
    exact decode_illegal_iff w
  · rw [step_illegal s w rest e hport hd]
    rcases illegalWord_cases w { s with port := rest } with ⟨hfault, hdropped⟩ | ⟨hlive, hraised⟩
    · exact ⟨fun _ => hdropped, fun hne => absurd hfault hne⟩
    · exact ⟨fun hf => absurd hf hlive, fun _ => ⟨_, hraised, rfl, rfl⟩⟩

end Sys2Proof.Machine
end

section
/-! Words the block turns away or only answers (40_control.md R101, R106, R110): what an illegal word does in and
outside `FAULT`, and what `RDSR` responds. -/

namespace Sys2Proof.Machine

/-! ## Illegal words (R101) -/

/-- `FAULT` drops a word that is no command. -/
theorem step_illegal_of_fault (s : State) (w : CmdWord) (rest : List HostEvent) (e : DecodeError)
    (hport : s.port = .word w :: rest) (hd : decode w = .error e) (hfault : s.state = .fault) :
    step s = .next { s with port := rest } := by
  rw [step_illegal s w rest e hport hd]
  rcases illegalWord_cases w { s with port := rest } with ⟨-, hdropped⟩ | ⟨hlive, -⟩
  · exact hdropped
  · exact absurd hfault hlive

/-- Outside `FAULT` a word that is no command raises. -/
theorem step_illegal_of_live (s : State) (w : CmdWord) (rest : List HostEvent) (e : DecodeError)
    (hport : s.port = .word w :: rest) (hd : decode w = .error e) (hlive : s.state ≠ .fault) :
    step s = .next (({ s with port := rest } : State).raise .illegalCommand (upperHalf w)) := by
  rw [step_illegal s w rest e hport hd]
  rcases illegalWord_cases w { s with port := rest } with ⟨hfault, -⟩ | ⟨-, hraised⟩
  · exact absurd hfault hlive
  · exact hraised

/-- Settles O8: outside `FAULT` such a word raises (`step_illegal_of_live`), with the upper half of its bits. -/
theorem illegalWordRaises : Obligations.IllegalWordRaises := by
  intro s w rest e hport hd hlive
  exact ⟨upperHalf w, upperHalf_toNat w, rfl, step_illegal_of_live s w rest e hport hd hlive⟩

/-! ## RDSR (R106) -/

theorem eq_of_decodePlain (a : BitVec 24) (b : BitVec 32) (i j : Instr) (hd : decodePlain a b i = .ok j) :
    j = i := by
  unfold decodePlain at hd
  split at hd
  · exact (Except.ok.inj hd).symm
  · cases hd

/-- R82: a number that names no status register is never decoded. -/
theorem rdsr_le_of_decode (w : CmdWord) (idx : Fin 8) (hd : decode w = .ok (.rdsr idx)) : idx.val ≤ 4 := by
  simp only [decode] at hd
  split at hd
  case h_8 =>
    split at hd
    · cases hd
    · split at hd
      next hle =>
        obtain rfl := Instr.rdsr.inj (Except.ok.inj hd)
        exact hle
      next => cases hd
  case h_2 => split at hd <;> cases hd
  case h_4 => split at hd <;> cases hd
  case h_5 => cases hd
  case h_9 => cases hd
  all_goals cases eq_of_decodePlain _ _ _ _ hd

theorem exec_rdsr_of_le (idx : Fin 8) (s : State) (h : idx.val ≤ 4) :
    exec (.rdsr idx) s = .next (s.respond (s.statusValue idx)) := by
  have hw : (Instr.rdsr idx).wellFormed = true := by simpa [Instr.wellFormed] using h
  show execRdsr idx s = _
  rw [execRdsr, if_pos hw]

theorem RunState.code_toNat (st : RunState) : st.code.toNat = stateNumber st := by
  cases st <;> rfl

theorem errCode_toNat (err : Option ErrKind) : (errCode err).toNat = errNumber err := by
  cases err with
  | none => rfl
  | some kind => cases kind <;> rfl

/-- R82: `RDSR` of a number above 4, or with a must-be-zero bit set. -/
theorem decode_illegal_of_rdsr (w : CmdWord) (hop : w.toNat / 2 ^ 56 = 8)
    (h : 4 < w.toNat / 2 ^ 32 % 2 ^ 24 ∨ w.toNat % 2 ^ 32 ≠ 0) : ∃ e, decode w = .error e := by
  rw [← fieldOp_toNat] at hop
  rw [← fieldA_toNat, ← fieldB_toNat] at h
  rw [decode_illegal_iff_of_rdsr w hop]
  omega

/-- Settles O14: the value responded is `statusValue` (`exec_rdsr_of_le`); other words of the opcode are no
command (`decode_illegal_of_rdsr`). -/
theorem rdsrResponds : Obligations.RdsrResponds := by
  constructor
  · intro s idx hidx
    refine ⟨s.statusValue idx, exec_rdsr_of_le idx s hidx, ?_, ?_, ?_, ?_, ?_⟩
    · rintro rfl; exact RunState.code_toNat s.state
    · rintro rfl; exact errCode_toNat s.err
    · rintro rfl; rfl
    · rintro rfl; rfl
    · rintro rfl; rfl
  · intro s w rest hport hop hbits
    obtain ⟨e, hd⟩ := decode_illegal_of_rdsr w hop hbits
    exact ⟨step_illegal_of_fault s w rest e hport hd,
      fun hlive => ⟨upperHalf w, upperHalf_toNat w, step_illegal_of_live s w rest e hport hd hlive⟩⟩

/-! ## FAULT (R110) -/

/-- In `FAULT` every word but `RESET` and `RDSR` is only taken. -/
theorem step_dropped (s : State) (w : CmdWord) (rest : List HostEvent) (hport : s.port = .word w :: rest)
    (hfault : s.state = .fault) (hreset : decode w ≠ .ok .reset) (hrdsr : ∀ idx, decode w ≠ .ok (.rdsr idx)) :
    step s = .next { s with port := rest } := by
  cases hd : decode w with
  | error e => exact step_illegal_of_fault s w rest e hport hd hfault
  | ok i =>
    rw [step_command s w rest i hport hd]
    refine exec_dropped i { s with port := rest } hfault ?_ fun idx => ?_
    · rintro rfl; exact hreset hd
    · rintro rfl; exact hrdsr idx hd

/-- Settles O10: one case for `RDSR`, one for `RESET`, one for the words dropped (`step_dropped`). -/
theorem faultStateDropsWords : Obligations.FaultStateDropsWords := by
  intro s w rest hport hfault
  refine ⟨fun idx hd => ?_, fun hd => ?_, step_dropped s w rest hport hfault, ?_⟩
  · rw [step_command s w rest _ hport hd, exec_rdsr_of_le idx _ (rdsr_le_of_decode w idx hd)]
    exact ⟨_, rfl⟩
  · exact ⟨_, step_command s w rest _ hport hd, rfl, rfl⟩
  · rintro ⟨hdone, -⟩
    rw [hfault] at hdone
    cases hdone

end Sys2Proof.Machine
end

section
/-! CFGW (40_control.md R104): one configuration register and its written flag. -/

namespace Sys2Proof.Machine

theorem exec_cfgw_of_idle (idx : Fin 8) (v : Reg32) (s : State) (hidle : s.state = .idle) :
    exec (.cfgw idx v) s = .next (s.writeCfg idx v) :=
  checked_runs (.cfgw idx v) s (fun s => .next (s.writeCfg idx v)) (by simp [hidle]) (by simp [legalIn, hidle])

/-! ## What a write reads back as -/

theorem writeCfg_cfg_same (idx : Fin 8) (v : Reg32) (s : State) : (s.writeCfg idx v).cfg[idx] = v := by
  simp

theorem writeCfg_cfg_other (idx j : Fin 8) (v : Reg32) (s : State) (h : j ≠ idx) :
    (s.writeCfg idx v).cfg[j] = s.cfg[j] := by
  have hne : idx.val ≠ j.val := fun e => h (Fin.ext e.symm)
  simp [Vector.getElem_set_ne _ _ hne]

theorem writeCfg_cfgv_getLsbD (idx : Fin 8) (v : Reg32) (s : State) (k : Nat) :
    (s.writeCfg idx v).cfgv.getLsbD k = (decide (k = idx.val) || s.cfgv.getLsbD k) := by
  simp [BitVec.getLsbD_twoPow, eq_comm, Bool.or_comm]

/-! ## Two writes -/

theorem writeCfg_comm (i j : Fin 8) (v w : Reg32) (s : State) (h : i ≠ j) :
    (s.writeCfg i v).writeCfg j w = (s.writeCfg j w).writeCfg i v := by
  have hcfg : (s.cfg.set i v).set j w = (s.cfg.set j w).set i v :=
    Vector.set_comm _ _ (fun e => h (Fin.ext e))
  have hcfgv : s.cfgv ||| BitVec.twoPow 8 i.val ||| BitVec.twoPow 8 j.val =
      s.cfgv ||| BitVec.twoPow 8 j.val ||| BitVec.twoPow 8 i.val := by
    rw [BitVec.or_assoc, BitVec.or_comm (BitVec.twoPow 8 i.val), BitVec.or_assoc]
  simp only [State.writeCfg, hcfg, hcfgv]

theorem writeCfg_writeCfg_same (i : Fin 8) (v w : Reg32) (s : State) :
    (s.writeCfg i v).writeCfg i w = s.writeCfg i w := by
  simp only [State.writeCfg, Vector.set_set, BitVec.or_assoc, BitVec.or_self]

/-! ## Where CFGW is illegal (R102) -/

/-- The upper half of a word put together is its opcode and its first operand. -/
theorem upperHalf_assemble_toNat (op : BitVec 8) (a : BitVec 24) (b : BitVec 32) :
    (upperHalf (assemble op a b)).toNat = op.toNat * 2 ^ 24 + a.toNat := by
  have := b.isLt
  rw [upperHalf_toNat, assemble_toNat]
  omega

theorem upperHalf_encode_cfgw (idx : Fin 8) (v : Reg32) :
    upperHalf (encode (.cfgw idx v)) = BitVec.ofNat 32 (0x02000000 + idx.val) := by
  apply BitVec.eq_of_toNat_eq
  have hidx := idx.isLt
  rw [encode, upperHalf_assemble_toNat]
  change 2 * 2 ^ 24 + (BitVec.ofNat 24 idx.val).toNat = _
  simp only [BitVec.toNat_ofNat]
  omega

/-- Settles O13: in `IDLE` a `CFGW` is `writeCfg`, of which the read-back, frame and order laws above speak;
elsewhere it is the illegal command of R102. -/
theorem cfgwWrites : Obligations.CfgwWrites := by
  refine ⟨fun s idx v => ⟨fun hidle => ?_, fun hlater => ?_⟩, ?_⟩
  · exact ⟨_, exec_cfgw_of_idle idx v s hidle, rfl, writeCfg_cfg_same idx v s,
      fun j hj => writeCfg_cfg_other idx j v s hj, fun k _ => writeCfg_cfgv_getLsbD idx v s k⟩
  · have hne : s.state ≠ .idle ∧ s.state ≠ .fault := by
      rcases hlater with h | h | h <;> simp [h]
    rw [exec_illegal (.cfgw idx v) .idle s rfl hne.1 hne.2, upperHalf_encode_cfgw]
    rfl
  · intro s t u i j v w hidle ht hu
    obtain rfl := Host.Outcome.next.inj ((exec_cfgw_of_idle i v s hidle).symm.trans ht)
    obtain rfl := Host.Outcome.next.inj ((exec_cfgw_of_idle j w (s.writeCfg i v) hidle).symm.trans hu)
    constructor
    · intro hij
      rw [writeCfg_comm i j v w s hij]
      exact ⟨_, exec_cfgw_of_idle j w s hidle, exec_cfgw_of_idle i v (s.writeCfg j w) hidle⟩
    · rintro rfl
      rw [writeCfg_writeCfg_same]
      exact exec_cfgw_of_idle i w s hidle

end Sys2Proof.Machine
end

section
/-! What `START` checks and warns of (40_control.md R108, R109). -/

namespace Sys2Proof.Machine

theorem exec_start_of_idle (s : State) (hidle : s.state = .idle) :
    exec .start s = .next (startRun s).final :=
  checked_runs .start s (fun s => (startRun s).outcome) (by simp [hidle]) (by simp [legalIn, hidle])

/-! ## The offending registers (R108) -/

/-- The bits of the configuration mask are the offending registers. -/
theorem configMask_getLsbD_iff_offends (s : State) (i : Nat) :
    s.configMask.getLsbD i = true ↔ s.offends i := by
  rw [configMask_getLsbD, Bool.and_eq_true, decide_eq_true_eq]
  refine and_congr_right fun hi => ?_
  rw [State.cfgBad, Bool.or_eq_true, Bool.not_eq_true']
  refine or_congr_right ?_
  unfold State.cfgIllegal
  split <;> simp_all

/-- Some register offends exactly when the configuration is not legal. -/
theorem exists_offends_iff (s : State) : (∃ i, s.offends i) ↔ ¬ s.configLegal := by
  rw [← configMask_zero_iff]
  constructor
  · rintro ⟨i, hi⟩ hzero
    have hbit := (configMask_getLsbD_iff_offends s i).2 hi
    rw [hzero] at hbit
    simp at hbit
  · intro hmask
    by_contra hnone
    refine hmask (BitVec.eq_of_getLsbD_eq fun i _ => ?_)
    rw [Bool.eq_false_iff.2 fun hbit => hnone ⟨i, (configMask_getLsbD_iff_offends s i).1 hbit⟩]
    simp

/-- Settles O15: a `START` that finds an offending register raises with the mask, whose bits are the offending
registers (`configMask_getLsbD_iff_offends`); one that finds none can only raise a capacity error. -/
theorem startChecksConfiguration : Obligations.StartChecksConfiguration := by
  intro s hidle
  rw [exists_offends_iff, ← not_exists, exists_offends_iff, not_not, exec_start_of_idle s hidle]
  rcases startRun_final s with ⟨hbad, -, hfinal⟩ | ⟨hlegal, u, hu, -, hfinal⟩
  · refine ⟨fun _ => ⟨_, fun i hi => ?_, congrArg _ hfinal⟩, fun hlegal => absurd hlegal hbad⟩
    rw [← configMask_getLsbD_iff_offends, BitVec.getLsbD_setWidth]
    simp [hi]
  · refine ⟨fun hbad => absurd hlegal hbad, fun _ herr t ht => ?_⟩
    obtain rfl := Host.Outcome.next.inj ht
    rcases hfinal with hfull | hrun
    · rw [hfull]; simp
    · rw [hrun, hu]; exact herr

/-! ## The warning flags (R109) -/

/-- A flag word has its one bit exactly when its condition holds. -/
theorem getLsbD_flag (p : Prop) [Decidable p] (k i : Nat) (hk : k < 32) :
    (if p then BitVec.twoPow 32 k else 0#32).getLsbD i = (decide (i = k) && decide p) := by
  split
  next h => simp [BitVec.getLsbD_twoPow, hk, h, eq_comm]
  next h => simp [h]

/-- The bits of `WARN` that `START` sets, where it was 0 before. -/
theorem setWarnings_warn_getLsbD (s : State) (hwarn : s.warn = 0) (i : Nat) :
    s.setWarnings.warn.getLsbD i = (decide (i = 0) && decide (s.toneGap < s.par.minShiftHz) ||
      decide (i = 1) && decide (s.markFreq < s.spaceFreq)) := by
  rw [← getLsbD_flag _ 0 i (by omega), ← getLsbD_flag _ 1 i (by omega), ← BitVec.getLsbD_or]
  simp only [State.setWarnings, hwarn, BitVec.ofNat_eq_ofNat, BitVec.zero_and, BitVec.zero_or]
  rfl

theorem toneGap_eq_natAbs (s : State) : s.toneGap = ((s.markFreq : Int) - s.spaceFreq).natAbs := by
  unfold State.toneGap
  split <;> omega

/-- A `START` that passes the check leaves the warnings it has set, whatever it ends in. -/
theorem startRun_final_warn (s : State) (hlegal : s.configLegal) :
    (startRun s).final.warn = s.setWarnings.warn := by
  rcases startRun_final s with ⟨hbad, -⟩ | ⟨-, u, hu, -, hfinal | hfinal⟩
  · exact absurd hlegal hbad
  · rw [hfinal, hu]; rfl
  · rw [hfinal, hu]

/-- Settles O16: `WARN` is 0 in `IDLE`, so after `START` it holds the two flags only
(`setWarnings_warn_getLsbD`). -/
theorem startWarns : Obligations.StartWarns := by
  rintro s t ⟨-, -, -, hfresh, -⟩ hidle hlegal ht
  obtain ⟨-, -, -, hwarn⟩ := hfresh (.inl hidle)
  obtain rfl := Host.Outcome.next.inj ((exec_start_of_idle s hidle).symm.trans ht)
  rw [startRun_final_warn s hlegal, ← toneGap_eq_natAbs]
  refine ⟨?_, ?_, fun i hi => ?_, rfl⟩
  · rw [setWarnings_warn_getLsbD s hwarn]; simp
  · rw [setWarnings_warn_getLsbD s hwarn]; simp
  · have h0 : i ≠ 0 := by omega
    have h1 : i ≠ 1 := by omega
    simp [setWarnings_warn_getLsbD s hwarn, h0, h1]

end Sys2Proof.Machine
end

section
/-! How `STATE` moves (40_control.md R103). -/

namespace Sys2Proof.Machine

/-- R103's moves: where a word that raises nothing leaves `STATE`. -/
def stateAfter : Except DecodeError Instr → RunState → RunState
  | .ok .reset, _ => .idle
  | .ok .start, .idle => .run
  | .ok .eoi, .run => .closed
  | .ok .write, .closed => .done
  | _, st => st

theorem stateAfter_cases (d : Except DecodeError Instr) (st : RunState) :
    stateAfter d st = st ∨ (st = .idle ∧ stateAfter d st = .run ∧ d = .ok .start) ∨
    (st = .run ∧ stateAfter d st = .closed ∧ d = .ok .eoi) ∨
    (st = .closed ∧ stateAfter d st = .done ∧ d = .ok .write) ∨
    (stateAfter d st = .idle ∧ d = .ok .reset) := by
  fun_cases stateAfter d st <;> simp

/-- Only `RESET` leaves `FAULT`. -/
theorem stateAfter_fault (d : Except DecodeError Instr) (hd : d ≠ .ok .reset) : stateAfter d .fault = .fault := by
  rcases stateAfter_cases d .fault with h | ⟨h, -⟩ | ⟨h, -⟩ | ⟨h, -⟩ | ⟨-, h⟩
  · exact h
  · cases h
  · cases h
  · cases h
  · exact absurd h hd

/-- From `s`, not in `FAULT`, a `raise` has led to `t`: an error stands, and `STATE` is `FAULT` (R200). -/
structure Raised (s t : State) : Prop where
  live : s.state ≠ .fault
  state : t.state = .fault
  err : t.err ≠ none

theorem raised_raise (s u : State) (kind : ErrKind) (info : Reg32) (h : s.state ≠ .fault) :
    Raised s (u.raise kind info) :=
  ⟨h, rfl, by simp⟩

/-- A sequence of tones raises, or leaves `STATE` and `ERR`. -/
theorem soundsFrom_moves (s : State) (f : Flow) (h : f.soundsFrom s) (hlive : s.state ≠ .fault) :
    Raised s f.final ∨ (f.final.state = s.state ∧ f.final.err = s.err) := by
  obtain ⟨u, hu, -, hfinal | hfinal⟩ := soundsFrom_final s f h
  · rw [hfinal]; exact .inl (raised_raise s u _ _ hlive)
  · rw [hfinal, hu]; exact .inr ⟨rfl, rfl⟩

/-- A command that runs raises, or moves `STATE` as R103 says and keeps `ERR`. -/
theorem Ran.moves {i : Instr} {s t : State} (h : Ran i s t) :
    Raised s t ∨ (t.state = stateAfter (.ok i) s.state ∧ t.err = s.err) := by
  cases h with
  | cfgw idx v _ hidle => exact .inr ⟨rfl, rfl⟩
  | start _ hidle =>
    have hlive : s.state ≠ .fault := by simp [hidle]
    rcases startRun_final s with ⟨-, -, hfinal⟩ | ⟨-, u, hu, -, hfinal | hfinal⟩
    · rw [hfinal]; exact .inl (raised_raise s s _ _ hlive)
    · rw [hfinal]; exact .inl (raised_raise s u _ _ hlive)
    · rw [hfinal, hu, hidle]; exact .inr ⟨rfl, rfl⟩
  | byte x _ hrun =>
    exact soundsFrom_moves s _ (toneEach_soundsFrom (s.frameTones x) s.bitDuration s) (by simp [hrun])
  | tone f d _ hrun =>
    exact soundsFrom_moves s _ (tone_soundsFrom (toneFreq f) (toneDuration d) s) (by simp [hrun])
  | eoi _ hrun =>
    obtain ⟨u, hu, -, hfinal | hfinal⟩ := endOfInput_final s
    · rw [hfinal]; exact .inl (raised_raise s u _ _ (by simp [hrun]))
    · rw [hfinal, hu, hrun]; exact .inr ⟨rfl, rfl⟩
  | write _ bytes hclosed _ => rw [hclosed]; exact .inr ⟨rfl, rfl⟩

/-- What a word does to `STATE` and `ERR`: it raises, or moves `STATE` as R103 says; only `RESET` clears `ERR`. -/
theorem runWord_moves (w : CmdWord) (s t : State) (h : runWord w s = .next t) :
    (Raised s t ∧ decode w ≠ .ok .reset) ∨
    (t.state = stateAfter (decode w) s.state ∧ (t.err = s.err ∨ decode w = .ok .reset)) := by
  rcases runWord_next w s t h with
    ⟨hd, rfl⟩ | ⟨idx, hd, -, rfl⟩ | ⟨hfault, hd, rfl⟩ | ⟨hlive, hd, info, rfl⟩ | ⟨i, hd, hran⟩
  · rw [hd]; exact .inr ⟨rfl, .inr rfl⟩
  · rw [hd]; exact .inr ⟨rfl, .inl rfl⟩
  · rw [hfault, stateAfter_fault _ hd]; exact .inr ⟨rfl, .inl rfl⟩
  · exact .inl ⟨raised_raise s s _ _ hlive, hd⟩
  · have hreset : i ≠ .reset := by cases hran <;> simp
    rw [hd]
    rcases hran.moves with hraised | ⟨hstate, herr⟩
    · exact .inl ⟨hraised, by simpa using hreset⟩
    · exact .inr ⟨hstate, .inl herr⟩

/-- In `CLOSED` a `WRITE` that answers raises nothing. -/
theorem exec_write_of_closed (s t : State) (hclosed : s.state = .closed) (h : exec .write s = .next t) :
    t.state = .done := by
  have hruns : exec .write s = writeFile s :=
    checked_runs .write s writeFile (by simp [hclosed]) (by simp [legalIn, hclosed])
  rw [hruns] at h
  rcases writeFile_cases s with ⟨r, hr⟩ | ⟨bytes, hw⟩
  · rw [hr] at h; cases h
  · rw [hw] at h; rw [← Host.Outcome.next.inj h]

/-- Settles O11: a word raises, or moves `STATE` as `stateAfter` says (`runWord_moves`); `WRITE` in `CLOSED`
does not raise (`exec_write_of_closed`). -/
theorem stateMoves : Obligations.StateMoves := by
  intro s t w rest hport hstep
  have hwrite : s.state = .closed → decode w = .ok .write → t.state = .done := fun hclosed hd =>
    exec_write_of_closed { s with port := rest } t hclosed (by rw [← step_command s w rest _ hport hd, hstep])
  rw [step_word s w rest hport] at hstep
  rcases runWord_moves w { s with port := rest } t hstep with ⟨⟨hlive, hfault, herr⟩, hreset⟩ | ⟨hstate, herr⟩
  · exact ⟨fun hd => absurd hd hreset, fun _ _ => .inr ⟨hfault, herr⟩, fun _ _ => .inr ⟨hfault, herr⟩, hwrite,
      fun _ => .inl hfault, .inr (.inr (.inr (.inr (.inr ⟨hlive, hfault, herr, hreset⟩))))⟩
  · refine ⟨fun hd => ?_, fun hidle hd => .inl ?_, fun hrun hd => .inl ?_, hwrite,
      fun hne => .inr (herr.resolve_left hne), ?_⟩
    · rw [hstate, hd]; rfl
    · rw [hstate, hd, hidle]; rfl
    · rw [hstate, hd, hrun]; rfl
    · rw [hstate]
      rcases stateAfter_cases (decode w) s.state with h | h | h | h | h
      · exact .inl h
      · exact .inr (.inl h)
      · exact .inr (.inr (.inl h))
      · exact .inr (.inr (.inr (.inl h)))
      · exact .inr (.inr (.inr (.inr (.inl h))))

end Sys2Proof.Machine
end

section
/-! A request to the oscillator (41_tone_oscillator.md R121 to R128, R132) and `TONE`, which is one: its count and
remainder in the spec's numbers, the phase it leaves, the samples read back from `SINK`. -/

namespace Sys2Proof.Machine

/-! ## The count and the remainder (R120 to R122) -/

/-- `T` in the spec's numbers (R120). -/
theorem State.period_eq (s : State) : s.period = 1000000 / s.sampleRate := by
  simp [State.period, Config.usPerSecond]

/-- `N` of R121, written out. -/
theorem sampleCount_eq_floor (s : State) (d : Rat) :
    s.sampleCount d = Int.floor ((d + s.rem) / (1000000 / s.sampleRate) + 1 / 2) := by
  rw [← s.period_eq]; rfl

/-- The new `REM` of a request of `n` samples, written out (R121). -/
theorem remAfter_eq (s : State) (d : Rat) (n : Nat) (hn : s.sampleCount d = n) :
    s.remAfter d = d + s.rem - n * (1000000 / s.sampleRate) := by
  rw [State.remAfter, hn, s.period_eq, Int.cast_natCast]

/-- A request leaves the new remainder even where it raises: `REM` is written first, and no sample touches it. -/
theorem tone_final_rem (f : Nat) (d : Rat) (s : State) : (tone f d s).final.rem = s.remAfter d := by
  change (emitSamples (s.sampleCount d).toNat f { s with rem := s.remAfter d }).final.rem = _
  rw [emitSamples_setRem]
  cases emitSamples (s.sampleCount d).toNat f s <;> rfl

/-- A duration of 0 has no sample, whatever the phase and `SINK`, which the count does not read. -/
theorem sampleCount_zero_of_remBound (s : State) (hfs : 0 < s.sampleRate) (hrem : s.remBound) :
    s.sampleCount 0 = 0 := by
  have hfresh : ({ s with ph := 0, len := 0, sink := [] } : State).oscOk :=
    ⟨hfs, hfs, hrem, rfl, Nat.zero_le _⟩
  exact (sampleCount_zero _ hfresh).1

/-- Settles O30: the remainder is the one of the count (`tone_final_rem`), in a request that raises too. -/
theorem remainderBounded : Obligations.RemainderBounded := by
  intro s f d hfs hrem hd
  refine ⟨sampleCount_nonneg s d (s.period_pos hfs) hrem.1 hd, ?_, ?_⟩
  · rw [tone_final_rem]; exact remAfter_bound s d hfs
  · rintro rfl
    exact ⟨sampleCount_zero_of_remBound s hfs hrem, tone_zero f s (s.period_pos hfs) hrem⟩

/-! ## The phase and the samples (R123 to R127) -/

/-- In a run the oscillator is within its bounds. -/
theorem State.Inv.oscOk {s : State} (hinv : s.Inv) (hlive : s.live) : s.oscOk := by
  obtain ⟨-, hsink, -, -, hrun⟩ := hinv
  obtain ⟨⟨-, ⟨hfs, -⟩, -⟩, hph, hrem⟩ := hrun (.inl hlive)
  exact ⟨hfs, hph, hrem, hsink⟩

/-- Advancing by a zero frequency leaves a phase in range as it is (R127). -/
theorem advance_eq_ite (s : State) (f k : Nat) (hph : s.ph < s.sampleRate) :
    (s.ph + k * f) % s.sampleRate = if f = 0 then s.ph else (s.ph + k * f) % s.sampleRate := by
  split
  next hf => rw [hf, Nat.mul_zero, Nat.add_zero, Nat.mod_eq_of_lt hph]
  next => rfl

/-- At and above `LEN` a sink holds nothing (R36). -/
theorem read_above_len (s : State) (i : Nat) (hs : s.sinkInv) (hi : s.len.toNat ≤ i) : s.sink.read i = none :=
  Memory.read_none _ _ fun p hp => by have := Memory.dense_below _ _ hs.1 p hp; omega

/-- Settles O28: the samples fit, so the request leaves `afterTone`, and the cells appended are `toneCells`. -/
theorem toneRequest : Obligations.ToneRequest := by
  intro s f d hinv hlive _ n hn hfit
  have hs := hinv.oscOk hlive
  have hcount : s.sampleCount d = n := (sampleCount_eq_floor s d).trans hn.symm
  have hnat : (s.sampleCount d).toNat = n := by rw [hcount, Int.toNat_natCast]
  rw [← hnat] at hfit
  have hafter := afterTone_oscOk s f d hs hfit
  obtain ⟨-, hph, -, hsink⟩ := hs
  refine ⟨s.afterTone f d, tone_fits f d s hsink hfit, rfl, ?_, remAfter_eq s d n hcount, ?_, ?_, ?_, ?_⟩
  · rw [afterTone_len s f d hfit, hnat]
  · rw [afterTone_ph s f d hph, hnat, ← advance_eq_ite s f n hph]
  · exact fun i hi => Memory.read_append_left _ _ _ i hsink.1 hi
  · rw [afterTone_sink, hnat]
    exact fun j hj => read_append_right s f n j hsink.1 hj
  · exact fun i hi => read_above_len _ i hafter.2.2.2 hi

/-! ## `TONE` (R128) and a request that does not fit (R132) -/

/-- `TONE` in `RUN` is the request of its operands. -/
theorem exec_tone_of_run (g : BitVec 24) (b : Reg32) (s : State) (hrun : s.state = .run) :
    exec (.tone g b) s = .next (tone g.toNat b.toNat s).final :=
  checked_runs (.tone g b) s (fun s => (tone (toneFreq g) (toneDuration b) s).outcome)
    (by simp [hrun]) (by simp [legalIn, hrun])

/-- Settles O29: `room` samples fit, and the request raises in `fullTone`, which has advanced the phase once more. -/
theorem toneOverflows : Obligations.ToneOverflows := by
  intro s f d hinv hlive _ n k hn hk hkn
  obtain ⟨-, hph, -, hsink⟩ := hinv.oscOk hlive
  have hcount : s.sampleCount d = n := (sampleCount_eq_floor s d).trans hn.symm
  have hroom : s.room = k := by unfold State.room; omega
  have hraised : tone f d s = .raised ((s.fullTone f d).raise .capacityExceededError 0) :=
    tone_full f d s hsink (by omega)
  refine ⟨_, hraised, rfl, remAfter_eq s d n hcount, fullTone_len s f d hsink, ?_, ?_, ?_, ?_, ?_⟩
  · rw [State.raise_ph, fullTone_ph s f d hph, hroom, ← advance_eq_ite s f (k + 1) hph]
  · exact fun i hi => Memory.read_append_left _ _ _ i hsink.1 hi
  · rw [State.raise_sink, fullTone_sink, hroom]
    exact fun j hj => read_append_right s f k j hsink.1 hj
  · intro more
    rw [hraised, Flow.bind_raised]
  · rintro g b hrun rfl rfl
    rw [exec_tone_of_run g b s hrun, hraised, Flow.final_raised]

/-- A frequency that is a multiple of the sample rate leaves the phase where it is (R128). -/
theorem advance_of_multiple (s : State) (f k : Nat) (hph : s.ph < s.sampleRate) (hf : f % s.sampleRate = 0) :
    (s.ph + k * f) % s.sampleRate = s.ph := by
  rw [Nat.add_mod, Nat.mul_mod, hf, Nat.mul_zero, Nat.zero_mod, Nat.add_zero, Nat.mod_mod, Nat.mod_eq_of_lt hph]

/-- Every sample of such a frequency, if it is not 0, is the one at the present phase (R128). -/
theorem toneCell_of_multiple (s : State) (f j : Nat) (hph : s.ph < s.sampleRate) (hne : f ≠ 0)
    (hf : f % s.sampleRate = 0) : s.toneCell f j = s.sampleNow := by
  rw [State.toneCell, if_neg hne, advance_of_multiple s f (j + 1) hph hf, State.sampleNow]

/-- Whether it raises or not, a request advances the phase some number of times and appends some number of its
samples. -/
theorem tone_final_appends (f : Nat) (d : Rat) (s : State) (hs : s.oscOk) :
    ∃ k m, (tone f d s).final.ph = (s.ph + k * f) % s.sampleRate ∧
      (tone f d s).final.len.toNat = s.len.toNat + m ∧ (tone f d s).final.sink = s.sink ++ s.toneCells f m := by
  rcases tone_cases f d s hs with ⟨hfit, h⟩ | ⟨-, h⟩
  · rw [h]
    exact ⟨_, _, afterTone_ph s f d hs.2.1, afterTone_len s f d hfit, rfl⟩
  · have hlen : s.par.maxSamples.val = s.len.toNat + s.room := by
      have := hs.2.2.2.2
      unfold State.room; omega
    rw [h]
    exact ⟨_, _, fullTone_ph s f d hs.2.1, (fullTone_len s f d hs.2.2.2).trans hlen, rfl⟩

/-- A request of a non-zero multiple of the sample rate keeps the phase and appends the sample at it (R128). -/
theorem tone_final_of_multiple (f : Nat) (d : Rat) (s : State) (hs : s.oscOk) (hne : f ≠ 0)
    (hf : f % s.sampleRate = 0) :
    (tone f d s).final.ph = s.ph ∧
      ∀ i, s.len.toNat ≤ i → i < (tone f d s).final.len.toNat →
        (tone f d s).final.sink.read i = some s.sampleNow := by
  obtain ⟨k, m, hk, hlen, hsink⟩ := tone_final_appends f d s hs
  obtain ⟨-, hph, -, hdense, -⟩ := hs
  rw [hk, hlen, hsink]
  refine ⟨advance_of_multiple s f k hph hf, fun i hle hlt => ?_⟩
  obtain ⟨j, rfl⟩ := Nat.exists_eq_add_of_le hle
  rw [read_append_right s f m j hdense (by omega), toneCell_of_multiple s f j hph hne hf]

/-- Settles O26: in `RUN` `TONE` is a request (`exec_tone_of_run`), whose corner cases are `tone_zero` and
`tone_final_of_multiple`; elsewhere it is the illegal command of R102. -/
theorem toneRuns : Obligations.ToneRuns := by
  intro s g b
  refine ⟨exec_tone_of_run g b s, fun hrun hinv => ?_, fun hrun hinv hne hmod => ?_, fun hlater => ?_⟩
  · obtain ⟨hfs, -, hrem, -⟩ := hinv.oscOk (.inl hrun)
    have hzero : ((0 : Reg32).toNat : Rat) = 0 := Nat.cast_zero
    rw [exec_tone_of_run g 0 s hrun, hzero, tone_zero g.toNat s (s.period_pos hfs) hrem, Flow.final_go]
  · have hne0 : g.toNat ≠ 0 := fun h => hne ((eq_zero_iff_toNat g).2 h)
    exact ⟨_, exec_tone_of_run g b s hrun,
      tone_final_of_multiple g.toNat b.toNat s (hinv.oscOk (.inl hrun)) hne0 hmod⟩
  · have hnot : s.state ≠ .run ∧ s.state ≠ .fault := by
      rcases hlater with h | h | h <;> simp [h]
    exact ⟨_, upperHalf_assemble_toNat 0x05 g b, exec_illegal (.tone g b) .run s rfl hnot.1 hnot.2⟩

end Sys2Proof.Machine
end

section
/-! START, BYTE and EOI as runs of requests (42_frame_encoder.md R147 to R149): a command's tones are one fold of
`tone`, which a raise ends. -/

namespace Sys2Proof.Machine

/-! ## Requests as a fold -/

/-- `BD` in the spec's numbers (R141). -/
theorem State.bitDuration_eq (s : State) : s.bitDuration = 1000000 / s.baud := by
  simp [State.bitDuration, Config.usPerSecond]

theorem Flow.bind_go_right (flow : Flow) : flow.bind .go = flow := by
  cases flow <;> rfl

/-- Requests folded onto a pseudocode are made where it goes on, and not where it has raised. -/
theorem foldl_tone_eq_bind (fs : List Nat) (d : Rat) (flow : Flow) :
    fs.foldl (fun (flow : Flow) (f : Nat) => flow.bind (tone f d)) flow = flow.bind (toneEach fs d) := by
  induction fs generalizing flow with
  | nil => exact flow.bind_go_right.symm
  | cons f fs ih => rw [List.foldl_cons, ih, Flow.bind_assoc]; rfl

/-- Requests folded from a state are the frame loop of R148. -/
theorem foldl_tone_eq_toneEach (fs : List Nat) (d : Rat) (s : State) :
    fs.foldl (fun (flow : Flow) (f : Nat) => flow.bind (tone f d)) (.go s) = toneEach fs d s :=
  foldl_tone_eq_bind fs d (.go s)

/-- Equal requests folded from a state are the repetition of R147 and R149. -/
theorem foldl_tone_replicate (n f : Nat) (d : Rat) (s : State) :
    (List.replicate n f).foldl (fun (flow : Flow) (f : Nat) => flow.bind (tone f d)) (.go s) =
      repeatTone n f d s := by
  rw [foldl_tone_eq_toneEach, toneEach_replicate]

/-! ## Where the commands run, and where they are illegal (R102) -/

theorem exec_byte_of_run (x : Byte) (s : State) (hrun : s.state = .run) :
    exec (.byte x) s = .next (sendFrame x s).final :=
  checked_runs (.byte x) s (fun s => (sendFrame x s).outcome) (by simp [hrun]) (by simp [legalIn, hrun])

theorem exec_eoi_of_run (s : State) (hrun : s.state = .run) : exec .eoi s = .next (endOfInput s).final :=
  checked_runs .eoi s (fun s => (endOfInput s).outcome) (by simp [hrun]) (by simp [legalIn, hrun])

/-- An illegal command whose first operand is 0 records its opcode alone (R33). -/
theorem upperHalf_encode_of_operandA_zero (i : Instr) (ha : operandA i = 0) :
    upperHalf (encode i) = BitVec.ofNat 32 ((opcode i).toNat * 2 ^ 24) := by
  apply BitVec.eq_of_toNat_eq
  have hop := (opcode i).isLt
  have hzero : (0 : BitVec 24).toNat = 0 := rfl
  rw [encode, upperHalf_assemble_toNat, ha, hzero, BitVec.toNat_ofNat]
  omega

/-- A command in the wrong state, outside `FAULT`, whose first operand is 0. -/
theorem exec_illegal_of_operandA_zero (i : Instr) (op : BitVec 8) (st : RunState) (s : State)
    (hop : opcode i = op) (ha : operandA i = 0) (hst : onlyState i = some st)
    (hne : s.state ≠ st ∧ s.state ≠ .fault) :
    exec i s = .next (s.raise .illegalCommand (BitVec.ofNat 32 (op.toNat * 2 ^ 24))) := by
  rw [exec_illegal i st s hst hne.1 hne.2, upperHalf_encode_of_operandA_zero i ha, hop]

theorem not_run_not_fault (s : State) (h : s.state = .idle ∨ s.state = .closed ∨ s.state = .done) :
    s.state ≠ .run ∧ s.state ≠ .fault := by
  rcases h with h | h | h <;> simp [h]

/-! ## START, BYTE, EOI -/

/-- A `START` that passes the check makes its preamble from the state with the warnings set (R147). -/
theorem startRun_of_configLegal (s : State) (hlegal : s.configLegal) :
    startRun s =
      (repeatTone Config.preBits s.markFreq s.bitDuration s.setWarnings).bind (enter .run) := by
  rcases commitConfig_cases s with ⟨-, hgo⟩ | ⟨hbad, -⟩
  · rw [startRun, hgo, Flow.bind_go]
  · exact absurd hlegal hbad

/-- Settles O17: the check decides between the two outcomes in `IDLE` (`exists_offends_iff`); the preamble is a
repetition of one request (`foldl_tone_replicate`). -/
theorem startRuns : Obligations.StartRuns := by
  intro s
  refine ⟨fun hidle hbad => ?_, fun hidle hnone => ?_, fun hlater => ?_⟩
  · rw [exec_start_of_idle s hidle]
    rcases startRun_final s with ⟨-, -, hfinal⟩ | ⟨hlegal, -⟩
    · exact ⟨_, congrArg _ hfinal⟩
    · exact absurd hlegal ((exists_offends_iff s).1 hbad)
  · have hlegal : s.configLegal := by
      by_contra hbad
      obtain ⟨i, hi⟩ := (exists_offends_iff s).2 hbad
      exact hnone i hi
    rw [exec_start_of_idle s hidle, startRun_of_configLegal s hlegal, Config.preBits, s.bitDuration_eq,
      foldl_tone_replicate]
    rfl
  · have hne : s.state ≠ .idle ∧ s.state ≠ .fault := by
      rcases hlater with h | h | h <;> simp [h]
    exact exec_illegal_of_operandA_zero .start 0x03 .idle s rfl rfl rfl hne

/-- Settles O19: the frame is sent request by request (`foldl_tone_eq_toneEach`). -/
theorem byteSendsFrame : Obligations.ByteSendsFrame := by
  intro s x
  constructor
  · intro hrun
    rw [exec_byte_of_run x s hrun, sendFrame, s.bitDuration_eq, foldl_tone_eq_toneEach]
  · intro hlater
    exact exec_illegal_of_operandA_zero (.byte x) 0x04 .run s rfl rfl rfl (not_run_not_fault s hlater)

/-- Settles O21: the postamble is a repetition of one request (`foldl_tone_replicate`). -/
theorem eoiRuns : Obligations.EoiRuns := by
  intro s
  constructor
  · intro hrun
    rw [exec_eoi_of_run s hrun, endOfInput, Config.postBits, s.bitDuration_eq, foldl_tone_replicate]
    rfl
  · intro hlater
    exact exec_illegal_of_operandA_zero .eoi 0x06 .run s rfl rfl rfl (not_run_not_fault s hlater)

end Sys2Proof.Machine
end

section
/-! The frame of a byte (42_frame_encoder.md R143 to R146): how many tones it has, and its parity bit. -/

namespace Sys2Proof.Machine

/-! ## The parity bit -/

/-- An exclusive-or over a list tells whether an odd number of its places are set. -/
theorem foldl_xor_eq_odd_countP {α : Type} (p : α → Bool) (l : List α) :
    l.foldl (fun k a => k ^^ p a) false = decide (l.countP p % 2 = 1) := by
  induction l using List.reverseRecOn with
  | nil => rfl
  | append_singleton l a ih =>
    rw [List.foldl_append, List.countP_append, ih, List.foldl_cons, List.foldl_nil, List.countP_singleton]
    rcases Nat.mod_two_eq_zero_or_one (l.countP p) with h | h <;> cases p a <;> simp [Nat.add_mod, h]

/-- `k` of R145 is the exclusive-or over the eight places of the byte. -/
theorem parityFold_eq_foldl (x : Byte) :
    parityFold x = (List.range 8).foldl (fun k i => k ^^ x.getLsbD i) false := by
  simp [parityFold, List.range_succ]

theorem parityFold_iff_odd (x : Byte) :
    parityFold x = true ↔ (List.range 8).countP (fun i => x.getLsbD i) % 2 = 1 := by
  rw [parityFold_eq_foldl, foldl_xor_eq_odd_countP, decide_eq_true_eq]

/-! ## The frame -/

theorem frameTones_length (s : State) (x : Byte) :
    (s.frameTones x).length = 1 + s.bitWidth + (if s.parity = 0 then 0 else 1) + s.stopBits := by
  unfold State.frameTones State.frameHead
  split <;> simp <;> omega

/-- The parity bit's tone follows the start bit's and the data bits' (R145, R146). -/
theorem frameTones_parity (s : State) (x : Byte) (h : s.parity ≠ 0) :
    (s.frameTones x)[1 + s.bitWidth]? = some (s.freqOf (parityBit s.parity x)) := by
  have hlen : ([s.spaceFreq] ++ (List.range s.bitWidth).map fun i => s.freqOf (x.getLsbD i)).length =
      1 + s.bitWidth := by
    simp; omega
  rw [State.frameTones, State.frameHead, if_neg h, List.append_assoc, List.getElem?_append_right hlen.le, hlen]
  simp

/-- Settles O24: `k` counts the set bits of all eight places (`parityFold_iff_odd`); the length and the place of
the parity bit's tone are the frame's. -/
theorem parityRule : Obligations.ParityRule := by
  intro x k
  have hodd : parityFold x = true ↔ k = 1 := parityFold_iff_odd x
  refine ⟨hodd, ?_, rfl, rfl, fun s => ⟨fun h0 => ?_, fun hne => ⟨?_, frameTones_parity s x hne⟩⟩⟩
  · change (!parityFold x) = true ↔ _
    have hk : k < 2 := Nat.mod_lt _ (by decide)
    rw [Bool.not_eq_true', ← Bool.not_eq_true, hodd]
    omega
  · rw [frameTones_length, if_pos h0, Nat.add_zero]
  · rw [frameTones_length, if_neg hne]
    omega

end Sys2Proof.Machine
end

section
/-! The sample store (43_sample_sink.md R161, R164): what an append does, and that no word but `RESET` takes back
or rewrites a sample. -/

namespace Sys2Proof.Machine

/-! ## One append (R161) -/

/-- Settles O37: the two cases of `sinkAppend_cases`, the written cell read back by the rules of `Memory.write`. -/
theorem sinkAppendRule : Obligations.SinkAppendRule := by
  intro v s
  rcases sinkAppend_cases v s with ⟨hfull, happend⟩ | ⟨hroom, happend⟩
  · exact ⟨fun _ => happend, fun hlt => absurd hlt hfull.not_gt⟩
  · exact ⟨fun hle => absurd hroom hle.not_gt, fun _ => ⟨_, happend, rfl, len_succ s hroom,
      Memory.read_write_same _ _ _, fun i hi => Memory.read_write_other _ _ i v hi⟩⟩

/-! ## Samples are kept (R164) -/

/-- From `s` to `t` the store has at most grown: `LEN` is no smaller, and each cell below the old one is as it was. -/
def SinkKept (s t : State) : Prop :=
  s.len.toNat ≤ t.len.toNat ∧ ∀ i < s.len.toNat, t.sink.read i = s.sink.read i

theorem SinkKept.refl (s : State) : SinkKept s s := ⟨le_rfl, fun _ _ => rfl⟩

theorem SinkKept.trans {s t u : State} (h1 : SinkKept s t) (h2 : SinkKept t u) : SinkKept s u :=
  ⟨h1.1.trans h2.1, fun i hi => (h2.2 i (hi.trans_le h1.1)).trans (h1.2 i hi)⟩

/-- Two pseudocodes one after the other keep the store if each does. -/
theorem SinkKept.bind {s : State} {f : Flow} {k : State → Flow} (hf : SinkKept s f.final)
    (hk : ∀ t, SinkKept t (k t).final) : SinkKept s (f.bind k).final := by
  cases f with
  | go t => exact hf.trans (hk t)
  | raised t => exact hf

/-- An append keeps the store: the cell it writes is at `LEN`. -/
theorem sinkAppend_sinkKept (v : Cell) (s : State) : SinkKept s (sinkAppend v s).final := by
  obtain ⟨hraises, happends⟩ := sinkAppendRule v s
  by_cases hfull : s.par.maxSamples.val ≤ s.len.toNat
  · rw [hraises hfull]
    exact SinkKept.refl s
  · obtain ⟨t, hgo, -, hlen, -, hother⟩ := happends (not_le.1 hfull)
    rw [hgo]
    exact ⟨(Nat.le_succ _).trans_eq hlen.symm, fun i hi => hother i hi.ne⟩

theorem emitSample_sinkKept (f : Nat) (s : State) : SinkKept s (emitSample f s).final := by
  unfold emitSample
  split
  · exact sinkAppend_sinkKept _ s
  · exact sinkAppend_sinkKept _ { s with ph := (s.ph + f) % s.sampleRate }

theorem emitSamples_sinkKept (n f : Nat) (s : State) : SinkKept s (emitSamples n f s).final := by
  induction n generalizing s with
  | zero => exact SinkKept.refl s
  | succ n ih => exact (emitSample_sinkKept f s).bind ih

theorem tone_sinkKept (f : Nat) (d : Rat) (s : State) : SinkKept s (tone f d s).final :=
  emitSamples_sinkKept _ f { s with rem := s.remAfter d }

theorem toneEach_sinkKept (fs : List Nat) (d : Rat) (s : State) : SinkKept s (toneEach fs d s).final := by
  induction fs generalizing s with
  | nil => exact SinkKept.refl s
  | cons f fs ih => exact (tone_sinkKept f d s).bind ih

theorem repeatTone_sinkKept (n f : Nat) (d : Rat) (s : State) : SinkKept s (repeatTone n f d s).final := by
  rw [← toneEach_replicate]
  exact toneEach_sinkKept _ d s

theorem commitConfig_sinkKept (s : State) : SinkKept s (commitConfig s).final := by
  rcases commitConfig_cases s with ⟨-, h⟩ | ⟨-, -, h⟩
  · rw [h]; exact SinkKept.refl s
  · rw [h]; exact SinkKept.refl s

theorem startRun_sinkKept (s : State) : SinkKept s (startRun s).final :=
  (commitConfig_sinkKept s).bind fun t =>
    SinkKept.bind (s := t) (repeatTone_sinkKept _ _ _ t.setWarnings) SinkKept.refl

theorem endOfInput_sinkKept (s : State) : SinkKept s (endOfInput s).final :=
  (repeatTone_sinkKept _ _ _ s).bind SinkKept.refl

/-- A command that runs keeps the store: it makes tones, or leaves the store alone. -/
theorem Ran.sinkKept {i : Instr} {s t : State} (h : Ran i s t) : SinkKept s t := by
  cases h with
  | cfgw idx v _ _ => exact SinkKept.refl s
  | start _ _ => exact startRun_sinkKept s
  | byte x _ _ => exact toneEach_sinkKept _ _ s
  | tone f d _ _ => exact tone_sinkKept _ _ s
  | eoi _ _ => exact endOfInput_sinkKept s
  | write _ bytes _ _ => exact SinkKept.refl s

/-- A word that is not `RESET` keeps the store, in every state (R164). -/
theorem runWord_sinkKept (w : CmdWord) (s t : State) (h : runWord w s = .next t) (hreset : decode w ≠ .ok .reset) :
    SinkKept s t := by
  rcases runWord_next w s t h with
    ⟨hd, -⟩ | ⟨idx, -, -, rfl⟩ | ⟨-, -, rfl⟩ | ⟨-, -, info, rfl⟩ | ⟨i, -, hran⟩
  · exact absurd hd hreset
  · exact SinkKept.refl s
  · exact SinkKept.refl _
  · exact SinkKept.refl s
  · exact hran.sinkKept

/-- Settles O38: by `runWord_sinkKept`, which does not need the invariant. -/
theorem sinkNeverRewritten : Obligations.SinkNeverRewritten := by
  intro s t w rest _ hport hreset hstep
  rw [step_word s w rest hport] at hstep
  exact runWord_sinkKept w { s with port := rest } t hstep hreset

end Sys2Proof.Machine
end

section
/-! The two files `WRITE` emits (44_container_writer.md R170 to R178): the forms of a sample, the headers field by
field, and each sample's place behind its header. -/

namespace Sys2Proof.Machine

/-! ## Big-endian byte lists (R13) -/

theorem u16be_bytes (v : Nat) : u16be v = [byteOf v 1, byteOf v 0] := by
  rw [u16be, u16le_bytes]; rfl

theorem u32be_bytes (v : Nat) : u32be v = [byteOf v 3, byteOf v 2, byteOf v 1, byteOf v 0] := by
  rw [u32be, u32le_bytes]; rfl

/-! ## The forms of a sample (R178) -/

/-- The byte at a place of a bit vector's number is the eight bits from there up. -/
theorem byteOf_toNat {w : Nat} (x : BitVec w) (k : Nat) : byteOf x.toNat k = x.extractLsb' (8 * k) 8 := by
  apply BitVec.eq_of_toNat_eq
  rw [byteOf, BitVec.extractLsb'_toNat, Nat.shiftRight_eq_div_pow, pow_mul, BitVec.toNat_ofNat]
  rfl

/-- `s mod 65536` is the number of the cell that holds `s`. -/
theorem cell_toInt_mod (v : Cell) : (v.toInt % 65536).toNat = v.toNat := by
  have h := BitVec.toNat_ofInt (n := 16) v.toInt
  rw [BitVec.ofInt_toInt] at h
  exact h.symm

/-- Turning the top bit of a 16-bit number over adds `0x8000` modulo `0x10000`. -/
theorem xor_topBit (n : Nat) (hn : n < 65536) : n ^^^ 2 ^ 15 = (n + 32768) % 65536 := by
  have hlow : (n ^^^ 2 ^ 15) % 2 ^ 15 = n % 2 ^ 15 := by
    rw [Nat.xor_mod_two_pow, Nat.mod_self, Nat.xor_zero]
  have hhigh : (n ^^^ 2 ^ 15) / 2 ^ 15 = n / 2 ^ 15 ^^^ 1 := by
    rw [Nat.xor_div_two_pow, Nat.div_self (by decide)]
  have htop : n / 2 ^ 15 = 0 ∨ n / 2 ^ 15 = 1 := by omega
  rcases htop with h | h
  · rw [h, show 0 ^^^ 1 = 1 from rfl] at hhigh; omega
  · rw [h, show 1 ^^^ 1 = 0 from rfl] at hhigh; omega

/-- `s + 32768` is the number of the cell with its top bit turned over. -/
theorem cell_toInt_offset (v : Cell) : (v.toInt + 32768).toNat = (v ^^^ 0x8000).toNat := by
  have hv := v.isLt
  rw [BitVec.toNat_xor, show (0x8000 : Cell).toNat = 2 ^ 15 from rfl, xor_topBit _ hv, BitVec.toInt_eq_toNat_cond]
  omega

theorem wavSample_bits (v : Cell) : wavSample v = [v.extractLsb' 0 8, v.extractLsb' 8 8] := by
  rw [wavSample, u16le_bytes, cell_toInt_mod, byteOf_toNat, byteOf_toNat]

theorem aiffSample_bits (v : Cell) : aiffSample v = [v.extractLsb' 8 8 ^^^ 0x80, v.extractLsb' 0 8] := by
  rw [aiffSample, u16be_bytes, cell_toInt_offset, byteOf_toNat, byteOf_toNat, BitVec.extractLsb'_xor,
    BitVec.extractLsb'_xor, show (0x8000 : Cell).extractLsb' (8 * 0) 8 = 0#8 from rfl, BitVec.xor_zero]
  rfl

/-- Settles O42: the bytes are `u16le`'s, and on bits the offset of AIFF is the top bit (`cell_toInt_offset`). -/
theorem sampleForms : Obligations.SampleForms := by
  intro v
  refine ⟨u16le_bytes _, u16be_bytes _, wavSample_bits v, aiffSample_bits v, ?_⟩
  rw [cell_toInt_mod, cell_toInt_offset, BitVec.toNat_xor]
  rfl

/-! ## The headers (R172, R173, R176, R177) -/

theorem wavAudioBytes_eq (n : Nat) : wavAudioBytes n = 2 * n := Nat.mul_comm n 2

theorem wavTotalSize_eq (n : Nat) : wavTotalSize n = 36 + 2 * n := by
  rw [wavTotalSize, wavAudioBytes_eq]; omega

theorem wavByteRate_eq (fs : Nat) : wavByteRate fs = 2 * fs := by
  rw [wavByteRate, Config.channels, Config.sampleBits]; omega

theorem aiffDataSize_eq (n : Nat) : aiffDataSize n = 8 + 2 * n :=
  congrArg (8 + ·) (Nat.mul_comm n 2)

theorem aiffTotalSize_eq (n : Nat) : aiffTotalSize n = 46 + 2 * n := by
  rw [aiffTotalSize, aiffDataSize_eq]; omega

theorem wavHeader_bytes (fs n : Nat) :
    wavHeader fs n =
      [0x52, 0x49, 0x46, 0x46, byteOf (36 + 2 * n) 0, byteOf (36 + 2 * n) 1, byteOf (36 + 2 * n) 2,
       byteOf (36 + 2 * n) 3, 0x57, 0x41, 0x56, 0x45, 0x66, 0x6D, 0x74, 0x20, 16, 0, 0, 0, 1, 0, 1, 0,
       byteOf fs 0, byteOf fs 1, byteOf fs 2, byteOf fs 3, byteOf (2 * fs) 0, byteOf (2 * fs) 1,
       byteOf (2 * fs) 2, byteOf (2 * fs) 3, 2, 0, 16, 0, 0x64, 0x61, 0x74, 0x61, byteOf (2 * n) 0,
       byteOf (2 * n) 1, byteOf (2 * n) 2, byteOf (2 * n) 3] := by
  simp only [wavHeader, u32le_bytes, u16le_bytes, wavTotalSize_eq, wavByteRate_eq, wavAudioBytes_eq]
  rfl

theorem aiffHeader_bytes (fs n : Nat) :
    aiffHeader fs n =
      [0x46, 0x4F, 0x52, 0x4D, byteOf (46 + 2 * n) 3, byteOf (46 + 2 * n) 2, byteOf (46 + 2 * n) 1,
       byteOf (46 + 2 * n) 0, 0x41, 0x49, 0x46, 0x46, 0x43, 0x4F, 0x4D, 0x4D, 0, 0, 0, 18, 0, 1,
       byteOf n 3, byteOf n 2, byteOf n 1, byteOf n 0, 0, 16] ++ ext80 fs ++
      [0x53, 0x53, 0x4E, 0x44, byteOf (8 + 2 * n) 3, byteOf (8 + 2 * n) 2, byteOf (8 + 2 * n) 1,
       byteOf (8 + 2 * n) 0, 0, 0, 0, 0, 0, 0, 0, 0] := by
  simp only [aiffHeader, u32be_bytes, u16be_bytes, aiffTotalSize_eq, aiffDataSize_eq, List.append_assoc]
  rfl

/-! ## The file (R170, R171, R175) -/

/-- In `CLOSED`, over a dense sink, `WRITE` emits the file and enters `DONE`. -/
theorem exec_write_emits_file (s : State) (hclosed : s.state = .closed) (hd : s.sink.dense s.len.toNat) :
    exec .write s = .next { s with out := s.out ++ s.file, state := .done } :=
  (checked_runs .write s writeFile (by simp [hclosed]) (by simp [legalIn, hclosed])).trans (writeFile_dense s hd)

theorem file_of_wav (s : State) (h : s.format = 0) :
    s.file = wavHeader s.sampleRate s.len.toNat ++ s.sink.flatMap fun p => wavSample p.2 := if_pos h

theorem file_of_aiff (s : State) (h : s.format = 1) :
    s.file = aiffHeader s.sampleRate s.len.toNat ++ s.sink.flatMap fun p => aiffSample p.2 :=
  if_neg (by simp [h])

/-- Behind a header of `k` bytes, sample `i` of a dense sink stands at `k + 2 * i` and the place after it. -/
theorem samples_behind_header (header : List Byte) (enc : Cell → List Byte) (a b : Cell → Byte) (m : Memory)
    (n k : Nat) (hk : header.length = k) (henc : ∀ v, enc v = [a v, b v]) (hd : m.dense n) :
    ∀ i < n, ∃ v, m.read i = some v ∧ (header ++ m.flatMap fun p => enc p.2)[k + 2 * i]? = some (a v) ∧
      (header ++ m.flatMap fun p => enc p.2)[k + 1 + 2 * i]? = some (b v) := by
  intro i hi
  have him : i < m.length := by rwa [m.dense_length n hd]
  obtain ⟨hfirst, hsecond⟩ := (payload_two m enc a b henc).2 i him
  refine ⟨(m[i]).2, ?_, ?_, ?_⟩
  · rw [m.read_dense n i hd hi, List.getElem?_eq_getElem him]; rfl
  · rw [← hfirst, ← hk, List.getElem?_append_right (by omega), Nat.add_sub_cancel_left]
  · rw [← hsecond, ← hk, List.getElem?_append_right (by omega)]
    congr 1
    omega

/-- Settles O43: the file is the header of `wavHeader_bytes` and behind it the samples of `wavSample_bits`. -/
theorem writeWav : Obligations.WriteWav := by
  rintro s ⟨-, ⟨hd, -⟩, -⟩ hclosed hformat
  refine ⟨s.file, exec_write_emits_file s hclosed hd, ?_, ?_, ?_⟩
  · rw [file_length s hd, if_pos hformat]
  · rw [file_of_wav s hformat, List.take_left' (wavHeader_length _ _), wavHeader_bytes]
  · rw [file_of_wav s hformat]
    exact samples_behind_header _ wavSample _ _ s.sink _ 44 (wavHeader_length _ _) wavSample_bits hd

/-- Settles O44: the file is the header of `aiffHeader_bytes` and behind it the samples of `aiffSample_bits`. -/
theorem writeAiff : Obligations.WriteAiff := by
  rintro s ⟨-, ⟨hd, -⟩, -⟩ hclosed hformat
  refine ⟨s.file, exec_write_emits_file s hclosed hd, ?_, ?_, ?_⟩
  · rw [file_length s hd, if_neg (by simp [hformat])]
  · rw [file_of_aiff s hformat, List.take_left' (aiffHeader_length _ _), aiffHeader_bytes]
  · rw [file_of_aiff s hformat]
    exact samples_behind_header _ aiffSample _ _ s.sink _ 54 (aiffHeader_length _ _) aiffSample_bits hd

end Sys2Proof.Machine
end

section
/-! The errors of 60_exceptions.md: `IllegalCommand` and the bits it records (R194), what `ERR` can hold after a
step (R193), and that the first error stays until a reset (R201). -/

namespace Sys2Proof

/-! ## The word of a decoded command (R81, R82) -/

/-- A word is a command's if its three fields are the command's. -/
theorem encode_eq_of_fields (i : Instr) (w : CmdWord) (hop : opcode i = fieldOp w) (ha : operandA i = fieldA w)
    (hb : operandB i = fieldB w) : encode i = w := by
  rw [encode, hop, ha, hb, assemble_fields]

/-- Only words with both operand fields 0 decode to a command without operands. -/
theorem decodePlain_eq_ok_iff (a : BitVec 24) (b : BitVec 32) (i j : Instr) :
    decodePlain a b i = .ok j ↔ (a = 0 ∧ b = 0) ∧ i = j := by
  unfold decodePlain
  split <;> simp_all

/-- `a[23:3] = 0`: the register number is all of `a`. -/
theorem ofNat_registerNumber (a : BitVec 24) (h : ¬ upperANotZero a = true) :
    BitVec.ofNat 24 (registerNumber a).val = a := by
  rw [upperANotZero_iff_le] at h
  rw [registerNumber_val, Nat.mod_eq_of_lt (by omega), BitVec.ofNat_toNat, BitVec.setWidth_eq]

/-- `b[31:8] = 0`: the byte is all of `b`. -/
theorem setWidth_lowByte (b : BitVec 32) (h : b.extractLsb' 8 24 = 0) :
    (b.extractLsb' 0 8).setWidth 32 = b := by
  rw [upperB_eq_zero_iff] at h
  apply BitVec.eq_of_toNat_eq
  rw [BitVec.toNat_setWidth, BitVec.extractLsb'_toNat, Nat.shiftRight_zero]
  omega

/-- A word that decodes to a command is that command's word: no bit of it is ignored. -/
theorem encode_of_decode (w : CmdWord) (i : Instr) (hd : decode w = .ok i) : encode i = w := by
  have hopcode : ∀ op : BitVec 8, (fieldOp w).toNat = op.toNat → op = fieldOp w := fun op h =>
    BitVec.eq_of_toNat_eq h.symm
  have hplain : ∀ j : Instr, (fieldOp w).toNat = (opcode j).toNat → operandA j = 0 → operandB j = 0 →
      decodePlain (fieldA w) (fieldB w) j = .ok i → encode i = w := by
    intro j hop ha hb hj
    obtain ⟨⟨ha0, hb0⟩, rfl⟩ := (decodePlain_eq_ok_iff _ _ _ _).mp hj
    exact encode_eq_of_fields j w (hopcode _ hop) (ha.trans ha0.symm) (hb.trans hb0.symm)
  simp only [decode] at hd
  split at hd
  next hop => exact hplain .reset hop rfl rfl hd
  next hop =>
    split at hd
    · cases hd
    next ha =>
      obtain rfl := Except.ok.inj hd
      exact encode_eq_of_fields _ w (hopcode _ hop) (ofNat_registerNumber _ ha) rfl
  next hop => exact hplain .start hop rfl rfl hd
  next hop =>
    split at hd
    next hzero =>
      obtain rfl := Except.ok.inj hd
      exact encode_eq_of_fields _ w (hopcode _ hop) hzero.1.symm (setWidth_lowByte _ hzero.2)
    · cases hd
  next hop =>
    obtain rfl := Except.ok.inj hd
    exact encode_eq_of_fields _ w (hopcode _ hop) rfl rfl
  next hop => exact hplain .eoi hop rfl rfl hd
  next hop => exact hplain .write hop rfl rfl hd
  next hop =>
    split at hd
    · cases hd
    next hzero =>
      simp only [Bool.or_eq_true, bne_iff_ne, ne_eq, not_or, not_not] at hzero
      split at hd
      · obtain rfl := Except.ok.inj hd
        exact encode_eq_of_fields _ w (hopcode _ hop) (ofNat_registerNumber _ hzero.1) hzero.2.symm
      · cases hd
  · cases hd

end Sys2Proof

namespace Sys2Proof.Machine

/-! ## IllegalCommand (R194) -/

/-- A command in a state where R102 says "no", outside `FAULT`, raises with the bits of its own word. -/
theorem step_wrongState_of_live (s : State) (w : CmdWord) (rest : List HostEvent) (i : Instr) (st : RunState)
    (hport : s.port = .word w :: rest) (hd : decode w = .ok i) (hst : onlyState i = some st) (hne : s.state ≠ st)
    (hlive : s.state ≠ .fault) :
    step s = .next (({ s with port := rest } : State).raise .illegalCommand (upperHalf w)) := by
  rw [step_command s w rest i hport hd, exec_illegal i st { s with port := rest } hst hne hlive,
    encode_of_decode w i hd]

/-- Settles O9: both causes raise with the upper half of the word presented (`step_illegal_of_live`,
`step_wrongState_of_live`). -/
theorem illegalCommandEntry : Obligations.IllegalCommandEntry := by
  intro s w rest hport hlive hcause
  refine ⟨upperHalf w, upperHalf_toNat w, ?_⟩
  rcases hcause with ⟨e, hd⟩ | ⟨i, st, hd, hst, hne⟩
  · exact step_illegal_of_live s w rest e hport hd hlive
  · exact step_wrongState_of_live s w rest i st hport hd hst hne hlive

/-! ## The first error stays (R201) -/

/-- No command that runs does so in `FAULT`. -/
theorem Ran.live {i : Instr} {s t : State} (h : Ran i s t) : s.state ≠ .fault := by
  cases h <;> simp [*]

/-- In `FAULT` a word keeps the error, or is `RESET`. -/
theorem runWord_of_fault (w : CmdWord) (s t : State) (hfault : s.state = .fault) (h : runWord w s = .next t) :
    (t.state = .fault ∧ t.err = s.err ∧ t.errInfo = s.errInfo) ∨ (decode w = .ok .reset ∧ t = s.toReset) := by
  rcases runWord_next w s t h with hreset | ⟨idx, -, -, rfl⟩ | ⟨-, -, rfl⟩ | ⟨hlive, -⟩ | ⟨i, -, hran⟩
  · exact .inr hreset
  · exact .inl ⟨hfault, rfl, rfl⟩
  · exact .inl ⟨hfault, rfl, rfl⟩
  · exact absurd hfault hlive
  · exact absurd hfault hran.live

/-- Settles O50: one case for each event (`step_next`); of the words only `RESET` ends the error
(`runWord_of_fault`). -/
theorem firstErrorKept : Obligations.FirstErrorKept := by
  intro s t hfault hstep
  rcases step_next s t hstep with ⟨-, rfl⟩ | ⟨w, rest, hport, hword⟩ | ⟨rest, hport, rfl⟩ |
    ⟨w, n, rest, u, hport, -, rfl⟩
  · exact .inl ⟨hfault, rfl, rfl⟩
  · rcases runWord_of_fault w { s with port := rest } t hfault hword with hkept | ⟨hd, rfl⟩
    · exact .inl hkept
    · exact .inr ⟨rfl, rfl, rfl, rest, .inl ⟨w, hport, hd⟩⟩
  · exact .inr ⟨rfl, rfl, rfl, rest, .inr (.inl hport)⟩
  · exact .inr ⟨rfl, rfl, rfl, rest, .inr (.inr ⟨w, n, hport⟩)⟩

/-! ## What ERR can hold (R190, R193) -/

/-- The errors a command that runs can raise. -/
theorem Ran.err_cases {i : Instr} {s t : State} (h : Ran i s t) :
    t.err = s.err ∨ t.err = some .configurationError ∨ t.err = some .capacityExceededError := by
  rcases ran_shape i s t h with ⟨idx, v, -, -, rfl⟩ | ⟨-, -, -, rfl⟩ |
    ⟨-, -, -, u, hu, -, rfl | ⟨st, rfl, -⟩⟩ | ⟨-, -, bytes, rfl⟩
  · exact .inl rfl
  · exact .inr (.inl rfl)
  · exact .inr (.inr rfl)
  · rw [hu]; exact .inl rfl
  · exact .inl rfl

/-- Whatever `ERR` holds after a word: what it held before, none, or one of the three errors that have a rule. -/
theorem runWord_err_cases (w : CmdWord) (s t : State) (h : runWord w s = .next t) :
    t.err = s.err ∨ t.err = none ∨ t.err = some .illegalCommand ∨ t.err = some .configurationError ∨
      t.err = some .capacityExceededError := by
  rcases runWord_next w s t h with
    ⟨-, rfl⟩ | ⟨idx, -, -, rfl⟩ | ⟨-, -, rfl⟩ | ⟨-, -, info, rfl⟩ | ⟨i, -, hran⟩
  · exact .inr (.inl rfl)
  · exact .inl rfl
  · exact .inl rfl
  · exact .inr (.inr (.inl rfl))
  · rcases hran.err_cases with herr | herr
    · exact .inl herr
    · exact .inr (.inr (.inr herr))

/-- Settles O51: one case for each event (`step_next`); a word writes none of `ERR`'s values but those of
`runWord_err_cases`, and a reset leaves `ERR` empty. -/
theorem neverResourceOpenError : Obligations.NeverResourceOpenError := by
  refine ⟨rfl, by simp [State.reset], fun s t hne hstep => ?_⟩
  rcases step_next s t hstep with ⟨-, rfl⟩ | ⟨w, rest, -, hword⟩ | ⟨rest, -, rfl⟩ | ⟨w, n, rest, u, -, -, rfl⟩
  · exact hne
  · rcases runWord_err_cases w { s with port := rest } t hword with herr | herr | herr | herr | herr
    · rw [herr]; exact hne
    all_goals simp [herr]
  · simp
  · simp

end Sys2Proof.Machine
end

section
/-! The hardware reset of 70_reset_and_hazards.md (R220): the state it leaves, between commands or during one. A
command it cuts off is one that answers, so the invariant enters here: a `WRITE` reads a dense sink. -/

namespace Sys2Proof.Machine

/-! ## Every word answers (R100, R163) -/

theorem illegalWord_answers (w : CmdWord) (s : State) : ∃ t, illegalWord w s = .next t := by
  rcases illegalWord_cases w s with ⟨-, h⟩ | ⟨-, h⟩
  · exact ⟨_, h⟩
  · exact ⟨_, h⟩

/-- The dispatch check turns a command away with an answer, so it answers if the command's own pseudocode does. -/
theorem checked_answers (i : Instr) (s : State) (body : State → Host.Outcome State Fault Refusal)
    (hbody : ∃ t, body s = .next t) : ∃ t, checked i s body = .next t := by
  rcases checked_cases i s body with ⟨-, h⟩ | ⟨-, -, h⟩ | ⟨-, -, h⟩
  · exact ⟨_, h⟩
  · exact ⟨_, h⟩
  · rwa [h]

/-- Over a dense sink every command answers; `WRITE` is the only one that reads the sink. -/
theorem exec_answers (i : Instr) (s : State) (hd : s.sink.dense s.len.toNat) : ∃ t, exec i s = .next t := by
  cases i with
  | reset => exact ⟨s.toReset, rfl⟩
  | cfgw idx v => exact checked_answers (.cfgw idx v) s (fun s => .next (s.writeCfg idx v)) ⟨_, rfl⟩
  | start => exact checked_answers .start s (fun s => (startRun s).outcome) ⟨_, rfl⟩
  | byte x => exact checked_answers (.byte x) s (fun s => (sendFrame x s).outcome) ⟨_, rfl⟩
  | tone f d => exact checked_answers (.tone f d) s (fun s => (tone (toneFreq f) (toneDuration d) s).outcome) ⟨_, rfl⟩
  | eoi => exact checked_answers .eoi s (fun s => (endOfInput s).outcome) ⟨_, rfl⟩
  | write => exact checked_answers .write s writeFile ⟨_, writeFile_dense s hd⟩
  | rdsr idx =>
    by_cases hidx : idx.val ≤ 4
    · exact ⟨_, exec_rdsr_of_le idx s hidx⟩
    · have hwf : ¬ (Instr.rdsr idx).wellFormed = true := by simpa [Instr.wellFormed] using hidx
      obtain ⟨t, ht⟩ := illegalWord_answers (encode (.rdsr idx)) s
      exact ⟨t, (if_neg hwf).trans ht⟩

theorem runWord_answers (w : CmdWord) (s : State) (hd : s.sink.dense s.len.toNat) :
    ∃ t, runWord w s = .next t := by
  cases hdec : decode w with
  | error e =>
    rw [runWord, hdec]
    exact illegalWord_answers w s
  | ok i =>
    rw [runWord, hdec]
    exact exec_answers i s hd

/-! ## The state the hardware reset leaves (R220) -/

theorem step_hardwareReset (s : State) (rest : List HostEvent) (hport : s.port = .hardwareReset :: rest) :
    step s = .next ({ s with port := rest } : State).toReset := by
  rw [step, hport]
  rfl

/-- The hardware reset during a word that would have answered `u`: of `u` only the streams are left, in part. -/
theorem step_wordCutByReset (s u : State) (w : CmdWord) (k : Nat) (rest : List HostEvent)
    (hport : s.port = .wordCutByReset w k :: rest) (hrun : runWord w { s with port := rest } = .next u) :
    step s = .next { ({ s with port := rest } : State).toReset with
      out := emittedPrefix k s.out u.out, rsp := emittedPrefix k s.rsp u.rsp } := by
  simp only [step, hport, hrun, cutByReset]

/-- Either kind of hardware reset leaves the reset state, with some streams. -/
theorem step_reset_but_streams (s : State) (rest : List HostEvent) (hd : s.sink.dense s.len.toNat)
    (hport : s.port = .hardwareReset :: rest ∨ ∃ w k, s.port = .wordCutByReset w k :: rest) :
    ∃ out rsp, step s = .next { ({ s with port := rest } : State).toReset with out := out, rsp := rsp } := by
  rcases hport with hport | ⟨w, k, hport⟩
  · exact ⟨s.out, s.rsp, step_hardwareReset s rest hport⟩
  · obtain ⟨u, hrun⟩ := runWord_answers w { s with port := rest } hd
    exact ⟨_, _, step_wordCutByReset s u w k rest hport hrun⟩

/-- Settles O57: both kinds of hardware reset leave what `RESET` leaves but for the streams
(`step_reset_but_streams`); the invariant is needed for the sink only, so that a `WRITE` cut off is one that answers. -/
theorem hardwareReset_leaves_resetState : Obligations.HardwareReset := by
  rintro s rest ⟨-, ⟨hd, -⟩, -⟩ hport
  obtain ⟨out, rsp, hstep⟩ := step_reset_but_streams s rest hd hport
  exact ⟨_, ({ s with port := rest } : State).toReset, hstep, rfl, rfl, rfl, rfl, rfl, rfl, rfl, rfl, rfl, rfl,
    fun _ => rfl, rfl⟩

end Sys2Proof.Machine
end

section
/-! Decoding and encoding are inverse (30_encoding.md R70 to R82, R89): the operands read back from the fields they
are put in, so every well-formed command is the command of its word, and every legal word is the word of its
command. -/

namespace Sys2Proof

/-! ## Operands read back from their fields (R81) -/

theorem ofNat_register_toNat (idx : Fin 8) : (BitVec.ofNat 24 idx.val).toNat = idx.val := by
  have hidx := idx.isLt
  rw [BitVec.toNat_ofNat]
  omega

theorem registerNumber_ofNat (idx : Fin 8) : registerNumber (BitVec.ofNat 24 idx.val) = idx := by
  apply Fin.ext
  rw [registerNumber_val, ofNat_register_toNat, Nat.mod_eq_of_lt idx.isLt]

theorem upperANotZero_ofNat (idx : Fin 8) : ¬ upperANotZero (BitVec.ofNat 24 idx.val) = true := by
  rw [upperANotZero_iff_le, ofNat_register_toNat, not_le]
  exact idx.isLt

theorem upperB_setWidth (x : Byte) : (x.setWidth 32).extractLsb' 8 24 = 0 := by
  rw [upperB_eq_zero_iff, BitVec.toNat_setWidth_of_le (by decide)]
  exact x.isLt

theorem lowByte_setWidth (x : Byte) : (x.setWidth 32).extractLsb' 0 8 = x := by
  have hx := x.isLt
  apply BitVec.eq_of_toNat_eq
  rw [BitVec.extractLsb'_toNat, BitVec.toNat_setWidth_of_le (by decide), Nat.shiftRight_zero]
  omega

/-! ## The word of a command (R72 to R80) -/

@[simp] theorem fieldOp_encode (i : Instr) : fieldOp (encode i) = opcode i := fieldOp_assemble _ _ _

@[simp] theorem fieldA_encode (i : Instr) : fieldA (encode i) = operandA i := fieldA_assemble _ _ _

@[simp] theorem fieldB_encode (i : Instr) : fieldB (encode i) = operandB i := fieldB_assemble _ _ _

theorem opcode_of_encode (i : Instr) (op : Nat) (hop : (opcode i).toNat = op) :
    (fieldOp (encode i)).toNat = op := by
  rw [fieldOp_encode, hop]

theorem decode_encode_cfgw (idx : Fin 8) (value : Reg32) :
    decode (encode (.cfgw idx value)) = .ok (.cfgw idx value) := by
  simp only [decode, opcode_of_encode (.cfgw idx value) 2 rfl, fieldA_encode, fieldB_encode, operandA, operandB,
    if_neg (upperANotZero_ofNat idx), registerNumber_ofNat]

theorem decode_encode_byte (data : Byte) : decode (encode (.byte data)) = .ok (.byte data) := by
  simp only [decode, opcode_of_encode (.byte data) 4 rfl, fieldA_encode, fieldB_encode, operandA, operandB,
    upperB_setWidth, lowByte_setWidth, and_self, if_true]

theorem decode_encode_rdsr (idx : Fin 8) (hidx : idx.val ≤ 4) :
    decode (encode (.rdsr idx)) = .ok (.rdsr idx) := by
  have hzero : ¬ (upperANotZero (BitVec.ofNat 24 idx.val) || (0 : BitVec 32) != 0) = true := by
    simp [upperANotZero_ofNat idx]
  simp only [decode, opcode_of_encode (.rdsr idx) 8 rfl, fieldA_encode, fieldB_encode, operandA, operandB,
    if_neg hzero, registerNumber_ofNat, if_pos hidx]

/-- The decoder on the word of a command: the fields it reads are the command's own. -/
theorem decode_encode (i : Instr) (hwf : i.wellFormed = true) : decode (encode i) = .ok i := by
  cases i with
  | reset => rfl
  | cfgw idx value => exact decode_encode_cfgw idx value
  | start => rfl
  | byte data => exact decode_encode_byte data
  | tone freq dur =>
    simp only [decode, opcode_of_encode (.tone freq dur) 5 rfl, fieldA_encode, fieldB_encode, operandA, operandB]
  | eoi => rfl
  | write => rfl
  | rdsr idx => exact decode_encode_rdsr idx (by simpa [Instr.wellFormed] using hwf)

end Sys2Proof

namespace Sys2Proof.Machine

/-! ## Decoding and encoding (R89) -/

/-- Settles O1: the fields of an encoded command are its opcode and operands, and the decoder reads each operand
back (`decode_encode`). -/
theorem decodeOfEncode : Obligations.DecodeOfEncode := decode_encode

/-- R82: what is decoded is a command of the block. -/
theorem wellFormed_of_decode (w : CmdWord) (i : Instr) (hd : decode w = .ok i) : i.wellFormed = true := by
  cases i with
  | rdsr idx => exact decide_eq_true (rdsr_le_of_decode w idx hd)
  | _ => rfl

/-- Settles O2: a decoded word has its command's fields (`encode_of_decode`), and a status register's number was
checked (`wellFormed_of_decode`). -/
theorem encodeOfDecode : Obligations.EncodeOfDecode := fun w i hd =>
  ⟨encode_of_decode w i hd, wellFormed_of_decode w i hd⟩

/-- Settles O3: closed words, each evaluated. -/
theorem decodedWords : Obligations.DecodedWords := by
  unfold Obligations.DecodedWords
  decide

end Sys2Proof.Machine
end

section
/-! The invariant of the machine (10_state.md, 60_exceptions.md): the reset state meets it, every step answers from
it and keeps it. Between the two ends of a tone command stands `State.Sounding`, what holds whatever `STATE` is. -/

namespace Sys2Proof.Machine

/-! ## The step (R100, R213) -/

/-- Settles O5: `step_command`. -/
theorem stepRunsDecodedCommand : Obligations.StepRunsDecodedCommand := step_command

/-- Settles O6: the first arm of the step. -/
theorem stepWaits : Obligations.StepWaits := by
  intro s hport
  rw [step, hport]

theorem State.Inv.dense {s : State} (hinv : s.Inv) : s.sink.dense s.len.toNat := by
  obtain ⟨-, ⟨hdense, -⟩, -⟩ := hinv
  exact hdense

theorem State.oscOk.dense {s : State} (hosc : s.oscOk) : s.sink.dense s.len.toNat := by
  obtain ⟨-, -, -, hdense, -⟩ := hosc
  exact hdense

/-- Settles O7: one case for each event; over a dense sink every word answers (`runWord_answers`). -/
theorem everyStepAnswers : Obligations.EveryStepAnswers := by
  intro s hinv
  cases hport : s.port with
  | nil => exact ⟨s, stepWaits s hport⟩
  | cons event rest =>
    cases event with
    | word w => rw [step_word s w rest hport]; exact runWord_answers w { s with port := rest } hinv.dense
    | hardwareReset => exact ⟨_, step_hardwareReset s rest hport⟩
    | wordCutByReset w k =>
      obtain ⟨u, hrun⟩ := runWord_answers w { s with port := rest } hinv.dense
      exact ⟨_, step_wordCutByReset s u w k rest hport hrun⟩

/-! ## Reset (R39, R105) -/

/-- Settles O12: `RESET` is `State.toReset`, which reads only the streams, what is presented and the parameters;
no other word leaves `FAULT` (`runWord_of_fault`). -/
theorem resetCommand : Obligations.ResetCommand := by
  refine ⟨fun s => ?_, fun s s' hout hrsp hport hpar => ?_, fun s t w rest hport hfault hstep hd => ?_,
    fun s rest hport => step_hardwareReset s rest hport⟩
  · exact ⟨s.toReset, rfl, rfl, rfl, rfl, rfl, rfl, rfl, rfl, rfl, fun _ => rfl, rfl, rfl, rfl, rfl⟩
  · show Host.Outcome.next s.toReset = .next s'.toReset
    rw [State.toReset, State.toReset, hout, hrsp, hport, hpar]
  · rw [step_word s w rest hport] at hstep
    rcases runWord_of_fault w { s with port := rest } t hfault hstep with ⟨hkept, -⟩ | ⟨hreset, -⟩
    · exact hkept
    · exact absurd hreset hd

/-- A state with every register at its reset value meets the invariant, whatever the streams and the port hold. -/
theorem toReset_inv (s : State) (out : List Byte) (rsp : List Reg32) (hpar : s.par.ok) :
    ({ s.toReset with out := out, rsp := rsp } : State).Inv := by
  refine ⟨hpar, ⟨rfl, Nat.zero_le _⟩, ?_, fun _ => ⟨rfl, rfl, rfl, rfl⟩, ?_⟩
  · simp [State.statusInv]
  · simp [State.runInv, State.live]

/-- R8's defaults meet R8's constraints. -/
theorem default_ok : Config.Params.default.ok := by
  refine ⟨by decide, ?_, ?_⟩ <;> norm_num [Config.Params.default, Config.volume, Config.fullScale]

/-- Settles O55: the values are those of `State.reset`; the invariant is `toReset_inv`. -/
theorem resetMeetsInvariant : Obligations.ResetMeetsInvariant :=
  ⟨⟨rfl, rfl, rfl, rfl, rfl, rfl, rfl, rfl, fun _ => rfl⟩, toReset_inv State.reset [] [] default_ok⟩

/-! ## What holds while tones are made -/

/-- A legal configuration, the oscillator and the store within their bounds, no error: the invariant of a run, whatever
`STATE` is. -/
structure State.Sounding (s : State) : Prop where
  par : s.par.ok
  legal : s.configLegal
  osc : s.oscOk
  warn : s.warn &&& 0xFFFFFFFC = 0
  err : s.err = none
  errInfo : s.errInfo = 0

/-- Tones keep it. -/
theorem State.Sounding.of_same {s t : State} (hs : s.Sounding) (hsame : s.sameButSound t) (ht : t.oscOk) :
    t.Sounding := by
  unfold State.sameButSound at hsame
  rw [hsame] at ht ⊢
  exact ⟨hs.par, hs.legal, ht, hs.warn, hs.err, hs.errInfo⟩

theorem State.Sounding.inv {s : State} (hs : s.Sounding) (hlive : s.live) : s.Inv := by
  have hne : s.state ≠ .idle ∧ s.state ≠ .fault := by
    rcases hlive with h | h | h <;> simp [h]
  obtain ⟨hpar, hlegal, ⟨-, hph, hrem, hsink⟩, hwarn, herr, hinfo⟩ := hs
  refine ⟨hpar, hsink, ⟨hwarn, ?_⟩, ?_, fun _ => ⟨hlegal, hph, hrem⟩⟩
  · simp [herr, hinfo, hne.2]
  · simp [State.freshInv, hne.1, herr]

/-- A command that ends well enters a state of the run. -/
theorem State.Sounding.enter_inv {s : State} (hs : s.Sounding) (st : RunState)
    (hst : st = .run ∨ st = .closed ∨ st = .done) : ({ s with state := st } : State).Inv :=
  State.Sounding.inv ⟨hs.par, hs.legal, hs.osc, hs.warn, hs.err, hs.errInfo⟩ hst

/-- A capacity error leaves the store full (R192). -/
theorem State.Sounding.raise_inv {s : State} (hs : s.Sounding) (hfull : s.len.toNat = s.par.maxSamples.val) :
    (s.raise .capacityExceededError 0).Inv := by
  obtain ⟨hpar, hlegal, ⟨-, hph, hrem, hsink⟩, hwarn, -, -⟩ := hs
  refine ⟨hpar, hsink, ⟨hwarn, ?_⟩, ?_, fun _ => ⟨hlegal, hph, hrem⟩⟩
  · simp [hfull]
  · simp [State.freshInv]

/-- So does a sequence of requests that does not fit. -/
theorem State.Sounding.fillsTo_inv {s u : State} (hs : s.Sounding) (hu : FillsTo s u) :
    (u.raise .capacityExceededError 0).Inv := by
  have hpar : u.par = s.par := by
    have hsame := hu.same
    unfold State.sameButSound at hsame
    rw [hsame]
  exact (hs.of_same hu.same hu.ok).raise_inv (by rw [hpar, hu.len])

theorem State.Inv.err_eq_none {s : State} (hinv : s.Inv) (hlive : s.state ≠ .fault) : s.err = none := by
  obtain ⟨-, -, ⟨-, herr, -⟩, -⟩ := hinv
  by_contra hne
  exact hlive (herr.1 hne)

theorem State.Inv.errInfo_eq_zero {s : State} (hinv : s.Inv) (hlive : s.state ≠ .fault) : s.errInfo = 0 := by
  have herr := hinv.err_eq_none hlive
  obtain ⟨-, -, ⟨-, -, -, hinfo, -⟩, -⟩ := hinv
  exact hinfo herr

theorem State.live.ne_fault {s : State} (hlive : s.live) : s.state ≠ .fault := by
  rcases hlive with h | h | h <;> simp [h]

theorem State.Inv.sounding {s : State} (hinv : s.Inv) (hlive : s.live) : s.Sounding := by
  have herr := hinv.err_eq_none hlive.ne_fault
  have hinfo := hinv.errInfo_eq_zero hlive.ne_fault
  have hosc := hinv.oscOk hlive
  obtain ⟨hpar, -, ⟨hwarn, -⟩, -, hrun⟩ := hinv
  exact ⟨hpar, (hrun (.inl hlive)).1, hosc, hwarn, herr, hinfo⟩

/-! ## The state `START` begins from -/

theorem eq_nil_of_dense_zero (m : Memory) (h : m.dense 0) : m = [] :=
  List.map_eq_nil_iff.1 h

/-- In `IDLE` nothing has sounded yet (R35, R39). -/
theorem State.Inv.fresh {s : State} (hinv : s.Inv) (hidle : s.state = .idle) :
    s.sink = [] ∧ s.len = 0 ∧ s.ph = 0 ∧ s.rem = 0 ∧ s.warn = 0 := by
  obtain ⟨-, ⟨hdense, -⟩, -, hfresh, -⟩ := hinv
  obtain ⟨hlen, hph, hrem, hwarn⟩ := hfresh (.inl hidle)
  rw [hlen] at hdense
  exact ⟨eq_nil_of_dense_zero _ hdense, hlen, hph, hrem, hwarn⟩

theorem State.Inv.oscOk_of_idle {s : State} (hinv : s.Inv) (hidle : s.state = .idle) (hlegal : s.configLegal) :
    s.oscOk := by
  obtain ⟨hsink, hlen, hph, hrem, -⟩ := hinv.fresh hidle
  exact oscOk_of_fresh s hlegal.2.1.1 hsink hlen hph hrem

/-- Bits 0 and 1 are the ones R35 leaves to `WARN`. -/
theorem two_flags_mask (p q : Prop) [Decidable p] [Decidable q] :
    ((0 : Reg32) &&& 0xFFFFFFFC ||| (if p then 1 else 0) ||| (if q then 2 else 0)) &&& 0xFFFFFFFC = 0 := by
  split <;> split <;> decide

theorem setWarnings_warn_mask (s : State) (hwarn : s.warn = 0) : s.setWarnings.warn &&& 0xFFFFFFFC = 0 := by
  simp only [State.setWarnings, hwarn]
  exact two_flags_mask _ _

theorem State.Inv.sounding_setWarnings {s : State} (hinv : s.Inv) (hidle : s.state = .idle)
    (hlegal : s.configLegal) : s.setWarnings.Sounding := by
  have hlive : s.state ≠ .fault := by simp [hidle]
  obtain ⟨-, -, -, -, hwarn⟩ := hinv.fresh hidle
  exact ⟨hinv.1, hlegal, hinv.oscOk_of_idle hidle hlegal, setWarnings_warn_mask s hwarn,
    hinv.err_eq_none hlive, hinv.errInfo_eq_zero hlive⟩

/-! ## Each kind of command keeps the invariant -/

theorem writeCfg_inv {s : State} (hinv : s.Inv) (hidle : s.state = .idle) (idx : Fin 8) (v : Reg32) :
    (s.writeCfg idx v).Inv := by
  have herr : s.err = none := hinv.err_eq_none (by simp [hidle])
  obtain ⟨hpar, hsink, hstatus, hfresh, -⟩ := hinv
  refine ⟨hpar, hsink, hstatus, hfresh, ?_⟩
  simp [State.runInv, State.live, hidle, herr]

/-- Fault entry for an illegal command records nothing that the invariant constrains (R194). -/
theorem raise_illegal_inv {s : State} (hinv : s.Inv) (info : Reg32) : (s.raise .illegalCommand info).Inv := by
  obtain ⟨hpar, hsink, ⟨hwarn, -⟩, -, -⟩ := hinv
  refine ⟨hpar, hsink, ⟨hwarn, ?_⟩, ?_, ?_⟩
  · simp
  · simp [State.freshInv]
  · simp [State.runInv, State.live]

/-- The mask of offending registers has eight bits, and a configuration error has one of them at least (R108). -/
theorem raise_configuration_inv {s : State} (hinv : s.Inv) (hidle : s.state = .idle) (hmask : s.configMask ≠ 0) :
    (s.raise .configurationError (s.configMask.setWidth 32)).Inv := by
  have hbits : ∀ m : BitVec 8, m ≠ 0 → m.setWidth 32 ≠ (0 : Reg32) ∧ m.setWidth 32 &&& (0xFFFFFF00 : Reg32) = 0 := by
    decide
  obtain ⟨hpar, hsink, ⟨hwarn, -⟩, hfresh, -⟩ := hinv
  refine ⟨hpar, hsink, ?_, fun _ => hfresh (.inl hidle), ?_⟩
  · have := hbits s.configMask hmask
    simp_all [State.statusInv]
  · simp [State.runInv, State.live]

theorem startRun_inv {s : State} (hinv : s.Inv) (hidle : s.state = .idle) : (startRun s).final.Inv := by
  rcases startRun_final s with ⟨-, hmask, hfinal⟩ | ⟨hlegal, -⟩
  · rw [hfinal]; exact raise_configuration_inv hinv hidle hmask
  · have hw := hinv.sounding_setWarnings hidle hlegal
    rcases startRun_cases s hlegal (hinv.oscOk_of_idle hidle hlegal) with ⟨hfit, hgo⟩ | ⟨-, u, hraised, hu⟩
    · rw [hgo]
      exact (hw.of_same rfl (afterTone_oscOk s.setWarnings _ _ hw.osc hfit)).enter_inv .run (.inl rfl)
    · rw [hraised]; exact hw.fillsTo_inv hu

theorem sendFrame_inv {s : State} (hinv : s.Inv) (hrun : s.state = .run) (x : Byte) : (sendFrame x s).final.Inv := by
  have hs := hinv.sounding (.inl hrun)
  rcases sendFrame_cases x s hs.osc with ⟨-, t, hgo, ht⟩ | ⟨-, u, hraised, hu⟩
  · have hstate : t.state = s.state := by
      have hsame := ht.same
      unfold State.sameButSound at hsame
      rw [hsame]
    rw [hgo]
    exact (hs.of_same ht.same ht.ok).inv (.inl (hstate.trans hrun))
  · rw [hraised]; exact hs.fillsTo_inv hu

theorem tone_inv {s : State} (hinv : s.Inv) (hrun : s.state = .run) (f : Nat) (d : Rat) : (tone f d s).final.Inv := by
  have hs := hinv.sounding (.inl hrun)
  rcases tone_cases f d s hs.osc with ⟨hfit, hgo⟩ | ⟨-, hraised⟩
  · rw [hgo]; exact (hs.of_same rfl (afterTone_oscOk s f d hs.osc hfit)).inv (.inl hrun)
  · rw [hraised]; exact hs.fillsTo_inv (tone_fillsTo s f d hs.osc)

theorem endOfInput_inv {s : State} (hinv : s.Inv) (hrun : s.state = .run) : (endOfInput s).final.Inv := by
  have hs := hinv.sounding (.inl hrun)
  rcases endOfInput_cases s hs.osc with ⟨hfit, hgo⟩ | ⟨-, u, hraised, hu⟩
  · rw [hgo]; exact (hs.of_same rfl (afterTone_oscOk s _ _ hs.osc hfit)).enter_inv .closed (.inr (.inl rfl))
  · rw [hraised]; exact hs.fillsTo_inv hu

/-- A file changes `OUT` and `STATE` only. -/
theorem done_inv {s : State} (hinv : s.Inv) (hclosed : s.state = .closed) (out : List Byte) :
    ({ s with out := out, state := .done } : State).Inv := by
  obtain ⟨hpar, hlegal, hosc, hwarn, herr, hinfo⟩ := hinv.sounding (.inr (.inl hclosed))
  exact State.Sounding.inv ⟨hpar, hlegal, hosc, hwarn, herr, hinfo⟩ (.inr (.inr rfl))

theorem Ran.inv {i : Instr} {s t : State} (h : Ran i s t) (hinv : s.Inv) : t.Inv := by
  cases h with
  | cfgw idx v _ hidle => exact writeCfg_inv hinv hidle idx v
  | start _ hidle => exact startRun_inv hinv hidle
  | byte x _ hrun => exact sendFrame_inv hinv hrun x
  | tone f d _ hrun => exact tone_inv hinv hrun _ _
  | eoi _ hrun => exact endOfInput_inv hinv hrun
  | write _ bytes hclosed _ => exact done_inv hinv hclosed _

theorem runWord_inv {w : CmdWord} {s t : State} (h : runWord w s = .next t) (hinv : s.Inv) : t.Inv := by
  rcases runWord_next w s t h with
    ⟨-, rfl⟩ | ⟨idx, -, -, rfl⟩ | ⟨-, -, rfl⟩ | ⟨-, -, info, rfl⟩ | ⟨i, -, hran⟩
  · exact toReset_inv s s.out s.rsp hinv.1
  · exact hinv
  · exact hinv
  · exact raise_illegal_inv hinv info
  · exact hran.inv hinv

/-- Settles O56: one case for each event (`step_next`); a word's case is that of the command it runs
(`Ran.inv`), and every reset leaves the reset state (`toReset_inv`). -/
theorem stepKeepsInvariant : Obligations.StepKeepsInvariant := by
  intro s t hinv hstep
  rcases step_next s t hstep with ⟨-, rfl⟩ | ⟨w, rest, -, hword⟩ | ⟨rest, -, rfl⟩ | ⟨w, n, rest, u, -, -, rfl⟩
  · exact hinv
  · exact runWord_inv (s := { s with port := rest }) hword hinv
  · exact toReset_inv { s with port := rest } s.out s.rsp hinv.1
  · exact toReset_inv { s with port := rest } _ _ hinv.1

end Sys2Proof.Machine
end

section
/-! Requests split and repeated (41_tone_oscillator.md R133), and the values of a sample (R125, R126, R131, R165);
round half up (00_scope.md R11). -/

namespace Sys2Proof.Machine

/-- Settles O25: `rhu q` is the floor of `q + 1/2`. -/
theorem roundHalfUp : Obligations.RoundHalfUp := by
  intro q
  have hle : ((rhu q : Int) : Rat) ≤ q + 1 / 2 := Int.floor_le _
  have hlt : q + 1 / 2 < ((rhu q : Int) : Rat) + 1 := Int.lt_floor_add_one _
  constructor <;> linarith

/-! ## Requests split and repeated (R133) -/

/-- Settles O31: `tone_split`, the counts of the two requests being those of R122. -/
theorem splitRequest : Obligations.SplitRequest := by
  intro s t f d₁ d₂ hfs hrem h₁ h₂ hgo
  have hT := s.period_pos hfs
  exact tone_split f d₁ d₂ s t hT.ne' (sampleCount_nonneg s d₁ hT hrem.1 h₁)
    (sampleCount_mono s d₁ (d₁ + d₂) hT (by linarith)) hgo

/-- Settles O32: `repeatTone_eq_tone`. -/
theorem equalRequests : Obligations.EqualRequests := fun s t n f d hfs hrem hd hgo =>
  repeatTone_eq_tone n f d s (s.period_pos hfs) hrem hd t hgo

/-! ## The values of a sample -/

theorem cell_ofInt_toInt (v : Int) (hlow : -32768 ≤ v) (hhigh : v < 32768) : (BitVec.ofInt 16 v).toInt = v := by
  rw [BitVec.toInt_ofInt, Int.bmod_eq_of_le (by omega) (by omega)]

/-- Within 1 of a real value in the range of R8, an integer is in the range of a cell. -/
theorem sample_in_cell (amp : Rat) (ph fs : Nat) (hpos : 0 < amp) (hmax : amp + 1 ≤ 32767) :
    -32768 ≤ Config.sample amp ph fs ∧ Config.sample amp ph fs < 32768 := by
  have hlaw := abs_lt.1 (Config.sample_law amp ph fs hpos hmax)
  have hamp : 0 < (amp : ℝ) := by exact_mod_cast hpos
  have hampMax : (amp : ℝ) + 1 ≤ 32767 := by exact_mod_cast hmax
  have hupper : (amp : ℝ) * Real.sin (2 * Real.pi * ph / fs) ≤ amp := by
    nlinarith [Real.sin_le_one (2 * Real.pi * ph / fs)]
  have hlower : -(amp : ℝ) ≤ amp * Real.sin (2 * Real.pi * ph / fs) := by
    nlinarith [Real.neg_one_le_sin (2 * Real.pi * ph / fs)]
  have hlow : ((-32768 : Int) : ℝ) < Config.sample amp ph fs := by push_cast; linarith
  have hhigh : (Config.sample amp ph fs : ℝ) < ((32768 : Int) : ℝ) := by push_cast; linarith
  exact ⟨(Int.cast_lt.1 hlow).le, Int.cast_lt.1 hhigh⟩

/-- Settles O34: the cell holds the sample itself (`sample_in_cell`), of which R126 speaks. -/
theorem sampleWithinOne : Obligations.SampleWithinOne := by
  rintro s ⟨-, hpos, hmax⟩
  obtain ⟨hlow, hhigh⟩ := sample_in_cell s.par.amp s.ph s.sampleRate hpos hmax
  rw [State.sampleNow, cell_ofInt_toInt _ hlow hhigh]
  exact Config.sample_law s.par.amp s.ph s.sampleRate hpos hmax

/-- The angle of a phase that is `k` of `m` equal parts of a turn. -/
theorem angle_of_parts (ph fs k m : Nat) (hfs : 0 < fs) (hm : 0 < m) (hk : m * ph = k * fs) :
    2 * Real.pi * ph / fs = 2 * Real.pi * k / m := by
  have hfs' : (fs : ℝ) ≠ 0 := by exact_mod_cast hfs.ne'
  have hm' : (m : ℝ) ≠ 0 := by exact_mod_cast hm.ne'
  have hk' : (m : ℝ) * ph = k * fs := by exact_mod_cast hk
  rw [div_eq_div_iff hfs' hm']
  linear_combination 2 * Real.pi * hk'

/-- At a half turn, or none, the sine is 0. -/
theorem sin_of_half_turns (ph fs : Nat) (hfs : 0 < fs) (h : 2 * ph % fs = 0) :
    Real.sin (2 * Real.pi * ph / fs) = 0 := by
  have hk : 2 * ph = 2 * ph / fs * fs := (Nat.div_mul_cancel (Nat.dvd_of_mod_eq_zero h)).symm
  rw [angle_of_parts ph fs _ 2 hfs (by decide) hk, ← Real.sin_nat_mul_pi (2 * ph / fs)]
  congr 1
  push_cast
  ring

/-- At `r` quarters of a turn, whole turns aside, the angle is `r` right angles. -/
theorem sin_of_quarter_turns (ph fs r : Nat) (hfs : 0 < fs) (h : 4 * ph % fs = 0) (hr : 4 * ph / fs % 4 = r) :
    Real.sin (2 * Real.pi * ph / fs) = Real.sin (r * (Real.pi / 2)) := by
  have hk : 4 * ph = 4 * ph / fs * fs := (Nat.div_mul_cancel (Nat.dvd_of_mod_eq_zero h)).symm
  rw [angle_of_parts ph fs _ 4 hfs (by decide) hk]
  obtain ⟨k, m, hkm⟩ : ∃ k m : Nat, k = 4 * m + r ∧ k = 4 * ph / fs :=
    ⟨_, 4 * ph / fs / 4, by omega, rfl⟩
  rw [← hkm.2, hkm.1, ← Real.sin_add_nat_mul_two_pi (r * (Real.pi / 2)) m]
  congr 1
  push_cast
  ring

theorem sin_three_right_angles : Real.sin ((3 : Nat) * (Real.pi / 2)) = -1 := by
  rw [← Real.sin_pi_div_two, ← Real.sin_add_pi]
  congr 1
  push_cast
  ring

/-- The integers within 1 of the default `AMP`. -/
theorem eq_of_near_default_amp (v : Int) (h : |(v : ℝ) - 32767 / 5| < 1) : v = 6553 ∨ v = 6554 := by
  obtain ⟨hlow, hhigh⟩ := abs_lt.1 h
  have hv : ((6552 : Int) : ℝ) < v ∧ (v : ℝ) < ((6555 : Int) : ℝ) := by
    push_cast
    constructor <;> linarith
  rw [Int.cast_lt, Int.cast_lt] at hv
  omega

/-- Settles O35: the sine is 0, 1 and -1 at these phases, and R126 leaves one integer within 1 of 0, two within 1
of `AMP` (`eq_of_near_default_amp`). -/
theorem samplesAtQuarterTurns : Obligations.SamplesAtQuarterTurns := by
  intro ph fs hfs
  have hdefault := Config.sample_law (32767 / 5) ph fs (by norm_num) (by norm_num)
  refine ⟨fun amp hpos hmax hhalf => ?_, fun hquarter hr => ?_, fun hquarter hr => ?_⟩
  · have hlaw := Config.sample_law amp ph fs hpos hmax
    rw [sin_of_half_turns ph fs hfs hhalf, mul_zero, sub_zero] at hlaw
    exact Int.abs_lt_one_iff.1 (by exact_mod_cast hlaw)
  · rw [sin_of_quarter_turns ph fs 1 hfs hquarter hr, Nat.cast_one, one_mul, Real.sin_pi_div_two] at hdefault
    exact eq_of_near_default_amp _ (by simpa using hdefault)
  · rw [sin_of_quarter_turns ph fs 3 hfs hquarter hr, sin_three_right_angles, ← abs_neg] at hdefault
    have hneg : |((-Config.sample (32767 / 5) ph fs : Int) : ℝ) - 32767 / 5| < 1 := by
      refine lt_of_eq_of_lt ?_ hdefault
      congr 1
      push_cast
      ring
    have := eq_of_near_default_amp _ hneg
    omega

end Sys2Proof.Machine
end

section
/-! START, BYTE, EOI and TONE that complete (42_frame_encoder.md R147 to R149, 41_tone_oscillator.md R128): the count,
the phase, the remainder and every sample; the tones of a frame, place by place (R143 to R146). -/

namespace Sys2Proof.Machine

/-! ## The frame (R143 to R146) -/

theorem getLsbD_iff_div_mod (x : Byte) (i : Nat) : x.getLsbD i = true ↔ x.toNat / 2 ^ i % 2 = 1 := by
  rw [BitVec.getLsbD, Nat.testBit_eq_decide_div_mod_eq, decide_eq_true_eq]

theorem frameHead_length (s : State) (x : Byte) :
    (s.frameHead x).length = 1 + s.bitWidth + (if s.parity = 0 then 0 else 1) := by
  unfold State.frameHead
  split <;> simp <;> omega

/-- The tone of the start bit (R143). -/
theorem frameTones_start (s : State) (x : Byte) : (s.frameTones x)[0]? = some s.spaceFreq := by
  simp [State.frameTones, State.frameHead]

/-- Data bit `i` follows the start bit and the data bits below it (R144). -/
theorem frameTones_data (s : State) (x : Byte) (i : Nat) (hi : i < s.bitWidth) :
    (s.frameTones x)[1 + i]? = some (s.freqOf (x.getLsbD i)) := by
  rw [Nat.add_comm, State.frameTones, State.frameHead, List.append_assoc, List.append_assoc, List.singleton_append,
    List.getElem?_cons_succ, List.getElem?_append_left (by simpa using hi)]
  simp [hi]

/-- The stop bits follow all the others (R146). -/
theorem frameTones_stop (s : State) (x : Byte) (i : Nat) (hi : i < s.stopBits) :
    (s.frameTones x)[(s.frameHead x).length + i]? = some s.markFreq := by
  rw [State.frameTones, List.getElem?_append_right (by omega), Nat.add_sub_cancel_left]
  simp [hi]

/-- Settles O23: each kind of bit at its place in the frame, in the order of R143 to R146. -/
theorem frameLayout : Obligations.FrameLayout := by
  intro s x _ p
  refine ⟨frameTones_length s x, frameTones_start s x, fun i hi => ?_, frameTones_parity s x, fun i hi => ?_⟩
  · rw [frameTones_data s x i hi]
    simp only [State.freqOf, getLsbD_iff_div_mod]
  · rw [← frameHead_length s x]
    exact frameTones_stop s x i hi

/-! ## TONE (R128) -/

/-- Settles O27: `TONE` is a request (`exec_tone_of_run`), which ToneRequest describes. -/
theorem toneCompletes : Obligations.ToneCompletes := by
  intro s g b hinv hrun n hn hfit
  obtain ⟨-, hph, -⟩ := hinv.oscOk (.inl hrun)
  obtain ⟨t, hgo, hsame, hlen, hrem, hphase, hkept, hnew, habove⟩ :=
    toneRequest s g.toNat b.toNat hinv (.inl hrun) (Nat.cast_nonneg _) n hn hfit
  have hexec : exec (.tone g b) s = .next t := by
    rw [exec_tone_of_run g b s hrun, hgo, Flow.final_go]
  rw [← advance_eq_ite s g.toNat n hph] at hphase
  simp only [← eq_zero_iff_toNat g] at hnew
  refine ⟨t, hexec, hsame, hlen, hrem, hphase, fun h0 => ?_, hkept, hnew, habove⟩
  rw [hphase, h0]
  exact Nat.mod_eq_of_lt hph

/-! ## START and EOI (R147, R149) -/

/-- With nothing carried over, `e` bit-durations make as many samples as their exact number, rounded. -/
theorem sampleCount_bits_of_rem_zero (s : State) (e : Nat) (hrem : s.rem = 0) :
    s.sampleCount (e * s.bitDuration) = Int.floor ((e * s.sampleRate : Rat) / s.baud + 1 / 2) := by
  rw [sampleCount_eq_floor, hrem, add_zero, s.bitDuration_eq]
  congr 2
  field_simp

/-- `t` is reached from `s` by `n` samples of frequency `f`: what they leave of `LEN`, `PH` and `SINK`. -/
structure Played (s t : State) (f n : Nat) : Prop where
  len : t.len.toNat = s.len.toNat + n
  ph : t.ph = (s.ph + n * f) % s.sampleRate
  kept : ∀ i < s.len.toNat, t.sink.read i = s.sink.read i
  new : ∀ j < n, t.sink.read (s.len.toNat + j) = some (s.toneCell f j)
  above : ∀ i, t.len.toNat ≤ i → t.sink.read i = none

/-- A request that fits plays its samples (R121, R123, R124). -/
theorem afterTone_played (s : State) (f : Nat) (d : Rat) (n : Nat) (hs : s.oscOk) (hn : s.sampleCount d = n)
    (hfit : s.len.toNat + n ≤ s.par.maxSamples.val) : Played s (s.afterTone f d) f n := by
  have hnat : (s.sampleCount d).toNat = n := by rw [hn, Int.toNat_natCast]
  rw [← hnat] at hfit ⊢
  have hafter := afterTone_oscOk s f d hs hfit
  obtain ⟨-, hph, -, hsink⟩ := hs
  exact ⟨afterTone_len s f d hfit, afterTone_ph s f d hph, fun i hi => Memory.read_append_left _ _ _ i hsink.1 hi,
    fun j hj => read_append_right s f _ j hsink.1 hj, fun i hi => read_above_len _ i hafter.2.2.2 hi⟩

/-- Settles O18: with the checks passed and nothing in the sink, `START` is one request of 1040 bit-durations
(`startRun_cases`), counted from 0. -/
theorem startCompletes : Obligations.StartCompletes := by
  intro s hinv hidle hlegal n hn hfit
  have hosc := hinv.oscOk_of_idle hidle hlegal
  obtain ⟨-, hlen, hph, hrem, -⟩ := hinv.fresh hidle
  have hcount : s.sampleCount (Config.preBits * s.bitDuration) = n :=
    (sampleCount_bits_of_rem_zero s Config.preBits hrem).trans hn.symm
  have hlen0 : s.len.toNat = 0 := by rw [hlen]; rfl
  have hplayed := afterTone_played s.setWarnings s.markFreq (Config.preBits * s.bitDuration) n hosc hcount
    (by rw [State.setWarnings_len, hlen0, Nat.zero_add]; exact hfit)
  rcases startRun_cases s hlegal hosc with ⟨-, hgo⟩ | ⟨hover, -⟩
  case inr => rw [hcount, Int.toNat_natCast] at hover; omega
  obtain ⟨hlenAfter, hphAfter, -, hnew, habove⟩ := hplayed
  rw [State.setWarnings_len, hlen0, Nat.zero_add] at hlenAfter
  have hexec := exec_start_of_idle s hidle
  rw [hgo, Flow.final_go] at hexec
  refine ⟨_, hexec, rfl, hlenAfter, ?_, ?_, ?_, ?_⟩
  · rw [State.setWarnings_ph, hph, Nat.zero_add] at hphAfter
    exact hphAfter
  · have hremAfter := remAfter_eq s (Config.preBits * s.bitDuration) n hcount
    rw [hrem, add_zero, s.bitDuration_eq] at hremAfter
    exact hremAfter
  · intro j hj
    have hcell := hnew j hj
    rw [State.setWarnings_len, hlen0, Nat.zero_add, State.toneCell, State.setWarnings_ph, hph, Nat.zero_add] at hcell
    exact hcell
  · exact fun i hi => habove i (hlenAfter.trans_le hi)

/-- Settles O22: `EOI` is one request of 240 bit-durations (`endOfInput_cases`). -/
theorem eoiCompletes : Obligations.EoiCompletes := by
  intro s hinv hrun n hn hfit
  have hosc := hinv.oscOk (.inl hrun)
  have hcount : s.sampleCount (Config.postBits * s.bitDuration) = n := by
    rw [sampleCount_eq_floor, s.bitDuration_eq, hn]
    rfl
  rcases endOfInput_cases s hosc with ⟨-, hgo⟩ | ⟨hover, -⟩
  case inr => rw [hcount, Int.toNat_natCast] at hover; omega
  obtain ⟨hlen, hph, hkept, hnew, habove⟩ :=
    afterTone_played s s.markFreq (Config.postBits * s.bitDuration) n hosc hcount hfit
  have hrem := remAfter_eq s (Config.postBits * s.bitDuration) n hcount
  rw [s.bitDuration_eq] at hrem
  have hexec := exec_eoi_of_run s hrun
  rw [hgo, Flow.final_go] at hexec
  exact ⟨_, hexec, rfl, hlen, hph, hrem, hkept, hnew, habove⟩

/-! ## BYTE (R148) -/

/-- The samples of the first `k` requests of one bit-duration, in the spec's numbers (R121). -/
theorem samplesOf_bits_eq (s : State) (k : Nat) :
    s.samplesOf s.bitDuration k =
      (Int.floor ((k * (1000000 / s.baud) + s.rem) / (1000000 / s.sampleRate) + 1 / 2)).toNat := by
  rw [State.samplesOf, sampleCount_eq_floor, s.bitDuration_eq]

/-- Settles O20: a frame that fits plays each of its tones from where the one before left off (`toneEach_plays`);
its count and remainder are those of the total duration (`sendFrame_cases`). -/
theorem byteCompletes : Obligations.ByteCompletes := by
  intro s x hinv hrun e n he hn hfit made phase
  have hosc := hinv.oscOk (.inl hrun)
  have hlength : (s.frameTones x).length = e := (frameTones_length s x).trans he.symm
  have hmade : made = s.samplesOf s.bitDuration := funext fun k => (samplesOf_bits_eq s k).symm
  have hphase : phase = s.phaseOf (s.frameTones x) s.bitDuration := by
    funext k
    simp only [phase, hmade]
    rfl
  have hcount : s.sampleCount (e * s.bitDuration) = n := by
    rw [sampleCount_eq_floor, s.bitDuration_eq, hn]
  have htotal : s.samplesOf s.bitDuration e = n := by
    rw [State.samplesOf, hcount, Int.toNat_natCast]
  rw [hmade, hphase]
  obtain ⟨t, hgo, hph, hcells⟩ := toneEach_plays (s.frameTones x) s.bitDuration s s.bitDuration_nonneg hosc
    (by rw [hlength, htotal]; exact hfit)
  rcases sendFrame_cases x s hosc with ⟨-, u, hu, hsounds⟩ | ⟨hover, -⟩
  case inr => rw [hlength, hcount, Int.toNat_natCast] at hover; omega
  obtain rfl : t = u := Flow.go.inj (hgo.symm.trans hu)
  rw [hlength] at hph hsounds
  obtain ⟨hsame, ⟨-, -, -, hdense, -⟩, hlen, hrem, c, hsink⟩ := hsounds
  rw [hcount, Int.toNat_natCast] at hlen
  rw [remAfter_eq s _ n hcount, s.bitDuration_eq] at hrem
  have hexec := exec_byte_of_run x s hrun
  rw [hu, Flow.final_go] at hexec
  refine ⟨t, hexec, hsame, hlen, hrem, hph, fun i hi => ?_, samplesOf_zero s _ hosc, htotal, hlength,
    fun k f hk => ⟨?_, hcells k f hk⟩, fun i => ?_⟩
  · rw [hsink]
    exact Memory.read_append_left _ _ _ i hosc.dense hi
  · exact samplesOf_mono s _ s.bitDuration_nonneg hosc (Nat.le_succ k)
  · rw [Memory.read_dense_isSome _ _ i hdense, decide_eq_true_eq]

end Sys2Proof.Machine
end

section
/-! What a step leaves alone (10_state.md R40, 20_memory.md R53, R54, 60_exceptions.md R192, R200): the parameters, the
streams, the phase, the form of the store; and what a capacity error leaves. -/

namespace Sys2Proof.Machine

/-! ## Frames of the commands that run -/

theorem Ran.keeps_par {i : Instr} {s t : State} (h : Ran i s t) : t.par = s.par := by
  rcases ran_shape i s t h with ⟨idx, v, -, -, rfl⟩ | ⟨-, -, -, rfl⟩ |
    ⟨-, -, -, u, hu, -, rfl | ⟨st, rfl, -⟩⟩ | ⟨-, -, bytes, rfl⟩
  · rfl
  · rfl
  · rw [hu]; rfl
  · rw [hu]
  · rfl

theorem Ran.keeps_rsp {i : Instr} {s t : State} (h : Ran i s t) : t.rsp = s.rsp := by
  rcases ran_shape i s t h with ⟨idx, v, -, -, rfl⟩ | ⟨-, -, -, rfl⟩ |
    ⟨-, -, -, u, hu, -, rfl | ⟨st, rfl, -⟩⟩ | ⟨-, -, bytes, rfl⟩
  · rfl
  · rfl
  · rw [hu]; rfl
  · rw [hu]
  · rfl

/-- Only `WRITE`, in `CLOSED`, puts anything on `OUT`. -/
theorem Ran.out_cases {i : Instr} {s t : State} (h : Ran i s t) :
    t.out = s.out ∨ (i = .write ∧ s.state = .closed ∧ ∃ bytes, t.out = s.out ++ bytes) := by
  rcases ran_shape i s t h with ⟨idx, v, -, -, rfl⟩ | ⟨-, -, -, rfl⟩ |
    ⟨-, -, -, u, hu, -, rfl | ⟨st, rfl, -⟩⟩ | ⟨hi, hclosed, bytes, rfl⟩
  · exact .inl rfl
  · exact .inl rfl
  · rw [hu]; exact .inl rfl
  · rw [hu]; exact .inl rfl
  · exact .inr ⟨hi, hclosed, bytes, rfl⟩

/-- Only the commands that make tones move the phase. -/
theorem Ran.keeps_ph {i : Instr} {s t : State} (h : Ran i s t) (hi : makesTones i ≠ true) : t.ph = s.ph := by
  rcases ran_shape i s t h with ⟨idx, v, -, -, rfl⟩ | ⟨-, -, -, rfl⟩ | ⟨htones, -⟩ | ⟨-, -, bytes, rfl⟩
  · rfl
  · rfl
  · exact absurd htones hi
  · rfl

theorem Ran.keeps_wf {i : Instr} {s t : State} (h : Ran i s t) (hs : s.sink.wf) : t.sink.wf := by
  rcases ran_shape i s t h with ⟨idx, v, -, -, rfl⟩ | ⟨-, -, -, rfl⟩ |
    ⟨-, -, -, u, -, hwf, rfl | ⟨st, rfl, -⟩⟩ | ⟨-, -, bytes, rfl⟩
  · exact hs
  · exact hs
  · exact hwf hs
  · exact hwf hs
  · exact hs

/-! ## Frames of the words -/

theorem runWord_keeps_par (w : CmdWord) (s t : State) (h : runWord w s = .next t) : t.par = s.par := by
  rcases runWord_next w s t h with
    ⟨-, rfl⟩ | ⟨idx, -, -, rfl⟩ | ⟨-, -, rfl⟩ | ⟨-, -, info, rfl⟩ | ⟨i, -, hran⟩
  · rfl
  · rfl
  · rfl
  · rfl
  · exact hran.keeps_par

/-- Settles O53: one case for each event (`step_next`); a reset keeps `par`, and so does a word
(`runWord_keeps_par`). -/
theorem parametersFixed : Obligations.ParametersFixed := by
  intro s t hstep
  rcases step_next s t hstep with ⟨-, rfl⟩ | ⟨w, rest, -, hword⟩ | ⟨rest, -, rfl⟩ | ⟨w, n, rest, u, -, -, rfl⟩
  · rfl
  · exact runWord_keeps_par w { s with port := rest } t hword
  · rfl
  · rfl

theorem runWord_keeps_wf (w : CmdWord) (s t : State) (h : runWord w s = .next t) (hs : s.sink.wf) : t.sink.wf := by
  rcases runWord_next w s t h with
    ⟨-, rfl⟩ | ⟨idx, -, -, rfl⟩ | ⟨-, -, rfl⟩ | ⟨-, -, info, rfl⟩ | ⟨i, -, hran⟩
  · exact Memory.nil_wf
  · exact hs
  · exact hs
  · exact hs
  · exact hran.keeps_wf hs

/-- Settles O39: one case for each event (`step_next`); a reset leaves an empty store, and a word keeps the form
(`runWord_keeps_wf`). -/
theorem sinkStaysCanonical : Obligations.SinkStaysCanonical := by
  intro s t hs hstep
  rcases step_next s t hstep with ⟨-, rfl⟩ | ⟨w, rest, -, hword⟩ | ⟨rest, -, rfl⟩ | ⟨w, n, rest, u, -, -, rfl⟩
  · exact hs
  · exact runWord_keeps_wf w { s with port := rest } t hword hs
  · exact Memory.nil_wf
  · exact Memory.nil_wf

/-- Settles O36: of what a word can do (`runWord_next`), only `RESET` and the tones of a command move the phase. -/
theorem onlyTonesAndResetMovePhase : Obligations.OnlyTonesAndResetMovePhase := by
  intro s t w rest hport hstep hph
  rw [step_word s w rest hport] at hstep
  rcases runWord_next w { s with port := rest } t hstep with
    ⟨hd, -⟩ | ⟨idx, -, -, rfl⟩ | ⟨-, -, rfl⟩ | ⟨-, -, info, rfl⟩ | ⟨i, hd, hran⟩
  · exact ⟨.reset, hd, .inr rfl⟩
  · exact absurd rfl hph
  · exact absurd rfl hph
  · exact absurd rfl hph
  · refine ⟨i, hd, .inl ?_⟩
    by_contra hi
    exact hph (hran.keeps_ph hi)

theorem runWord_out_cases (w : CmdWord) (s t : State) (h : runWord w s = .next t) :
    t.out = s.out ∨ (decode w = .ok .write ∧ s.state = .closed ∧ ∃ bytes, t.out = s.out ++ bytes) := by
  rcases runWord_next w s t h with
    ⟨-, rfl⟩ | ⟨idx, -, -, rfl⟩ | ⟨-, -, rfl⟩ | ⟨-, -, info, rfl⟩ | ⟨i, hd, hran⟩
  · exact .inl rfl
  · exact .inl rfl
  · exact .inl rfl
  · exact .inl rfl
  · rcases hran.out_cases with hout | ⟨rfl, hclosed, hbytes⟩
    · exact .inl hout
    · exact .inr ⟨hd, hclosed, hbytes⟩

theorem runWord_out_prefix (w : CmdWord) (s t : State) (h : runWord w s = .next t) : s.out <+: t.out := by
  rcases runWord_out_cases w s t h with hout | ⟨-, -, bytes, hout⟩
  · rw [hout]
  · rw [hout]; exact List.prefix_append _ _

/-- Settles O47: `runWord_out_cases`. -/
theorem outputOnlyFromWrite : Obligations.OutputOnlyFromWrite := by
  intro s t w rest hport hstep
  rw [step_word s w rest hport] at hstep
  refine ⟨runWord_out_prefix w { s with port := rest } t hstep, fun hne => ?_⟩
  rcases runWord_out_cases w { s with port := rest } t hstep with hout | ⟨hd, hclosed, -⟩
  · exact absurd hout hne
  · exact ⟨hd, hclosed⟩

/-- A word responds a value if it is an `RDSR`, and none otherwise. -/
theorem runWord_rsp_cases (w : CmdWord) (s t : State) (h : runWord w s = .next t) :
    (t.rsp = s.rsp ∧ ∀ idx, decode w ≠ .ok (.rdsr idx)) ∨
    ∃ idx, decode w = .ok (.rdsr idx) ∧ t.rsp = s.rsp ++ [s.statusValue idx] := by
  by_cases hrdsr : ∃ idx, decode w = .ok (.rdsr idx)
  · obtain ⟨idx, hd⟩ := hrdsr
    rw [runWord, hd] at h
    obtain rfl := Host.Outcome.next.inj ((exec_rdsr_of_le idx s (rdsr_le_of_decode w idx hd)).symm.trans h)
    exact .inr ⟨idx, hd, rfl⟩
  · refine .inl ⟨?_, not_exists.1 hrdsr⟩
    rcases runWord_next w s t h with
      ⟨-, rfl⟩ | ⟨idx, hd, -⟩ | ⟨-, -, rfl⟩ | ⟨-, -, info, rfl⟩ | ⟨i, -, hran⟩
    · rfl
    · exact absurd ⟨idx, hd⟩ hrdsr
    · rfl
    · rfl
    · exact hran.keeps_rsp

/-- Settles O48: `runWord_rsp_cases`. -/
theorem responsesOnlyFromRdsr : Obligations.ResponsesOnlyFromRdsr := by
  intro s t w rest hport hstep
  rw [step_word s w rest hport] at hstep
  rcases runWord_rsp_cases w { s with port := rest } t hstep with ⟨hrsp, hnone⟩ | ⟨idx, hd, hrsp⟩
  · exact ⟨fun idx hd => absurd hd (hnone idx), fun _ => hrsp⟩
  · exact ⟨fun _ _ => ⟨_, hrsp⟩, fun hnone => absurd hd (hnone idx)⟩

/-! ## Fault entry (R200) -/

/-- Settles O49: into `FAULT` lead the illegal words, and of the commands that run a refused configuration and tones
that do not fit (`ran_shape`). -/
theorem faultEntry : Obligations.FaultEntry := by
  intro s t w rest hport hstep hlive hfault
  rw [step_word s w rest hport] at hstep
  rcases runWord_next w { s with port := rest } t hstep with
    ⟨-, rfl⟩ | ⟨idx, -, -, rfl⟩ | ⟨hwas, -⟩ | ⟨-, -, info, rfl⟩ | ⟨i, -, hran⟩
  · cases hfault
  · exact absurd hfault hlive
  · exact absurd hwas hlive
  · exact ⟨by simp, rfl, fun _ => rfl⟩
  · rcases ran_shape i _ t hran with ⟨idx, v, -, -, rfl⟩ | ⟨-, -, -, rfl⟩ |
      ⟨-, -, -, u, hu, -, rfl | ⟨st, rfl, hst⟩⟩ | ⟨-, -, bytes, rfl⟩
    · exact absurd hfault hlive
    · exact ⟨by simp, rfl, fun _ => rfl⟩
    · refine ⟨by simp, ?_, fun hne => absurd rfl hne⟩
      rw [hu]; rfl
    · exact absurd hfault hst
    · cases hfault

/-! ## Capacity errors (R192) -/

/-- What a command that runs into a capacity error leaves alone, and which commands do. -/
theorem Ran.of_capacity {i : Instr} {s t : State} (h : Ran i s t) (hs : s.err = none)
    (ht : t.err = some .capacityExceededError) :
    makesTones i = true ∧ t.out = s.out ∧ t.rsp = s.rsp ∧ t.cfg = s.cfg ∧ t.cfgv = s.cfgv := by
  rcases ran_shape i s t h with ⟨idx, v, -, -, rfl⟩ | ⟨-, -, -, rfl⟩ |
    ⟨htones, -, -, u, hu, -, rfl | ⟨st, rfl, -⟩⟩ | ⟨-, -, bytes, rfl⟩
  · simp [hs] at ht
  · simp at ht
  · rw [hu]; exact ⟨htones, rfl, rfl, rfl, rfl⟩
  · rw [hu]; exact ⟨htones, rfl, rfl, rfl, rfl⟩
  · simp [hs] at ht

/-- Settles O40: the error is new, so a command that makes tones has raised it (`Ran.of_capacity`); what it leaves of
`STATE`, `ERRINFO` and `LEN` is the invariant of the state after the step (`runWord_inv`). -/
theorem capacityErrors : Obligations.CapacityErrors := by
  intro s t w rest hinv hport hstep hlive herr
  have hnone := hinv.err_eq_none hlive
  rw [step_word s w rest hport] at hstep
  obtain ⟨-, -, ⟨-, hfault, -, -, -, hcapacity⟩, -⟩ := runWord_inv (s := { s with port := rest }) hstep hinv
  obtain ⟨hinfo, hfull⟩ := hcapacity herr
  have hpar : t.par = s.par := runWord_keeps_par w { s with port := rest } t hstep
  rw [hpar] at hfull
  rcases runWord_next w { s with port := rest } t hstep with
    ⟨-, rfl⟩ | ⟨idx, -, -, rfl⟩ | ⟨-, -, rfl⟩ | ⟨-, -, info, rfl⟩ | ⟨i, hd, hran⟩
  · cases herr
  · cases hnone.symm.trans herr
  · cases hnone.symm.trans herr
  · cases herr
  · obtain ⟨htones, hkept⟩ := hran.of_capacity hnone herr
    exact ⟨⟨i, hd, htones⟩, hfault.1 (by simp [herr]), hinfo, hfull, hkept⟩

/-- What a sequence of requests that does not fit leaves when it has raised. -/
structure Overflowed (s t : State) : Prop where
  state : t.state = .fault
  err : t.err = some .capacityExceededError
  errInfo : t.errInfo = 0
  full : t.len.toNat = s.par.maxSamples.val
  kept : ∀ j < s.len.toNat, t.sink.read j = s.sink.read j
  cfg : t.cfg = s.cfg
  cfgv : t.cfgv = s.cfgv
  out : t.out = s.out
  rsp : t.rsp = s.rsp
  port : t.port = s.port
  par : t.par = s.par

theorem FillsTo.overflowed {s u : State} (hu : FillsTo s u) (hdense : s.sink.dense s.len.toNat) :
    Overflowed s (u.raise .capacityExceededError 0) := by
  obtain ⟨hsame, -, hfull, c, hsink⟩ := hu
  have hkept : ∀ j < s.len.toNat, u.sink.read j = s.sink.read j := fun j hj => by
    rw [hsink]; exact Memory.read_append_left _ _ _ j hdense hj
  unfold State.sameButSound at hsame
  refine ⟨rfl, rfl, rfl, hfull, hkept, ?_, ?_, ?_, ?_, ?_, ?_⟩ <;> rw [hsame] <;> rfl

theorem Overflowed.of_setWarnings {s t : State} (h : Overflowed s.setWarnings t) : Overflowed s t :=
  ⟨h.state, h.err, h.errInfo, h.full, h.kept, h.cfg, h.cfgv, h.out, h.rsp, h.port, h.par⟩

/-- A command whose pseudocode so ends. -/
theorem exec_overflowed {i : Instr} {s u : State} {f : Flow} (hexec : exec i s = .next f.final)
    (hraised : f = .raised (u.raise .capacityExceededError 0))
    (h : Overflowed s (u.raise .capacityExceededError 0)) : ∃ t, exec i s = .next t ∧ Overflowed s t := by
  rw [hraised, Flow.final_raised] at hexec
  exact ⟨_, hexec, h⟩

/-- Settles O41: each of the three pseudocodes raises where its total does not fit (`startRun_cases`,
`sendFrame_cases`, `endOfInput_cases`). -/
theorem overflowRaises : Obligations.OverflowRaises := by
  intro s i e n hinv hcommand hn hover
  have hcount : s.sampleCount (e * s.bitDuration) = n := by
    rw [sampleCount_eq_floor, s.bitDuration_eq, hn]
  have hnofit : ¬ s.len.toNat + (s.sampleCount (e * s.bitDuration)).toNat ≤ s.par.maxSamples.val := by
    rw [hcount, Int.toNat_natCast]; omega
  have hdense := hinv.dense
  suffices h : ∃ t, exec i s = .next t ∧ Overflowed s t by
    obtain ⟨t, hexec, h⟩ := h
    exact ⟨t, hexec, h.state, h.err, h.errInfo, h.full, h.kept, h.cfg, h.cfgv, h.out, h.rsp, h.port, h.par⟩
  rcases hcommand with ⟨rfl, hidle, hlegal, rfl⟩ | ⟨x, rfl, hrun, rfl⟩ | ⟨rfl, hrun, rfl⟩
  · rcases startRun_cases s hlegal (hinv.oscOk_of_idle hidle hlegal) with ⟨hfit, -⟩ | ⟨-, u, hraised, hu⟩
    · exact absurd hfit hnofit
    · exact exec_overflowed (exec_start_of_idle s hidle) hraised (.of_setWarnings (hu.overflowed hdense))
  · rcases sendFrame_cases x s (hinv.oscOk (.inl hrun)) with ⟨hfit, -⟩ | ⟨-, u, hraised, hu⟩
    · exact absurd hfit hnofit
    · exact exec_overflowed (exec_byte_of_run x s hrun) hraised (hu.overflowed hdense)
  · rcases endOfInput_cases s (hinv.oscOk (.inl hrun)) with ⟨hfit, -⟩ | ⟨-, u, hraised, hu⟩
    · exact absurd hfit hnofit
    · exact exec_overflowed (exec_eoi_of_run s hrun) hraised (hu.overflowed hdense)

end Sys2Proof.Machine
end

section
/-! The header read back (44_container_writer.md R179, R180): the numbers that byte lists hold, the 80-bit sample
rate, and the fields of both headers. -/

namespace Sys2Proof.Machine

/-! ## The number that bytes hold (R13) -/

theorem byteOf_shift (v j k : Nat) : byteOf (v / 256 ^ j) k = byteOf v (j + k) := by
  rw [byteOf, byteOf, Nat.div_div_eq_div_mul, ← pow_add]

/-- The low bytes of a number are those of its remainder. -/
theorem byteOf_mod (v n k : Nat) (hk : k < n) : byteOf (v % 256 ^ n) k = byteOf v k := by
  obtain ⟨j, rfl⟩ : ∃ j, n = k + (j + 1) := ⟨n - k - 1, by omega⟩
  apply BitVec.eq_of_toNat_eq
  rw [byteOf, byteOf, BitVec.toNat_ofNat, BitVec.toNat_ofNat, pow_add, Nat.mod_mul_right_div_self, pow_succ]
  exact Nat.mod_mod_of_dvd _ (Nat.dvd_mul_left _ _)

/-- The bytes of a number from the least significant up hold the number. -/
theorem littleEndian_bytes (n v : Nat) (hv : v < 256 ^ n) : littleEndian ((List.range n).map (byteOf v)) = v := by
  induction n generalizing v with
  | zero => simp at hv; simp [littleEndian, hv]
  | succ n ih =>
    have hhigh : v / 256 < 256 ^ n := Nat.div_lt_of_lt_mul (by rwa [← pow_succ'])
    have hshift : byteOf v ∘ Nat.succ = byteOf (v / 256) := by
      funext k
      rw [Function.comp_apply, Nat.succ_eq_one_add, ← byteOf_shift, pow_one]
    have hlow : (byteOf v 0).toNat = v % 256 := by simp [byteOf]
    rw [List.range_succ_eq_map, List.map_cons, List.map_map, hshift, littleEndian, ih _ hhigh, hlow,
      Nat.mod_add_div]

theorem bigEndian_bytes (n v : Nat) (hv : v < 256 ^ n) :
    bigEndian ((List.range n).map (byteOf v)).reverse = v := by
  rw [bigEndian, List.reverse_reverse, littleEndian_bytes n v hv]

theorem u64be_bytes (v : Nat) : u64be v = (List.range 8).map fun k => byteOf v (7 - k) := by
  have hhigh : ∀ k, byteOf (v / 4294967296) k = byteOf v (4 + k) := fun k => byteOf_shift v 4 k
  have hlow : ∀ k < 4, byteOf (v % 4294967296) k = byteOf v k := fun k hk => byteOf_mod v 4 k hk
  rw [u64be, u32be_bytes, u32be_bytes, hhigh, hhigh, hhigh, hhigh, hlow 0 (by decide), hlow 1 (by decide),
    hlow 2 (by decide), hlow 3 (by decide)]
  rfl

/-! ## The 80-bit sample rate (R179) -/

theorem ext80_bytes (r : Nat) :
    ext80 r = [byteOf (16383 + Nat.log2 r) 1, byteOf (16383 + Nat.log2 r) 0] ++
      (List.range 8).map (fun k => byteOf (r * 2 ^ (63 - Nat.log2 r)) (7 - k)) := by
  rw [ext80, u16be_bytes, u64be_bytes]

theorem log2_le_of_word (r : Nat) (hpos : r ≠ 0) (hr : r < 2 ^ 32) : Nat.log2 r ≤ 31 :=
  Nat.lt_succ_iff.1 ((Nat.log2_lt hpos).2 hr)

/-- The significand is the rate moved up to bit 63. -/
theorem significand_scaled (r e : Nat) (he : e ≤ 63) : r * 2 ^ (63 - e) * 2 ^ e = r * 2 ^ 63 := by
  rw [mul_assoc, ← pow_add, Nat.sub_add_cancel he]

theorem significand_bounds (r : Nat) (hpos : r ≠ 0) (hr : r < 2 ^ 32) :
    2 ^ 63 ≤ r * 2 ^ (63 - Nat.log2 r) ∧ r * 2 ^ (63 - Nat.log2 r) < 2 ^ 64 := by
  have he := log2_le_of_word r hpos hr
  have hlow : 2 ^ 63 = 2 ^ Nat.log2 r * 2 ^ (63 - Nat.log2 r) := by
    rw [← pow_add]; congr 1; omega
  have hhigh : 2 ^ 64 = 2 ^ (Nat.log2 r + 1) * 2 ^ (63 - Nat.log2 r) := by
    rw [← pow_add]; congr 1; omega
  rw [hlow, hhigh]
  exact ⟨Nat.mul_le_mul_right _ (Nat.log2_self_le hpos), Nat.mul_lt_mul_of_pos_right Nat.lt_log2_self (by positivity)⟩

/-- Settles O45: `e` is the place of the highest set bit (`Nat.log2`); the bytes are `ext80_bytes`'s. -/
theorem extendedRate : Obligations.ExtendedRate := by
  refine ⟨fun r hone hr => ?_, by decide, by decide, by decide, by decide, by decide⟩
  have hpos : r ≠ 0 := by omega
  have hsign : ∀ e ≤ 31, (byteOf (16383 + e) 1).getLsbD 7 = false := by decide
  have he := log2_le_of_word r hpos hr
  exact ⟨Nat.log2 r, he, Nat.log2_self_le hpos, Nat.lt_log2_self, ext80_bytes r, hsign _ he,
    significand_bounds r hpos hr⟩

/-! ## The fields of the headers (R180) -/

/-- A field that lies within the header is read from the header. -/
theorem bytesAt_append (header rest : List Byte) (offset n : Nat) (h : offset + n ≤ header.length) :
    bytesAt (header ++ rest) offset n = bytesAt header offset n := by
  rw [bytesAt, bytesAt, List.drop_append_of_le_length (by omega), List.take_append_of_le_length]
  rw [List.length_drop]
  omega

theorem bytesAt_wavFile (s : State) (offset n : Nat) (hformat : s.format = 0) (h : offset + n ≤ 44) :
    bytesAt s.file offset n = bytesAt (wavHeader s.sampleRate s.len.toNat) offset n := by
  rw [file_of_wav s hformat, bytesAt_append _ _ _ _ (by rwa [wavHeader_length])]

theorem bytesAt_aiffFile (s : State) (offset n : Nat) (hformat : s.format = 1) (h : offset + n ≤ 54) :
    bytesAt s.file offset n = bytesAt (aiffHeader s.sampleRate s.len.toNat) offset n := by
  rw [file_of_aiff s hformat, bytesAt_append _ _ _ _ (by rwa [aiffHeader_length])]

theorem wavHeader_fields (fs n : Nat) :
    let h := wavHeader fs n
    bytesAt h 24 4 = (List.range 4).map (byteOf fs) ∧ bytesAt h 22 2 = [1, 0] ∧ bytesAt h 34 2 = [16, 0] ∧
      bytesAt h 28 4 = (List.range 4).map (byteOf (2 * fs)) ∧ bytesAt h 32 2 = [2, 0] ∧
      bytesAt h 40 4 = (List.range 4).map (byteOf (2 * n)) ∧
      bytesAt h 4 4 = (List.range 4).map (byteOf (36 + 2 * n)) := by
  rw [wavHeader_bytes]
  exact ⟨rfl, rfl, rfl, rfl, rfl, rfl, rfl⟩

theorem aiffHeader_fields (fs n : Nat) :
    let h := aiffHeader fs n
    bytesAt h 20 2 = [0, 1] ∧ bytesAt h 22 4 = ((List.range 4).map (byteOf n)).reverse ∧ bytesAt h 26 2 = [0, 16] ∧
      bytesAt h 30 8 = ((List.range 8).map (byteOf (fs * 2 ^ (63 - Nat.log2 fs)))).reverse ∧
      bytesAt h 28 2 = ((List.range 2).map (byteOf (16383 + Nat.log2 fs))).reverse ∧
      bytesAt h 42 4 = ((List.range 4).map (byteOf (8 + 2 * n))).reverse ∧
      bytesAt h 4 4 = ((List.range 4).map (byteOf (46 + 2 * n))).reverse := by
  rw [aiffHeader_bytes, ext80_bytes]
  exact ⟨rfl, rfl, rfl, rfl, rfl, rfl, rfl⟩

/-- Settles O46: the file is the header and the samples (`exec_write_emits_file`); each field is the number whose bytes
the header holds there, and none is too great for its bytes. -/
theorem headerRoundTrip : Obligations.HeaderRoundTrip := by
  intro s t file hinv hclosed hexec hout
  obtain ⟨-, ⟨hdense, hcap⟩, -, -, hrun⟩ := hinv
  obtain ⟨⟨-, ⟨hrate, hmax⟩, -⟩, -⟩ := hrun (.inl (.inr (.inl hclosed)))
  obtain rfl := Host.Outcome.next.inj ((exec_write_emits_file s hclosed hdense).symm.trans hexec)
  obtain rfl : s.file = file := List.append_cancel_left hout
  have hlen : 46 + 2 * s.len.toNat < 256 ^ 4 := by have := s.par.maxSamples.isLt; omega
  have hfs : 2 * s.sampleRate < 256 ^ 4 := by have := s.par.maxRate.isLt; omega
  have hsize := file_length s hdense
  refine ⟨fun hformat => ?_, fun hformat => ?_⟩
  · obtain ⟨h24, h22, h34, h28, h32, h40, h4⟩ := wavHeader_fields s.sampleRate s.len.toNat
    have hread := fun offset n => bytesAt_wavFile s offset n hformat
    rw [if_pos hformat] at hsize
    rw [hread 24 4 (by decide), hread 22 2 (by decide), hread 34 2 (by decide), hread 28 4 (by decide),
      hread 32 2 (by decide), hread 40 4 (by decide), hread 4 4 (by decide), h24, h22, h34, h28, h32, h40, h4,
      littleEndian_bytes 4 s.sampleRate (by omega), littleEndian_bytes 4 (2 * s.sampleRate) hfs,
      littleEndian_bytes 4 (2 * s.len.toNat) (by omega), littleEndian_bytes 4 (36 + 2 * s.len.toNat) (by omega)]
    exact ⟨rfl, rfl, rfl, by omega, rfl, rfl, by omega⟩
  · obtain ⟨h20, h22, h26, h30, h28, h42, h4⟩ := aiffHeader_fields s.sampleRate s.len.toNat
    have hread := fun offset n => bytesAt_aiffFile s offset n hformat
    have hpos : s.sampleRate ≠ 0 := by omega
    have he := log2_le_of_word s.sampleRate hpos (by omega)
    obtain ⟨-, hsignificand⟩ := significand_bounds s.sampleRate hpos (by omega)
    rw [if_neg (by simp [hformat])] at hsize
    rw [hread 20 2 (by decide), hread 22 4 (by decide), hread 26 2 (by decide), hread 30 8 (by decide),
      hread 28 2 (by decide), hread 42 4 (by decide), hread 4 4 (by decide), h20, h22, h26, h30, h28, h42, h4,
      bigEndian_bytes 4 s.len.toNat (by omega), bigEndian_bytes 8 _ hsignificand, bigEndian_bytes 2 _ (by omega),
      bigEndian_bytes 4 (8 + 2 * s.len.toNat) (by omega), bigEndian_bytes 4 (46 + 2 * s.len.toNat) (by omega),
      Nat.add_sub_cancel_left, significand_scaled s.sampleRate _ (by omega)]
    exact ⟨rfl, rfl, rfl, rfl, rfl, by omega⟩

end Sys2Proof.Machine
end

section
/-! `WARN` has no effect but on its own response (10_state.md R35, 60_exceptions.md R195): every operation of the block
on a state with other warnings does the same, and leaves some warnings. -/

namespace Sys2Proof.Machine

/-- The state with other warnings. -/
def State.withWarn (v : Reg32) (s : State) : State := { s with warn := v }

/-- The end of a pseudocode with other warnings. -/
def Flow.withWarn (v : Reg32) : Flow → Flow
  | .go s => .go (s.withWarn v)
  | .raised s => .raised (s.withWarn v)

theorem Flow.final_withWarn (v : Reg32) (f : Flow) : (f.withWarn v).final = f.final.withWarn v := by
  cases f <;> rfl

/-! ## Tones (R121 to R124) -/

theorem Flow.bind_withWarn (v : Reg32) (f : Flow) (k : State → Flow)
    (hk : ∀ s : State, k (s.withWarn v) = (k s).withWarn v) : (f.withWarn v).bind k = (f.bind k).withWarn v := by
  cases f with
  | go s => exact hk s
  | raised s => rfl

theorem emitSample_withWarn (f : Nat) (v : Reg32) (s : State) :
    emitSample f (s.withWarn v) = (emitSample f s).withWarn v := by
  rw [emitSample_eq, emitSample_eq, apply_ite (Flow.withWarn v)]
  rfl

theorem emitSamples_withWarn (n f : Nat) (v : Reg32) (s : State) :
    emitSamples n f (s.withWarn v) = (emitSamples n f s).withWarn v := by
  induction n generalizing s with
  | zero => rfl
  | succ n ih => rw [emitSamples, emitSamples, emitSample_withWarn, Flow.bind_withWarn v _ _ ih]

theorem tone_withWarn (f : Nat) (d : Rat) (v : Reg32) (s : State) :
    tone f d (s.withWarn v) = (tone f d s).withWarn v :=
  emitSamples_withWarn (s.sampleCount d).toNat f v { s with rem := s.remAfter d }

theorem toneEach_withWarn (fs : List Nat) (d : Rat) (v : Reg32) (s : State) :
    toneEach fs d (s.withWarn v) = (toneEach fs d s).withWarn v := by
  induction fs generalizing s with
  | nil => rfl
  | cons f fs ih => rw [toneEach, toneEach, tone_withWarn, Flow.bind_withWarn v _ _ ih]

theorem repeatTone_withWarn (n f : Nat) (d : Rat) (v : Reg32) (s : State) :
    repeatTone n f d (s.withWarn v) = (repeatTone n f d s).withWarn v := by
  rw [← toneEach_replicate, ← toneEach_replicate, toneEach_withWarn]

theorem endOfInput_withWarn (v : Reg32) (s : State) : endOfInput (s.withWarn v) = (endOfInput s).withWarn v := by
  have htones := repeatTone_withWarn Config.postBits s.markFreq s.bitDuration v s
  rw [endOfInput, endOfInput, ← Flow.bind_withWarn v _ (enter .closed) fun _ => rfl, ← htones]
  rfl

/-- `START` sets warnings of its own before it makes tones (R147). -/
theorem startRun_final_withWarn (v : Reg32) (s : State) :
    ∃ u, (startRun (s.withWarn v)).final = (startRun s).final.withWarn u := by
  by_cases hlegal : s.configLegal
  · refine ⟨(s.withWarn v).setWarnings.warn, ?_⟩
    have htones := repeatTone_withWarn Config.preBits s.markFreq s.bitDuration (s.withWarn v).setWarnings.warn
      s.setWarnings
    rw [startRun_of_configLegal s hlegal, startRun_of_configLegal (s.withWarn v) hlegal, ← Flow.final_withWarn,
      ← Flow.bind_withWarn _ _ (enter .run) fun _ => rfl, ← htones]
    rfl
  · refine ⟨v, ?_⟩
    rcases startRun_final s with ⟨-, -, hfinal⟩ | ⟨h, -⟩
    case inr => exact absurd h hlegal
    rcases startRun_final (s.withWarn v) with ⟨-, -, hfinal'⟩ | ⟨h, -⟩
    case inr => exact absurd h hlegal
    rw [hfinal, hfinal']
    rfl

/-! ## WRITE (R163, R170) -/

theorem sampleBytes_withWarn (enc : Cell → List Byte) (v : Reg32) (s : State) (count i : Nat) :
    sampleBytes enc (s.withWarn v) count i = sampleBytes enc s count i := by
  induction count generalizing i with
  | zero => rfl
  | succ count ih =>
    have hread : sinkRead i (s.withWarn v) = sinkRead i s := rfl
    rw [sampleBytes, sampleBytes, hread, ih]

/-! ## What a step does with other warnings -/

/-- From states that differ in `WARN` only, the operation answers states that differ in `WARN` only. -/
def Inert (op : State → Host.Outcome State Fault Refusal) : Prop :=
  ∀ (s t : State) (v : Reg32), op s = .next t → ∃ u, op (s.withWarn v) = .next (t.withWarn u)

/-- A pseudocode that does not read `WARN`. -/
theorem Inert.of_flow (op : State → Flow) (h : ∀ v s, op (s.withWarn v) = (op s).withWarn v) :
    Inert fun s => (op s).outcome := by
  rintro s t v hop
  obtain rfl := Host.Outcome.next.inj hop
  exact ⟨v, congrArg Host.Outcome.next ((congrArg Flow.final (h v s)).trans (Flow.final_withWarn v _))⟩

theorem startRun_inert : Inert fun s => (startRun s).outcome := by
  rintro s t v hop
  obtain rfl := Host.Outcome.next.inj hop
  obtain ⟨u, hu⟩ := startRun_final_withWarn v s
  exact ⟨u, congrArg _ hu⟩

theorem emitFile_inert (header : List Byte) (enc : Cell → List Byte) : Inert (emitFile header enc) := by
  intro s t v hop
  have hbytes : sampleBytes enc (s.withWarn v) (s.withWarn v).len.toNat 0 = sampleBytes enc s s.len.toNat 0 :=
    sampleBytes_withWarn enc v s _ 0
  unfold emitFile at hop ⊢
  rw [hbytes]
  cases hread : sampleBytes enc s s.len.toNat 0 with
  | error r => rw [hread] at hop; cases hop
  | ok bytes =>
    rw [hread] at hop
    obtain rfl := Host.Outcome.next.inj hop
    exact ⟨v, rfl⟩

theorem writeFile_inert : Inert writeFile := by
  intro s t v hop
  by_cases hformat : s.format = 0
  · obtain ⟨u, hu⟩ := emitFile_inert _ _ s t v ((if_pos hformat).symm.trans hop)
    exact ⟨u, (if_pos hformat).trans hu⟩
  · obtain ⟨u, hu⟩ := emitFile_inert _ _ s t v ((if_neg hformat).symm.trans hop)
    exact ⟨u, (if_neg hformat).trans hu⟩

theorem illegalWord_inert (w : CmdWord) : Inert (illegalWord w) := by
  intro s t v hop
  rcases illegalWord_next w s t hop with ⟨hfault, rfl⟩ | ⟨hlive, rfl⟩
  · exact ⟨v, if_pos hfault⟩
  · exact ⟨v, if_neg hlive⟩

theorem checked_inert (i : Instr) {body : State → Host.Outcome State Fault Refusal} (hbody : Inert body) :
    Inert fun s => checked i s body := by
  intro s t v hop
  by_cases hruns : s.state ≠ .fault ∧ legalIn i s.state
  · have hop' : body s = .next t := (if_pos hruns).symm.trans hop
    obtain ⟨u, hu⟩ := hbody s t v hop'
    exact ⟨u, (if_pos hruns).trans hu⟩
  · have hop' : illegalWord (encode i) s = .next t := (if_neg hruns).symm.trans hop
    obtain ⟨u, hu⟩ := illegalWord_inert (encode i) s t v hop'
    exact ⟨u, (if_neg hruns).trans hu⟩

theorem statusValue_withWarn (idx : Fin 8) (v : Reg32) (s : State) (h : idx ≠ 3) :
    (s.withWarn v).statusValue idx = s.statusValue idx := by
  unfold State.statusValue
  split
  case h_4 hidx => exact absurd (Fin.ext hidx) h
  all_goals rfl

theorem execRdsr_inert (idx : Fin 8) (h : idx ≠ 3) : Inert (execRdsr idx) := by
  intro s t v hop
  unfold execRdsr at hop ⊢
  split at hop
  next hwf =>
    obtain rfl := Host.Outcome.next.inj hop
    exact ⟨v, by rw [if_pos hwf, statusValue_withWarn idx v s h]; rfl⟩
  next hwf =>
    obtain ⟨u, hu⟩ := illegalWord_inert (encode (.rdsr idx)) s t v hop
    exact ⟨u, by rw [if_neg hwf]; exact hu⟩

/-- Every command but `RDSR` of `WARN`. -/
theorem exec_inert (i : Instr) (hi : i ≠ .rdsr 3) : Inert (exec i) := by
  cases i with
  | reset =>
    intro s t v hop
    obtain rfl := Host.Outcome.next.inj hop
    exact ⟨0, rfl⟩
  | cfgw idx value =>
    refine checked_inert (.cfgw idx value) (body := fun s => .next (s.writeCfg idx value)) fun s t v hop => ?_
    obtain rfl := Host.Outcome.next.inj hop
    exact ⟨v, rfl⟩
  | start => exact checked_inert .start startRun_inert
  | byte x =>
    exact checked_inert (.byte x) (.of_flow (sendFrame x) fun v s => toneEach_withWarn (s.frameTones x) _ v s)
  | tone f d => exact checked_inert (.tone f d) (.of_flow _ (tone_withWarn (toneFreq f) (toneDuration d)))
  | eoi => exact checked_inert .eoi (.of_flow endOfInput endOfInput_withWarn)
  | write => exact checked_inert .write writeFile_inert
  | rdsr idx => exact execRdsr_inert idx fun h => hi (by rw [h])

/-- Settles O54: a word that is no command is inert (`illegalWord_inert`), and so is every command but the one
that reads `WARN` (`exec_inert`). -/
theorem warningsInert : Obligations.WarningsInert := by
  intro s t v w rest hport hd hstep
  rw [step_word s w rest hport] at hstep
  rw [step_word { s with warn := v } w rest hport]
  cases hdec : decode w with
  | error e =>
    rw [runWord, hdec] at hstep ⊢
    exact illegalWord_inert w { s with port := rest } t v hstep
  | ok i =>
    rw [runWord, hdec] at hstep ⊢
    exact exec_inert i (fun h => hd (by rw [hdec, h])) { s with port := rest } t v hstep

end Sys2Proof.Machine
end

section
/-! A hardware reset during a command (70_reset_and_hazards.md R220, R222): what of the command's output has left the
block. And the written form of commands (30_encoding.md R85, R87). -/

namespace Sys2Proof.Machine

/-! ## The output of a command cut off (R222) -/

/-- Of what a stream gained the first `n` values are kept. -/
theorem emittedPrefix_append {α : Type} (n : Nat) (before gained : List α) :
    emittedPrefix n before (before ++ gained) = before ++ gained.take n := by
  rw [emittedPrefix, List.drop_left]

theorem emittedPrefix_self {α : Type} (n : Nat) (before : List α) : emittedPrefix n before before = before := by
  simp [emittedPrefix]

theorem emittedPrefix_between {α : Type} (n : Nat) (before after : List α) (h : before <+: after) :
    before <+: emittedPrefix n before after ∧ emittedPrefix n before after <+: after := by
  obtain ⟨gained, rfl⟩ := h
  rw [emittedPrefix_append]
  exact ⟨List.prefix_append _ _, (List.prefix_append_right_inj before).2 (List.take_prefix n gained)⟩

theorem runWord_rsp_prefix (w : CmdWord) (s t : State) (h : runWord w s = .next t) : s.rsp <+: t.rsp := by
  rcases runWord_rsp_cases w s t h with ⟨hrsp, -⟩ | ⟨idx, -, hrsp⟩
  · rw [hrsp]
  · rw [hrsp]; exact List.prefix_append _ _

/-- Settles O58: the whole command would have answered (`runWord_answers`) and only added to the streams, so what is
left of them lies between (`emittedPrefix_between`). -/
theorem resetDuringCommand : Obligations.ResetDuringCommand := by
  intro s w k rest hinv hport
  obtain ⟨u, hrun⟩ := runWord_answers w { s with port := rest } hinv.dense
  obtain ⟨hout, hout'⟩ := emittedPrefix_between k s.out u.out (runWord_out_prefix w { s with port := rest } u hrun)
  obtain ⟨hrsp, hrsp'⟩ := emittedPrefix_between k s.rsp u.rsp (runWord_rsp_prefix w { s with port := rest } u hrun)
  refine ⟨_, ({ s with port := rest } : State).toReset, u, step_wordCutByReset s u w k rest hport hrun, rfl,
    (step_word { s with port := .word w :: rest } w rest rfl).trans hrun, rfl, hout, hout', hrsp, hrsp', fun hd => ?_⟩
  rcases runWord_out_cases w { s with port := rest } u hrun with hsame | ⟨hwrite, -⟩
  · show emittedPrefix k s.out u.out = s.out
    rw [hsame]
    exact emittedPrefix_self k s.out
  · exact absurd hwrite hd

/-! ## The assembler (R85, R87) -/

/-- Settles O60: seven closed lines, each evaluated. -/
theorem assembledLines : Obligations.AssembledLines :=
  ⟨rfl, rfl, rfl, rfl, rfl, rfl, rfl⟩

end Sys2Proof.Machine
end

section
/-! A whole run (42_frame_encoder.md R152, R153; 70_reset_and_hazards.md R227, R228): `START`, bytes, `EOI`, `WRITE`. Each
command adds its duration to one count from the state the run begins in, until the count passes the capacity; from
then on `FAULT` drops every word. -/

namespace Sys2Proof.Machine

/-! ## Where a run stands -/

/-- A run from `b` has ended in a capacity error. -/
structure Lost (b t : State) : Prop where
  state : t.state = .fault
  err : t.err = some .capacityExceededError
  full : t.len.toNat = b.par.maxSamples.val
  out : t.out = b.out
  cfg : t.cfg = b.cfg

/-- A run from `b` has asked for `D` microseconds of tones: they fit, and the run stands in `st`; or they do not, and
it has ended in a capacity error. -/
def Reached (b t : State) (st : RunState) (D : Rat) : Prop :=
  (b.len.toNat + (b.sampleCount D).toNat ≤ b.par.maxSamples.val ∧ t.state = st ∧ Counts b t D) ∨
  (b.par.maxSamples.val < b.len.toNat + (b.sampleCount D).toNat ∧ Lost b t)

/-- The counts speak of neither `STATE` nor `WARN` nor what is presented. -/
theorem Counts.other_fields {b t : State} {D : Rat} (h : Counts b t D) (st : RunState) (v : Reg32)
    (port : List HostEvent) : Counts b { t with state := st, warn := v, port := port } D :=
  ⟨h.ok, h.cfg, h.cfgv, h.par, h.out, h.err, h.len, h.rem⟩

theorem Reached.take_word {b t : State} {st : RunState} {D : Rat} (h : Reached b t st D) (rest : List HostEvent) :
    Reached b { t with port := rest } st D := by
  rcases h with ⟨hfit, hstate, hcounts⟩ | ⟨hover, hlost⟩
  · exact .inl ⟨hfit, hstate, hcounts.other_fields t.state t.warn rest⟩
  · exact .inr ⟨hover, hlost.state, hlost.err, hlost.full, hlost.out, hlost.cfg⟩

/-- A longer run asks for no fewer samples. -/
theorem sampleCount_toNat_mono (b : State) (hb : b.oscOk) (D d : Rat) (hd : 0 ≤ d) :
    (b.sampleCount D).toNat ≤ (b.sampleCount (D + d)).toNat :=
  Int.toNat_le_toNat (sampleCount_mono b D (D + d) (b.period_pos hb.1) (by linarith))

theorem Counts.bitDuration {b t : State} {D : Rat} (h : Counts b t D) : t.bitDuration = b.bitDuration := by
  rw [State.bitDuration, State.baud, h.cfg]; rfl

theorem Counts.lost {b t u : State} {D : Rat} (h : Counts b t D) (hu : FillsTo t u) :
    Lost b (u.raise .capacityExceededError 0) := by
  have hover := hu.overflowed h.ok.dense
  exact ⟨rfl, rfl, by rw [hover.full, h.par], hover.out.trans h.out, hover.cfg.trans h.cfg⟩

/-! ## One command of a run -/

/-- `START`, taken from the port, asks for its preamble (R147). -/
theorem exec_start_reached (s : State) (rest : List HostEvent) (hinv : s.Inv) (hidle : s.state = .idle)
    (hlegal : s.configLegal) : ∃ t, exec .start { s with port := rest } = .next t ∧ t.port = rest ∧
      Reached s t .run (Config.preBits * s.bitDuration) := by
  have hosc := hinv.oscOk_of_idle hidle hlegal
  have hbegin : Counts s ({ s with port := rest } : State).setWarnings 0 :=
    (Counts.refl s hosc).other_fields s.state _ rest
  have hD : 0 ≤ Config.preBits * s.bitDuration := mul_nonneg (Nat.cast_nonneg _) s.bitDuration_nonneg
  have hexec := exec_start_of_idle { s with port := rest } hidle
  rcases startRun_cases { s with port := rest } hlegal hosc with ⟨hfit, hgo⟩ | ⟨hover, u, hraised, hu⟩
  · have hcounts := hbegin.sounds hosc le_rfl hD (tone_soundsTo _ s.markFreq _ hosc hfit)
    rw [zero_add] at hcounts
    rw [hgo, Flow.final_go] at hexec
    exact ⟨_, hexec, rfl, .inl ⟨hfit, rfl, hcounts.other_fields .run _ _⟩⟩
  · rw [hraised, Flow.final_raised] at hexec
    exact ⟨_, hexec, (hu.overflowed hosc.dense).port, .inr ⟨hover, hbegin.lost hu⟩⟩

/-- What is dropped in `FAULT` leaves a lost run as it is. -/
theorem Lost.exec_dropped {b t : State} (h : Lost b t) (i : Instr) (st : RunState) (hi : onlyState i = some st) :
    exec i t = .next t := by
  refine Machine.exec_dropped i t h.state ?_ ?_
  · rintro rfl; cases hi
  · rintro idx rfl; cases hi

/-- A lost run stays lost, whatever more it is asked for. -/
theorem Reached.of_lost {b t : State} {D : Rat} (hb : b.oscOk) (st : RunState) (d : Rat) (hd : 0 ≤ d)
    (hover : b.par.maxSamples.val < b.len.toNat + (b.sampleCount D).toNat) (hlost : Lost b t) :
    Reached b t st (D + d) := by
  have := sampleCount_toNat_mono b hb D d hd
  exact .inr ⟨by omega, hlost⟩

/-- The bits of one frame (R143 to R146). -/
def State.frameBits (s : State) : Nat := 1 + s.bitWidth + (if s.parity = 0 then 0 else 1) + s.stopBits

theorem Counts.frameTones_length {b t : State} {D : Rat} (h : Counts b t D) (x : Byte) :
    (t.frameTones x).length = b.frameBits := by
  rw [Machine.frameTones_length, State.bitWidth, State.parity, State.stopBits, h.cfg]
  rfl

/-- `BYTE` asks for its frame (R148). -/
theorem exec_byte_reached (b t : State) (x : Byte) (D : Rat) (hb : b.oscOk) (hD : 0 ≤ D)
    (h : Reached b t .run D) : ∃ u, exec (.byte x) t = .next u ∧ u.port = t.port ∧
      Reached b u .run (D + b.frameBits * b.bitDuration) := by
  have hd : 0 ≤ b.frameBits * b.bitDuration := mul_nonneg (Nat.cast_nonneg _) b.bitDuration_nonneg
  rcases h with ⟨-, hrun, hcounts⟩ | ⟨hover, hlost⟩
  case inr => exact ⟨t, hlost.exec_dropped (.byte x) .run rfl, rfl, .of_lost hb .run _ hd hover hlost⟩
  have hnext := hcounts.next_len hb hD hd
  have hexec := exec_byte_of_run x t hrun
  have hcases := sendFrame_cases x t hcounts.ok
  rw [hcounts.frameTones_length x, hcounts.bitDuration, hnext, hcounts.par] at hcases
  rcases hcases with ⟨hfit, u, hgo, hu⟩ | ⟨hover, u, hraised, hu⟩
  · have hsame := hu.same
    unfold State.sameButSound at hsame
    rw [hgo, Flow.final_go] at hexec
    exact ⟨u, hexec, by rw [hsame], .inl ⟨hfit, by rw [hsame]; exact hrun, hcounts.sounds hb hD hd hu⟩⟩
  · rw [hraised, Flow.final_raised] at hexec
    exact ⟨_, hexec, (hu.overflowed hcounts.ok.dense).port, .inr ⟨hover, hcounts.lost hu⟩⟩

/-- `EOI` asks for its postamble (R149). -/
theorem exec_eoi_reached (b t : State) (D : Rat) (hb : b.oscOk) (hD : 0 ≤ D) (h : Reached b t .run D) :
    ∃ u, exec .eoi t = .next u ∧ u.port = t.port ∧ Reached b u .closed (D + Config.postBits * b.bitDuration) := by
  have hd : 0 ≤ Config.postBits * b.bitDuration := mul_nonneg (Nat.cast_nonneg _) b.bitDuration_nonneg
  rcases h with ⟨-, hrun, hcounts⟩ | ⟨hover, hlost⟩
  case inr => exact ⟨t, hlost.exec_dropped .eoi .run rfl, rfl, .of_lost hb .closed _ hd hover hlost⟩
  have hnext := hcounts.next_len hb hD hd
  have hexec := exec_eoi_of_run t hrun
  have hcases := endOfInput_cases t hcounts.ok
  rw [hcounts.bitDuration, hnext, hcounts.par] at hcases
  rcases hcases with ⟨hfit, hgo⟩ | ⟨hover, u, hraised, hu⟩
  · have hsounds := tone_soundsTo t t.markFreq (Config.postBits * b.bitDuration) hcounts.ok
      (by rw [hnext, hcounts.par]; exact hfit)
    rw [hgo, Flow.final_go] at hexec
    exact ⟨_, hexec, rfl, .inl ⟨hfit, rfl, (hcounts.sounds hb hD hd hsounds).other_fields .closed _ _⟩⟩
  · rw [hraised, Flow.final_raised] at hexec
    exact ⟨_, hexec, (hu.overflowed hcounts.ok.dense).port, .inr ⟨hover, hcounts.lost hu⟩⟩

/-! ## The words of a run, one after another -/

/-- The next command presented is taken and runs. -/
theorem step_presented (t : State) (i : Instr) (rest : List HostEvent) (hwf : i.wellFormed = true)
    (hport : t.port = .word (encode i) :: rest) : step t = exec i { t with port := rest } :=
  step_command t (encode i) rest i hport (decode_encode i hwf)

/-- The bytes of an input, each with its frame. -/
theorem runSteps_bytes (b : State) (hb : b.oscOk) (input : List Byte) (k : Nat) (rest : List HostEvent) (t : State)
    (D : Rat) (hD : 0 ≤ D) (hport : t.port = present (input.map .byte) ++ rest) (h : Reached b t .run D) :
    ∃ u, runSteps (input.length + k) t = runSteps k u ∧ u.port = rest ∧
      Reached b u .run (D + input.length * (b.frameBits * b.bitDuration)) := by
  induction input generalizing t D with
  | nil =>
    refine ⟨t, by rw [List.length_nil, Nat.zero_add], hport, ?_⟩
    rwa [List.length_nil, Nat.cast_zero, zero_mul, add_zero]
  | cons x xs ih =>
    have hd : 0 ≤ b.frameBits * b.bitDuration := mul_nonneg (Nat.cast_nonneg _) b.bitDuration_nonneg
    obtain ⟨v, hexec, hvport, hv⟩ := exec_byte_reached b { t with port := present (xs.map .byte) ++ rest } x D hb hD
      (h.take_word _)
    have hstep : step t = .next v := (step_presented t (.byte x) _ rfl hport).trans hexec
    obtain ⟨u, hruns, huport, hu⟩ := ih v _ (add_nonneg hD hd) hvport hv
    refine ⟨u, ?_, huport, ?_⟩
    · rw [List.length_cons, Nat.add_right_comm, runSteps_succ _ t v hstep, hruns]
    · have htotal : D + (xs.length + 1 : Nat) * (b.frameBits * b.bitDuration) =
          D + b.frameBits * b.bitDuration + xs.length * (b.frameBits * b.bitDuration) := by
        push_cast; ring
      rw [List.length_cons, htotal]
      exact hu

/-- The bit-durations of a run over `k` bytes (R152). -/
def State.runBits (s : State) (k : Nat) : Nat := Config.preBits + k * s.frameBits + Config.postBits

theorem runBits_duration (s : State) (k : Nat) :
    s.runBits k * s.bitDuration = Config.preBits * s.bitDuration + k * (s.frameBits * s.bitDuration) +
      Config.postBits * s.bitDuration := by
  rw [State.runBits]
  push_cast
  ring

/-- `START`, the bytes and `EOI` lead to `CLOSED`, or to a capacity error; `WRITE` is left. -/
theorem runSteps_to_eoi (s : State) (input : List Byte) (hinv : s.Inv) (hidle : s.state = .idle)
    (hlegal : s.configLegal) (hport : s.port = present (expandRun input)) :
    ∃ t, runSteps (input.length + 3) s = runSteps 1 t ∧ t.port = [.word (encode .write)] ∧
      Reached s t .closed (s.runBits input.length * s.bitDuration) := by
  have hosc := hinv.oscOk_of_idle hidle hlegal
  have hpre : 0 ≤ Config.preBits * s.bitDuration := mul_nonneg (Nat.cast_nonneg _) s.bitDuration_nonneg
  have hframes : 0 ≤ input.length * (s.frameBits * s.bitDuration) :=
    mul_nonneg (Nat.cast_nonneg _) (mul_nonneg (Nat.cast_nonneg _) s.bitDuration_nonneg)
  have hwords : s.port = .word (encode .start) ::
      (present (input.map .byte) ++ [.word (encode .eoi), .word (encode .write)]) := by
    rw [hport, present, expandRun]
    simp [present]
  obtain ⟨t₁, hstart, hport₁, h₁⟩ := exec_start_reached s
    (present (input.map .byte) ++ [.word (encode .eoi), .word (encode .write)]) hinv hidle hlegal
  have hstep₁ : step s = .next t₁ := (step_presented s .start _ rfl hwords).trans hstart
  obtain ⟨t₂, hbytes, hport₂, h₂⟩ := runSteps_bytes s hosc input 2 _ t₁ _ hpre hport₁ h₁
  obtain ⟨t₃, heoi, hport₃, h₃⟩ := exec_eoi_reached s { t₂ with port := [.word (encode .write)] } _ hosc
    (add_nonneg hpre hframes) (h₂.take_word _)
  have hstep₃ : step t₂ = .next t₃ := (step_presented t₂ .eoi _ rfl hport₂).trans heoi
  refine ⟨t₃, ?_, hport₃, by rw [runBits_duration]; exact h₃⟩
  rw [runSteps_succ (input.length + 2) s t₁ hstep₁, hbytes, runSteps_succ 1 t₂ t₃ hstep₃]

/-! ## The file at the end of a run (R171, R175) -/

/-- The WAV file of a dense sink: its length, its header, its samples. -/
theorem wavFile_layout (s : State) (hdense : s.sink.dense s.len.toNat) (hformat : s.format = 0) :
    s.file.length = 44 + 2 * s.len.toNat ∧ s.file.take 44 = wavHeader s.sampleRate s.len.toNat ∧
      ∀ i < s.len.toNat, ∃ v, s.sink.read i = some v ∧ s.file[44 + 2 * i]? = some (v.extractLsb' 0 8) ∧
        s.file[45 + 2 * i]? = some (v.extractLsb' 8 8) := by
  refine ⟨by rw [file_length s hdense, if_pos hformat], ?_, ?_⟩
  · rw [file_of_wav s hformat, List.take_left' (wavHeader_length _ _)]
  · rw [file_of_wav s hformat]
    exact samples_behind_header _ wavSample _ _ s.sink _ 44 (wavHeader_length _ _) wavSample_bits hdense

/-- The AIFF file of a dense sink: its length, its header, its samples. -/
theorem aiffFile_layout (s : State) (hdense : s.sink.dense s.len.toNat) (hformat : s.format = 1) :
    s.file.length = 54 + 2 * s.len.toNat ∧ s.file.take 54 = aiffHeader s.sampleRate s.len.toNat ∧
      ∀ i < s.len.toNat, ∃ v, s.sink.read i = some v ∧ s.file[54 + 2 * i]? = some (v.extractLsb' 8 8 ^^^ 0x80) ∧
        s.file[55 + 2 * i]? = some (v.extractLsb' 0 8) := by
  refine ⟨by rw [file_length s hdense, if_neg (by simp [hformat])], ?_, ?_⟩
  · rw [file_of_aiff s hformat, List.take_left' (aiffHeader_length _ _)]
  · rw [file_of_aiff s hformat]
    exact samples_behind_header _ aiffSample _ _ s.sink _ 54 (aiffHeader_length _ _) aiffSample_bits hdense

/-- Settles O59: the run asks for one count of its total duration (`runSteps_to_eoi`); if it fits, `WRITE` emits the
file of the sink reached, and otherwise it is dropped. -/
theorem wholeRun : Obligations.WholeRun := by
  intro s input hinv hidle hlegal hport e n he hn
  obtain ⟨-, hlen, -, hrem, -⟩ := hinv.fresh hidle
  have hlen0 : s.len.toNat = 0 := by rw [hlen]; rfl
  have hbits : s.runBits input.length = e := he.symm
  have hcount : s.sampleCount (e * s.bitDuration) = n := (sampleCount_bits_of_rem_zero s e hrem).trans hn.symm
  have hremAfter := remAfter_eq s (e * s.bitDuration) n hcount
  rw [s.bitDuration_eq, hrem, add_zero] at hremAfter
  obtain ⟨t, hruns, hwrite, ht⟩ := runSteps_to_eoi s input hinv hidle hlegal hport
  have hstep := step_presented t .write [] rfl hwrite
  rw [hbits] at ht
  unfold Reached at ht
  rw [hcount, Int.toNat_natCast, hlen0, Nat.zero_add] at ht
  rw [hruns]
  rcases ht with ⟨hfit, hclosed, hcounts⟩ | ⟨hover, hlost⟩
  · have htlen : t.len.toNat = n := by rw [hcounts.len, hcount, Int.toNat_natCast, hlen0, Nat.zero_add]
    have hrate : t.sampleRate = s.sampleRate := by rw [State.sampleRate, hcounts.cfg]; rfl
    have hformat : t.format = s.format := by rw [State.format, hcounts.cfg]; rfl
    have hdense := hcounts.ok.dense
    rw [exec_write_emits_file { t with port := [] } hclosed hdense] at hstep
    refine ⟨_, runSteps_succ 0 t _ hstep, rfl, hcounts.cfg, fun _ => ?_, fun hover => by omega⟩
    refine ⟨⟨rfl, hcounts.err.trans (hinv.err_eq_none (by simp [hidle]))⟩, htlen, ?_, t.file, ?_, ?_, ?_⟩
    · exact hcounts.rem.trans (by rw [s.bitDuration_eq]; exact hremAfter)
    · exact congrArg (· ++ t.file) hcounts.out
    · rw [← hformat, ← hrate, ← htlen]
      exact wavFile_layout t hdense
    · rw [← hformat, ← hrate, ← htlen]
      exact aiffFile_layout t hdense
  · have hdropped : exec .write { t with port := [] } = .next { t with port := [] } :=
      exec_dropped .write { t with port := [] } hlost.state (by simp) (by simp)
    rw [hdropped] at hstep
    exact ⟨_, runSteps_succ 0 t _ hstep, rfl, hlost.cfg, fun hfit => by omega,
      fun _ => ⟨hlost.state, hlost.err, hlost.full, hlost.out⟩⟩

end Sys2Proof.Machine
end
